-- ==== Sys2Proof/Config.lean ====
section
/-! DEFINITION. What one implementation of the engine fixes: the two variants and the sizes that shape its registers
(00_scope R2), the implementation parameters (R5), and the free values: what the spec leaves unspecified. -/

namespace Sys2Proof

/-- The two variants of the engine (00_scope R2): `b64` is the 64-bit variant, `s32` the 32-bit variant. -/
inductive Variant
  | b64
  | s32
deriving DecidableEq, Repr

/-- `W`, the word width in bits (R2). -/
abbrev Variant.wordBits : Variant → Nat
  | .b64 => 64
  | .s32 => 32

/-- `NB`, the bytes per word, `W / 8` (R2). -/
abbrev Variant.wordBytes : Variant → Nat
  | .b64 => 8
  | .s32 => 4

/-- `BB`, the block size in bytes (R2). -/
abbrev Variant.blockBytes : Variant → Nat
  | .b64 => 128
  | .s32 => 64

/-- `MAXK`, the maximum key length in bytes (R2). -/
abbrev Variant.maxKey : Variant → Nat
  | .b64 => 64
  | .s32 => 32

/-- `MAXD`, the maximum digest length in bytes (R2). -/
abbrev Variant.maxDigest : Variant → Nat
  | .b64 => 64
  | .s32 => 32

/-- `VARIANT` of the machine after reset: this spec's default (R5). -/
def Config.variant : Variant := .b64

/-- `NCTX` of the machine after reset: the default (R5). -/
def Config.nctx : Nat := 4

/-- `WIDE_COUNTER_GUARD` of the machine after reset: the default (R5). -/
def Config.wideCounterGuard : Bool := false

/-- `SRC_MAX_LEN`, the longest source operand (R5). -/
def Config.srcMaxLen : Nat := 2 ^ 31 - 1

/-- `RES_MAX`, the capacity of `RES_DATA` in bytes (R5). -/
abbrev Config.resMax : Nat := 64

/-- A FREE VALUE for each variant: the string from which its `Config.algorithmName` is made. Nothing in Lean can say what it
is, nor whether two variants share it (log 8). -/
opaque Config.freeName (v : Variant) : List (BitVec 8)

/-- `ALGORITHM_NAME` (R5) of each variant (40_lifecycle R108: "each variant exposes a canonical name string"), OPEN in the
spec: some ASCII string of at most 64 bytes. It is the free string cut to 64 bytes with the top bit of each byte
cleared, so that it is ASCII; every such string is possible (log 8). -/
def Config.algorithmName (v : Variant) : List (BitVec 8) :=
  ((Config.freeName v).take Config.resMax).map (· &&& 0x7F#8)

/-- A FREE VALUE: byte number `place` of the unspecified slot contents number `draw` (60_exceptions R229,
70_reset_and_hazards R250; log 4). -/
opaque Config.freeByte (draw place : Nat) : BitVec 8

/-- A FREE VALUE: the word of `w` bits number `place` of the unspecified slot contents number `draw` (log 4). -/
opaque Config.freeWord (w draw place : Nat) : BitVec w

end Sys2Proof
end

