-- ==== Sys2Proof/Word.lean ====
section
/-! DEFINITION. Bytes, words and command words. The operators of 00_scope R7 on words are BitVec's own: `+` wraps modulo
2^W, `^^^` is exclusive or, `~~~` complement, `>>>` and `<<<` logical shifts. -/

namespace Sys2Proof

/-- A byte (00_scope R6). -/
abbrev Byte := BitVec 8

/-- A word of `W` bits (R6), the width of the variant. -/
abbrev Word (v : Variant) := BitVec v.wordBits

/-- One word written to the command port (30_encoding R70). -/
abbrev CmdWord := BitVec 32

/-- The number of a context slot as a command names it: 4 bits, unsigned (30_encoding R73, R76). -/
abbrev SlotId := BitVec 4

end Sys2Proof
end

