-- ==== Sys2Proof/Machine/Codec.lean ====
section
/-! DEFINITION. The little-endian word codec shared by both variants (44_codec R200 to R202). Every conversion between
bytes and words inside the engine goes through it (R204). -/

namespace Sys2Proof.Machine

/-- The bytes from place `k` on: `sum over the bytes D[i] of zext_W(D[i]) << (8*(k+i))`. -/
def leSum (w : Nat) : Nat → List Byte → BitVec w
  | _, [] => 0
  | k, b :: bs => (b.setWidth w <<< (8 * k)) + leSum w (k + 1) bs

/-- `LE_DECODE(D)` (44_codec R200): byte 0 is the least significant. -/
def leDecode (v : Variant) (bs : List Byte) : Word v := leSum v.wordBits 0 bs

/-- `LE_ENCODE(x)` (44_codec R201): `E[k] = x[8k+7 : 8k]`. -/
def leEncode (v : Variant) (x : Word v) : List Byte :=
  (List.range v.wordBytes).map fun k => x.extractLsb' (8 * k) 8

/-- `LE_ENCODE_PART(x, r)` (44_codec R202): the `r` least significant bytes. -/
def leEncodePart (v : Variant) (x : Word v) (r : Nat) : List Byte := (leEncode v x).take r

end Sys2Proof.Machine
end

