-- ==== Sys2Proof/Machine/State.lean ====
section
/-! DEFINITION. The state of the device (10_state R21 to R39), its reasons to stop, and the state after reset (R39,
70_reset_and_hazards R250). Plain data. -/

namespace Sys2Proof.Machine

/-- One context slot `CTX[c]` (10_state R21). -/
structure Slot (v : Variant) where
  /-- `LIVE`: the slot holds a constructed instance (R22). -/
  live : Bool
  /-- `POISON`: an internal invariant of the slot has failed (R23). -/
  poison : Bool
  /-- `NN`: the digest length in bytes (R24). -/
  nn : Byte
  /-- `KK`: the key length in bytes (R25). -/
  kk : Byte
  /-- `KEY`: the key, zero from `KK` on (R25). -/
  key : Vector Byte v.maxKey
  /-- `H`: the chaining value (R26). -/
  h : Vector (Word v) 8
  /-- `T0`: the low word of the byte counter (R27). -/
  t0 : Word v
  /-- `T1`: the high word of the byte counter (R27). -/
  t1 : Word v
  /-- `BUF`: the block buffer (R28). -/
  buf : Vector Byte v.blockBytes
  /-- `FILLED`: the number of valid bytes in `BUF`, `0 <= FILLED <= BB` (R29; log 9). -/
  filled : Fin (v.blockBytes + 1)
deriving DecidableEq, Repr

/-- The context slots of a device: its `VARIANT` (00_scope R2) and its `NCTX` slots (10_state R21). The number of
slots is `NCTX` (log 1). -/
structure Bank where
  /-- `VARIANT`. -/
  variant : Variant
  /-- `CTX[0]` to `CTX[NCTX-1]`. -/
  slots : List (Slot variant)
deriving DecidableEq, Repr

/-- What the host may do to the device between commands (70_reset_and_hazards R253, R259). -/
inductive HostAction
  /-- Write one word to the command port `CMD` (30_encoding R70). -/
  | word (w : CmdWord)
  /-- Set the source operand port: absent, or these bytes (10_state R36, 30_encoding R85). -/
  | source (bytes : Option (List Byte))
  /-- Reset the device from outside (70_reset_and_hazards R250). -/
  | deviceReset
deriving DecidableEq, Repr

/-- The status codes by name (60_exceptions R220). -/
inductive Status
  /-- The command completed. -/
  | ok
  /-- Digest length or key length out of its domain (R222). -/
  | invalidArgument
  /-- A window outside `SRC` (R224). -/
  | outOfRange
  /-- `SRC` is absent (R223). -/
  | nullInput
  /-- The counter guard, or a command on a poisoned slot (R225). -/
  | illegalState
  /-- The slot holds no instance (R227). -/
  | noInstance
  /-- The words select no legal command (R221). -/
  | illegalCommand
deriving DecidableEq, Repr

/-- The state of the device, and of its host's future actions. -/
structure State where
  /-- The context slots, with `VARIANT` and `NCTX` (10_state R21). -/
  bank : Bank
  /-- `WIDE_COUNTER_GUARD` (00_scope R5): no command writes it (log 1). -/
  wideGuard : Bool
  /-- `STATUS` (10_state R34). -/
  status : BitVec 8
  /-- `RES_VALUE` (R34). -/
  resValue : BitVec 32
  /-- `RES_DLEN` (R34). -/
  resDlen : BitVec 8
  /-- `RES_DATA` (R34). -/
  resData : Vector Byte Config.resMax
  /-- `SRC`: absent (`none`), or present with its bytes (R36). -/
  src : Option (List Byte)
  /-- The words written to `CMD` of a command that has not yet been executed, oldest first (30_encoding R70, R79). -/
  port : List CmdWord
  /-- The model's own: what the host does from now on, in order (70_reset_and_hazards R259; log 2). -/
  host : List HostAction
  /-- The model's own: how many times unspecified slot contents have been drawn (log 4). -/
  freeDraws : Nat
deriving DecidableEq, Repr

/-- The faults that stop the machine: none. Every error of the spec is a status code of a completed command
(60_exceptions R220, R233), so the model has no fault to raise. -/
inductive Fault
deriving DecidableEq, Repr

/-- Why the model gives a step no meaning. -/
inductive Refusal
  /-- A command of the opcode table without a meaning, by its mnemonic: raised by an arm of `exec` only. Safe. -/
  | notModelled (mnemonic : String)
  /-- Raised by the host's action of setting `SRC` between the words of a command that reads it: outside the spec, "a
  model refuses the run" (70_reset_and_hazards R253, R256; log 6). Safe: nothing is claimed about such a run. -/
  | sourceChangedDuringCommand
  /-- Raised by the host's action of setting `SRC` to more than `SRC_MAX_LEN` bytes: no such operand exists (10_state
  R36), and "a longer operand is refused by the model" (92_eei_decisions D6; log 7). Safe. -/
  | sourceTooLong
deriving DecidableEq, Repr

/-- The variant of a state's device. -/
abbrev State.variant (s : State) : Variant := s.bank.variant

/-- `NCTX` of a state's device. -/
abbrev State.nctx (s : State) : Nat := s.bank.slots.length

/-- A slot after power-on: not live, not poisoned (70_reset_and_hazards R250); the fields that the spec leaves
unspecified hold 0 (DESIGN CHOICE, unsafe; log 3). -/
def Slot.reset (v : Variant) : Slot v where
  live := false
  poison := false
  nn := 0
  kk := 0
  key := Vector.replicate _ 0
  h := Vector.replicate _ 0
  t0 := 0
  t1 := 0
  buf := Vector.replicate _ 0
  filled := 0

/-- The state after power-on reset of a device with the given parameters (10_state R39, 70_reset_and_hazards R250). -/
def State.resetWith (v : Variant) (nctx : Nat) (wideGuard : Bool) : State where
  bank := ⟨v, List.replicate nctx (Slot.reset v)⟩
  wideGuard := wideGuard
  status := 0
  resValue := 0
  resDlen := 0
  resData := Vector.replicate _ 0
  src := none
  port := []
  host := []
  freeDraws := 0

/-- The machine right after reset, with the spec's default parameters (00_scope R5). -/
def State.reset : State :=
  State.resetWith Config.variant Config.nctx Config.wideCounterGuard

end Sys2Proof.Machine
end

