-- ==== Sys2Proof/Machine/Flags.lean ====
section
/-! DEFINITION. The flags (10_state R38): `LIVE` and `POISON` with the common entry checks (60_exceptions R226), the
derived flag *keyed*, the guard flag, and the one carry that is consumed (43_compression R171). No command sets a
condition code. -/

namespace Sys2Proof.Machine

variable {v : Variant}

/-- The derived flag *keyed*: `KK > 0` (10_state R38). -/
def Slot.keyed (x : Slot v) : Bool := decide (0 < x.kk.toNat)

/-- The entry checks of every command but `INIT` and `INITK` (60_exceptions R226 step 2, R227, R228): the status they
report, or `none` where the command goes on. -/
def Slot.entryCheck (x : Slot v) : Option Status :=
  if x.live = false then some .noInstance
  else if x.poison = true then some .illegalState
  else none

/-- `GUARD` (43_compression R171, R173): always on for the 32-bit variant, `WIDE_COUNTER_GUARD` for the 64-bit one. -/
def guardOn (v : Variant) (wideGuard : Bool) : Bool :=
  match v with
  | .b64 => wideGuard
  | .s32 => true

/-- `GUARD` of a state's device. -/
def State.guard (s : State) : Bool := guardOn s.variant s.wideGuard

/-- The carry of the counter advance (43_compression R171): the low word wrapped to zero while bytes were counted. -/
def counterCarry {w : Nat} (t0n : BitVec w) (n : Nat) : Bool := t0n == 0 && decide (0 < n)

end Sys2Proof.Machine
end

