-- ==== Sys2Proof/Machine/Tables.lean ====
section
/-! DEFINITION. The constant tables and the per-variant constants of the compression function (00_scope R2;
43_compression R170, R175). Read-only (10_state R32). The spec supplies the IV and SIGMA from general knowledge and
records them as confirmed by known answers (93_implementation_defined G2, G3; log 12). -/

namespace Sys2Proof.Machine

/-- `R`, the mixing rounds per compression (00_scope R2). -/
def rounds : Variant → Nat
  | .b64 => 12
  | .s32 => 10

/-- The rotation amounts `R1`, `R2`, `R3`, `R4` (00_scope R2). -/
structure Rotations where
  r1 : Nat
  r2 : Nat
  r3 : Nat
  r4 : Nat
deriving DecidableEq, Repr

/-- `ROT` (00_scope R2). -/
def rot : Variant → Rotations
  | .b64 => ⟨32, 24, 16, 63⟩
  | .s32 => ⟨16, 12, 8, 7⟩

/-- `IV` of the 64-bit variant (43_compression R170). -/
def iv64 : Vector (BitVec 64) 8 :=
  #v[0x6A09E667F3BCC908#64, 0xBB67AE8584CAA73B#64, 0x3C6EF372FE94F82B#64, 0xA54FF53A5F1D36F1#64,
     0x510E527FADE682D1#64, 0x9B05688C2B3E6C1F#64, 0x1F83D9ABFB41BD6B#64, 0x5BE0CD19137E2179#64]

/-- `IV` of the 32-bit variant (43_compression R170). -/
def iv32 : Vector (BitVec 32) 8 :=
  #v[0x6A09E667#32, 0xBB67AE85#32, 0x3C6EF372#32, 0xA54FF53A#32,
     0x510E527F#32, 0x9B05688C#32, 0x1F83D9AB#32, 0x5BE0CD19#32]

/-- `IV[0..7]` (43_compression R170). -/
def iv : (v : Variant) → Vector (Word v) 8
  | .b64 => iv64
  | .s32 => iv32

/-- One row of the message schedule: the indices of the 16 message words. -/
abbrev ScheduleRow := Vector (Fin 16) 16

/-- The ten distinct rows of `SIGMA` (43_compression R175). -/
def sigmaRows : Vector ScheduleRow 10 :=
  #v[#v[0, 1, 2, 3, 4, 5, 6, 7, 8, 9, 10, 11, 12, 13, 14, 15],
     #v[14, 10, 4, 8, 9, 15, 13, 6, 1, 12, 0, 2, 11, 7, 5, 3],
     #v[11, 8, 12, 0, 5, 2, 15, 13, 10, 14, 3, 6, 7, 1, 9, 4],
     #v[7, 9, 3, 1, 13, 12, 11, 14, 2, 6, 5, 10, 4, 0, 15, 8],
     #v[9, 0, 5, 7, 2, 4, 10, 15, 14, 1, 11, 12, 6, 8, 3, 13],
     #v[2, 12, 6, 10, 0, 11, 8, 3, 4, 13, 7, 5, 15, 14, 1, 9],
     #v[12, 5, 1, 15, 14, 13, 4, 10, 0, 7, 6, 3, 9, 2, 8, 11],
     #v[13, 11, 7, 14, 12, 1, 3, 9, 5, 0, 15, 4, 8, 6, 2, 10],
     #v[6, 15, 14, 9, 11, 3, 0, 8, 12, 2, 13, 7, 1, 4, 10, 5],
     #v[10, 2, 8, 4, 7, 6, 1, 5, 15, 11, 9, 14, 3, 12, 13, 0]]

/-- `SIGMA[r] = SIGMA[r mod 10]` (43_compression R175). -/
def sigma (r : Nat) : ScheduleRow := sigmaRows[r % 10]'(Nat.mod_lt r (by decide))

end Sys2Proof.Machine
end

