-- ==== Sys2Proof/Machine/Compression.lean ====
section
/-! DEFINITION. The compression function with its counter, mixer and permutation schedule (43_compression R171 to R182).
It is no command: the update and digest families call it. -/

namespace Sys2Proof.Machine

variable {v : Variant}

/-- `rotr(a, n)` for `0 < n < W` (00_scope R7). -/
def rotr {w : Nat} (a : BitVec w) (n : Nat) : BitVec w := (a >>> n) ||| (a <<< (w - n))

/-- `AdvanceCounter(c, n)` (43_compression R171); `none` where it raises `ILLEGAL_STATE`. `guard` is `GUARD` (R173). -/
def Slot.advanceCounter (guard : Bool) (n : Nat) (x : Slot v) : Option (Slot v) :=
  let t0n := x.t0 + BitVec.ofNat v.wordBits n
  let carry := counterCarry t0n n
  if carry && guard && x.t1 == BitVec.allOnes v.wordBits then none
  else some { x with t0 := t0n, t1 := if carry then x.t1 + 1 else x.t1 }

/-- The initial working vector `V[0..15]` (43_compression R174). -/
def workingVector (h : Vector (Word v) 8) (t0 t1 : Word v) (final : Bool) : Vector (Word v) 16 :=
  let V := h ++ iv v
  let V := V.set 12 (V[12] ^^^ t0)
  let V := V.set 13 (V[13] ^^^ t1)
  if final then V.set 14 (~~~ V[14]) else V

/-- The `NB` bytes of the block from index `NB*j` on. -/
def blockSlice (buf : Vector Byte v.blockBytes) (j : Nat) : List Byte :=
  (buf.toList.drop (v.wordBytes * j)).take v.wordBytes

/-- The message words `M[0..15]` of a block (43_compression R179, 20_memory R54). -/
def messageWords (buf : Vector Byte v.blockBytes) : Vector (Word v) 16 :=
  Vector.ofFn fun j => leDecode v (blockSlice buf j.val)

/-- The mixing function `G(V, a, b, c, d, x, y)` (43_compression R176): each line reads what the lines before wrote. -/
def mixG (V : Vector (Word v) 16) (a b c d : Fin 16) (x y : Word v) : Vector (Word v) 16 :=
  let V := V.set a (V[a] + V[b] + x)
  let V := V.set d (rotr (V[d] ^^^ V[a]) (rot v).r1)
  let V := V.set c (V[c] + V[d])
  let V := V.set b (rotr (V[b] ^^^ V[c]) (rot v).r2)
  let V := V.set a (V[a] + V[b] + y)
  let V := V.set d (rotr (V[d] ^^^ V[a]) (rot v).r3)
  let V := V.set c (V[c] + V[d])
  V.set b (rotr (V[b] ^^^ V[c]) (rot v).r4)

/-- One round with schedule row `σ` (43_compression R178): four columns, then four diagonals. -/
def mixRound (M : Vector (Word v) 16) (V : Vector (Word v) 16) (σ : ScheduleRow) : Vector (Word v) 16 :=
  let V := mixG V 0 4 8 12 M[σ[0]] M[σ[1]]
  let V := mixG V 1 5 9 13 M[σ[2]] M[σ[3]]
  let V := mixG V 2 6 10 14 M[σ[4]] M[σ[5]]
  let V := mixG V 3 7 11 15 M[σ[6]] M[σ[7]]
  let V := mixG V 0 5 10 15 M[σ[8]] M[σ[9]]
  let V := mixG V 1 6 11 12 M[σ[10]] M[σ[11]]
  let V := mixG V 2 7 8 13 M[σ[12]] M[σ[13]]
  mixG V 3 4 9 14 M[σ[14]] M[σ[15]]

/-- The rounds `0` to `n-1` in order (43_compression R180). -/
def mixRounds (M : Vector (Word v) 16) (n : Nat) (V : Vector (Word v) 16) : Vector (Word v) 16 :=
  (List.range n).foldl (fun V r => mixRound M V (sigma r)) V

/-- The chaining value after the rounds and the fold back `H[i] ^ V[i] ^ V[i+8]` (43_compression R180, R181). -/
def compressWords (h : Vector (Word v) 8) (t0 t1 : Word v) (final : Bool) (M : Vector (Word v) 16) :
    Vector (Word v) 8 :=
  let V := mixRounds M (rounds v) (workingVector h t0 t1 final)
  Vector.ofFn fun i => h[i] ^^^ V[i.val] ^^^ V[i.val + 8]

/-- `Compress(c, final)` (43_compression R180 to R182); `none` where the counter guard raises `ILLEGAL_STATE`. -/
def Slot.compress (guard final : Bool) (x : Slot v) : Option (Slot v) :=
  (x.advanceCounter guard x.filled.val).map fun y =>
    { y with
      h := compressWords y.h y.t0 y.t1 final (messageWords y.buf)
      buf := Vector.replicate _ 0
      filled := 0 }

end Sys2Proof.Machine
end

