-- ==== Sys2Proof/Machine/Ops.lean ====
section
/-! DEFINITION. The shared operations: the result registers and the one way to report an error (30_encoding R84;
60_exceptions R220, R232), access to the slots, the entry of every command (60_exceptions R226), poisoning (R229), and
the context reset with its parameter word (40_lifecycle R102, R103). -/

namespace Sys2Proof.Machine

variable {v : Variant}

/-- `D || zeros(n - |D|)`: a register of `n` bytes holding `D` from index 0, zero after it. -/
def padTo (n : Nat) (D : List Byte) : Vector Byte n := Vector.ofFn fun i => D[i.val]?.getD 0

/-! ### Result registers -/

/-- The value of `STATUS.CODE` (60_exceptions R220). -/
def Status.code : Status → BitVec 8
  | .ok => 0
  | .invalidArgument => 1
  | .outOfRange => 2
  | .nullInput => 3
  | .illegalState => 4
  | .noInstance => 5
  | .illegalCommand => 6

/-- What a command leaves in the four result registers (30_encoding R84): `data` are the valid bytes of `RES_DATA`. -/
structure Results where
  status : Status
  value : BitVec 32
  dlen : BitVec 8
  data : List Byte
deriving DecidableEq, Repr

/-- The results of a command that completes and returns nothing. -/
def okResults : Results := ⟨.ok, 0, 0, []⟩

/-- The results of a command that ends with an error: the code and nothing else (60_exceptions R232). -/
def errorResults (e : Status) : Results := ⟨e, 0, 0, []⟩

/-- The results of `LEN` (30_encoding R84). -/
def valueResults (x : BitVec 32) : Results := ⟨.ok, x, 0, []⟩

/-- The results of a command that returns bytes (30_encoding R84). -/
def bytesResults (dlen : BitVec 8) (data : List Byte) : Results := ⟨.ok, 0, dlen, data⟩

/-- The end of every command: all four result registers are written in one step (30_encoding R84). -/
def State.complete (s : State) (r : Results) : State :=
  { s with
    status := r.status.code
    resValue := r.value
    resDlen := r.dlen
    resData := padTo Config.resMax r.data }

/-- TAKING AN ERROR: the command ends, `STATUS` holds the code, the other result registers are zero, and nothing else
changes (60_exceptions R231, R232). Nothing is saved and control does not move, so there is no return from an error
(R233, R234). -/
def State.reportError (s : State) (e : Status) : State := s.complete (errorResults e)

/-! ### Slots -/

/-- `CTX[c]` with its variant, or `none` where the device has no such slot (10_state R21). -/
def State.slot? (s : State) (c : SlotId) : Option (Sigma Slot) :=
  s.bank.slots[c.toNat]?.map fun x => ⟨s.variant, x⟩

/-- `CTX[c] <- x`. -/
def State.setSlot (s : State) (c : SlotId) (x : Slot s.variant) : State :=
  { s with bank := { s.bank with slots := s.bank.slots.set c.toNat x } }

/-- A slot whose fields other than `LIVE` and `POISON` are unspecified (60_exceptions R229; 70_reset_and_hazards R250):
each is a free value of draw number `draw` (log 4). -/
def Slot.unspecified (v : Variant) (live poison : Bool) (draw : Nat) : Slot v where
  live := live
  poison := poison
  nn := Config.freeByte draw 0
  kk := Config.freeByte draw 1
  filled := Fin.ofNat (v.blockBytes + 1) (Config.freeByte draw 2).toNat
  key := Vector.ofFn fun i => Config.freeByte draw (3 + i.val)
  buf := Vector.ofFn fun i => Config.freeByte draw (3 + v.maxKey + i.val)
  t0 := Config.freeWord v.wordBits draw 0
  t1 := Config.freeWord v.wordBits draw 1
  h := Vector.ofFn fun i => Config.freeWord v.wordBits draw (2 + i.val)

/-- `CTX[c].POISON <- 1` with every other field unspecified (60_exceptions R229). `LIVE` stays 1: no command clears it
(10_state R22) and a poisoned slot reports `ILLEGAL_STATE`, not `NO_INSTANCE` (60_exceptions R228; DEDUCED, log 4). -/
def State.poisonSlot (s : State) (c : SlotId) : State :=
  { s.setSlot c (Slot.unspecified s.variant true true s.freeDraws) with freeDraws := s.freeDraws + 1 }

/-- What a command does to the slot it acts on, once its checks are passed. -/
inductive Effect (v : Variant)
  /-- The slot is written, and the command completes with these results. -/
  | write (x : Slot v) (r : Results)
  /-- No slot is written, and the command ends with these results. -/
  | report (r : Results)
  /-- The counter guard has tripped inside a compression (60_exceptions R229). -/
  | guardTrip

/-- The next state that an effect on slot `c` gives. -/
def State.applyEffect (s : State) (c : SlotId) : Effect s.variant → State
  | .write x r => (s.setSlot c x).complete r
  | .report r => s.complete r
  | .guardTrip => (s.poisonSlot c).reportError .illegalState

/-- A command on slot `c` in any condition (`INIT`, `INITK`). A slot that the device does not have is refused with
`ILLEGAL_COMMAND` (30_encoding R73): the decoder has seen to it already (log 11). -/
def State.withSlot (s : State) (c : SlotId) (k : Slot s.variant → State) : Host.Outcome State Fault Refusal :=
  match s.bank.slots[c.toNat]? with
  | none => .next (s.reportError .illegalCommand)
  | some x => .next (k x)

/-- A command on slot `c` that first passes the entry checks: live and not poisoned (60_exceptions R226 step 2). -/
def State.withReadySlot (s : State) (c : SlotId) (k : Slot s.variant → State) : Host.Outcome State Fault Refusal :=
  s.withSlot c fun x =>
    match x.entryCheck with
    | some e => s.reportError e
    | none => k x

/-! ### Context reset -/

/-- `ParamWord(c)` (40_lifecycle R102). -/
def paramWord (v : Variant) (nn kk : Byte) : Word v :=
  ((0x01010000#32 ^^^ (kk.setWidth 32 <<< 8)) ^^^ nn.setWidth 32).setWidth v.wordBits

/-- `ResetCtx(c)` (40_lifecycle R103): `NN`, `KK` and `KEY` are kept, and a keyed slot is primed with its key block. -/
def Slot.resetCtx (x : Slot v) : Slot v :=
  { x with
    t0 := 0
    t1 := 0
    h := (iv v).set 0 ((iv v)[0] ^^^ paramWord v x.nn x.kk)
    buf := if x.keyed then padTo v.blockBytes (x.key.toList.take x.kk.toNat) else Vector.replicate _ 0
    filled := if x.keyed then Fin.last v.blockBytes else 0 }

end Sys2Proof.Machine
end

