-- ==== Sys2Proof/Machine/Operands.lean ====
section
/-! DEFINITION. The operand forms: the source operand port, whole or as a window (30_encoding R78; 20_memory R50, R52),
with the argument checks in the order of 60_exceptions R226 step 3. An error is the status to report. -/

namespace Sys2Proof.Machine

/-- `MemRead(i, n) = SRC[i:i+n]` (00_scope R9, 20_memory R52). -/
def memRead (src : List Byte) (i n : Nat) : List Byte := (src.drop i).take n

/-- All of `SRC`, the operand of `UPD` and `DIGB` (30_encoding R78): `NULL_INPUT` if it is absent (60_exceptions R223). -/
def State.wholeSource (s : State) : Except Status (List Byte) :=
  match s.src with
  | none => .error .nullInput
  | some D => .ok (memRead D 0 D.length)

/-- The window lies inside a source of `srcLen` bytes (60_exceptions R224), the sum taken in exact integers. -/
def windowInside (off len : Int) (srcLen : Nat) : Bool :=
  !(decide (off < 0) || decide (len < 0) || decide ((srcLen : Int) < off + len))

/-- The window `SRC[off:off+len]`, the operand of `UPDR` and `DIGR`: `NULL_INPUT`, then `OUT_OF_RANGE` (60_exceptions
R223, R224, R226). -/
def State.sourceWindow (s : State) (off len : Int) : Except Status (List Byte) :=
  match s.src with
  | none => .error .nullInput
  | some D =>
    if windowInside off len D.length then .ok (memRead D off.toNat len.toNat) else .error .outOfRange

/-- `1 <= nn <= MAXD` (40_lifecycle R100). -/
def digestLengthOk (v : Variant) (nn : Byte) : Bool := decide (1 ≤ nn.toNat ∧ nn.toNat ≤ v.maxDigest)

/-- The key of `INITK`: all of `SRC`; `NULL_INPUT`, then `INVALID_ARGUMENT` for the digest length and for a key longer
than `MAXK` (40_lifecycle R101; 60_exceptions R222, R223, R226). -/
def State.keyOperand (s : State) (nn : Byte) : Except Status (List Byte) :=
  match s.src with
  | none => .error .nullInput
  | some D =>
    if !digestLengthOk s.variant nn then .error .invalidArgument
    else if s.variant.maxKey < D.length then .error .invalidArgument
    else .ok (memRead D 0 D.length)

/-- The fixed immediate-only check of `INIT` (40_lifecycle R100). -/
def State.digestLengthOperand (s : State) (nn : Byte) : Except Status Byte :=
  if digestLengthOk s.variant nn then .ok nn else .error .invalidArgument

end Sys2Proof.Machine
end

