-- ==== Sys2Proof/Machine/Update.lean ====
section
/-! DEFINITION. Absorbing input: `Absorb`, and `UPD1`, `UPD`, `UPDR` (41_update R130 to R134). -/

namespace Sys2Proof.Machine

variable {v : Variant}

/-- `BUF[FILLED : FILLED+|D|] <- D` and `FILLED <- FILLED + |D|`; the callers give at most `BB - FILLED` bytes, and
bytes beyond the buffer's end would be dropped. -/
def Slot.append (x : Slot v) (D : List Byte) : Slot v :=
  { x with
    buf := Vector.ofFn fun i =>
      if i.val < x.filled.val then x.buf[i] else D[i.val - x.filled.val]?.getD x.buf[i]
    filled := ⟨min (x.filled.val + D.length) v.blockBytes, by omega⟩ }

/-- A full buffer is compressed before a further byte enters it, and not earlier (41_update R131). -/
def Slot.makeRoom (guard : Bool) (x : Slot v) : Option (Slot v) :=
  if x.filled.val = v.blockBytes then x.compress guard false else some x

/-- The loop of `Absorb` (41_update R130), `D` the bytes not yet absorbed. Each turn absorbs at least one byte, so
`|D|` turns of fuel are enough (log 17). -/
def Slot.absorbLoop (guard : Bool) : Nat → List Byte → Slot v → Option (Slot v)
  | 0, _, x => some x
  | _ + 1, [], x => some x
  | fuel + 1, D, x =>
    match x.makeRoom guard with
    | none => none
    | some y =>
      let k := min (v.blockBytes - y.filled.val) D.length
      Slot.absorbLoop guard fuel (D.drop k) (y.append (D.take k))

/-- `Absorb(c, D)` (41_update R130); `none` where the counter guard trips. -/
def Slot.absorb (guard : Bool) (D : List Byte) (x : Slot v) : Option (Slot v) :=
  Slot.absorbLoop guard D.length D x

/-- One byte: `BUF[FILLED] <- b`, `FILLED <- FILLED + 1`, after making room (41_update R132). -/
def Slot.absorbByte (guard : Bool) (b : Byte) (x : Slot v) : Option (Slot v) :=
  (x.makeRoom guard).map fun y => y.append [b]

/-- The end of an update command: the new slot, or the tripped guard. -/
def updateEffect : Option (Slot v) → Effect v
  | some y => .write y okResults
  | none => .guardTrip

/-- `UPD1 c, b` (41_update R132). -/
def execUpd1 (c : SlotId) (b : Byte) (s : State) : Host.Outcome State Fault Refusal :=
  s.withReadySlot c fun x => s.applyEffect c (updateEffect (x.absorbByte s.guard b))

/-- `UPD c` (41_update R133). -/
def execUpd (c : SlotId) (s : State) : Host.Outcome State Fault Refusal :=
  s.withReadySlot c fun x =>
    match s.wholeSource with
    | .error e => s.reportError e
    | .ok D => s.applyEffect c (updateEffect (x.absorb s.guard D))

/-- `UPDR c, off, len` (41_update R134). -/
def execUpdr (c : SlotId) (off len : Int) (s : State) : Host.Outcome State Fault Refusal :=
  s.withReadySlot c fun x =>
    match s.sourceWindow off len with
    | .error e => s.reportError e
    | .ok D => s.applyEffect c (updateEffect (x.absorb s.guard D))

end Sys2Proof.Machine
end

