-- ==== Sys2Proof/Machine/Digest.lean ====
section
/-! DEFINITION. Finalization: `Finalize`, `Extract`, and `DIG`, `DIGB`, `DIGR` (42_digest R150 to R154). -/

namespace Sys2Proof.Machine

variable {v : Variant}

/-- `BUF[FILLED : BB] <- zeros(BB - FILLED)` (42_digest R150). -/
def Slot.padBuffer (x : Slot v) : Slot v :=
  { x with buf := Vector.ofFn fun i => if i.val < x.filled.val then x.buf[i] else 0 }

/-- `Extract(c)` (42_digest R151): the first `NN` bytes of the encodings of `H[0]` to `H[7]`. -/
def Slot.extract (x : Slot v) : List Byte := (x.h.toList.flatMap (leEncode v)).take x.nn.toNat

/-- `Finalize(c)` (42_digest R150): the digest and the slot after its context reset; `none` where the counter guard
trips. -/
def Slot.finalize (guard : Bool) (x : Slot v) : Option (List Byte × Slot v) :=
  (x.padBuffer.compress guard true).map fun y => (y.extract, y.resetCtx)

/-- The end of a digest command: `RES_DATA` holds the digest and `RES_DLEN` is `NN` (42_digest R152), or the tripped
guard. -/
def digestEffect : Option (List Byte × Slot v) → Effect v
  | some (out, y) => .write y (bytesResults y.nn out)
  | none => .guardTrip

/-- `DIG c` (42_digest R152). -/
def execDig (c : SlotId) (s : State) : Host.Outcome State Fault Refusal :=
  s.withReadySlot c fun x => s.applyEffect c (digestEffect (x.finalize s.guard))

/-- Absorb, then finalize (42_digest R153, R154); `none` where the counter guard trips in either. -/
def Slot.absorbFinalize (guard : Bool) (D : List Byte) (x : Slot v) : Option (List Byte × Slot v) :=
  (x.absorb guard D).bind fun y => y.finalize guard

/-- `DIGB c` (42_digest R153). -/
def execDigb (c : SlotId) (s : State) : Host.Outcome State Fault Refusal :=
  s.withReadySlot c fun x =>
    match s.wholeSource with
    | .error e => s.reportError e
    | .ok D => s.applyEffect c (digestEffect (x.absorbFinalize s.guard D))

/-- `DIGR c, off, len` (42_digest R154). -/
def execDigr (c : SlotId) (off len : Int) (s : State) : Host.Outcome State Fault Refusal :=
  s.withReadySlot c fun x =>
    match s.sourceWindow off len with
    | .error e => s.reportError e
    | .ok D => s.applyEffect c (digestEffect (x.absorbFinalize s.guard D))

end Sys2Proof.Machine
end

