-- ==== Sys2Proof/Machine/Lifecycle.lean ====
section
/-! DEFINITION. Construction, reset, burn, copy, length and identity: `INIT`, `INITK`, `RST`, `BURN`, `COPY`, `LEN`,
`ALG` (40_lifecycle R100 to R108). -/

namespace Sys2Proof.Machine

variable {v : Variant}

/-- Construction of an instance in a slot: every field is written (40_lifecycle R100, R101). -/
def Slot.construct (x : Slot v) (nn : Byte) (key : List Byte) : Slot v :=
  Slot.resetCtx
    { x with
      live := true
      poison := false
      nn := nn
      kk := BitVec.ofNat 8 key.length
      key := padTo v.maxKey key }

/-- `INIT c, nn` (40_lifecycle R100). It is accepted on a slot in any condition. -/
def execInit (c : SlotId) (nn : Byte) (s : State) : Host.Outcome State Fault Refusal :=
  s.withSlot c fun x =>
    match s.digestLengthOperand nn with
    | .error e => s.reportError e
    | .ok nn => s.applyEffect c (.write (x.construct nn []) okResults)

/-- `INITK c, nn` (40_lifecycle R101). It is accepted on a slot in any condition. -/
def execInitk (c : SlotId) (nn : Byte) (s : State) : Host.Outcome State Fault Refusal :=
  s.withSlot c fun x =>
    match s.keyOperand nn with
    | .error e => s.reportError e
    | .ok K => s.applyEffect c (.write (x.construct nn K) okResults)

/-- `RST c` (40_lifecycle R104). -/
def execRst (c : SlotId) (s : State) : Host.Outcome State Fault Refusal :=
  s.withReadySlot c fun x => s.applyEffect c (.write x.resetCtx okResults)

/-- The key erased and the buffer overwritten, then the context reset, now unkeyed (40_lifecycle R105). -/
def Slot.burn (x : Slot v) : Slot v :=
  Slot.resetCtx
    { x with
      key := Vector.replicate _ 0
      kk := 0
      buf := Vector.replicate _ 0 }

/-- `BURN c` (40_lifecycle R105). -/
def execBurn (c : SlotId) (s : State) : Host.Outcome State Fault Refusal :=
  s.withReadySlot c fun x => s.applyEffect c (.write x.burn okResults)

/-- `COPY c, d` (40_lifecycle R106): every field by value; nothing is written where `d = c`. A destination that the
device does not have is `ILLEGAL_COMMAND` before any entry check (30_encoding R76, 60_exceptions R226; log 11). -/
def execCopy (c d : SlotId) (s : State) : Host.Outcome State Fault Refusal :=
  if s.nctx ≤ d.toNat then .next (s.reportError .illegalCommand)
  else s.withReadySlot c fun x =>
    if d ≠ c then s.applyEffect d (.write x okResults) else s.applyEffect c (.report okResults)

/-- `LEN c` (40_lifecycle R107): `RES_VALUE <- zext_32(NN)`. -/
def execLen (c : SlotId) (s : State) : Host.Outcome State Fault Refusal :=
  s.withReadySlot c fun x => s.applyEffect c (.report (valueResults (x.nn.setWidth 32)))

/-- `ALG` with the name given (40_lifecycle R108): the name is a parameter, so that a claim can fix it. -/
def execAlgNamed (name : List Byte) (c : SlotId) (s : State) : Host.Outcome State Fault Refusal :=
  s.withReadySlot c fun _ => s.applyEffect c (.report (bytesResults (BitVec.ofNat 8 name.length) name))

/-- `ALG c` (40_lifecycle R108), with the OPEN parameter `ALGORITHM_NAME` of the device's variant (log 8). -/
def execAlg (c : SlotId) (s : State) : Host.Outcome State Fault Refusal :=
  execAlgNamed (Config.algorithmName s.variant) c s

end Sys2Proof.Machine
end

