-- ==== Sys2Proof/Syntax.lean ====
section
/-! DEFINITION. The thirteen commands with their operands (30_encoding R76 to R79). -/

namespace Sys2Proof

/-- The commands, one constructor per row of spec/opcode_table.json. `c` is the slot (R73); `nn` the requested digest
length and `b` the data byte (R76); `off` and `len` the signed extension words of a window (R77); `d` the destination
slot (R76). -/
inductive Instr
  /-- `INIT c, nn` (40_lifecycle R100). -/
  | init (c : SlotId) (nn : Byte)
  /-- `INITK c, nn` (40_lifecycle R101). -/
  | initk (c : SlotId) (nn : Byte)
  /-- `UPD1 c, b` (41_update R132). -/
  | upd1 (c : SlotId) (b : Byte)
  /-- `UPD c` (41_update R133). -/
  | upd (c : SlotId)
  /-- `UPDR c, off, len` (41_update R134). -/
  | updr (c : SlotId) (off len : Int)
  /-- `DIG c` (42_digest R152). -/
  | dig (c : SlotId)
  /-- `DIGB c` (42_digest R153). -/
  | digb (c : SlotId)
  /-- `DIGR c, off, len` (42_digest R154). -/
  | digr (c : SlotId) (off len : Int)
  /-- `RST c` (40_lifecycle R104). -/
  | rst (c : SlotId)
  /-- `BURN c` (40_lifecycle R105). -/
  | burn (c : SlotId)
  /-- `LEN c` (40_lifecycle R107). -/
  | len (c : SlotId)
  /-- `COPY c, d` (40_lifecycle R106). -/
  | copy (c d : SlotId)
  /-- `ALG c` (40_lifecycle R108). -/
  | alg (c : SlotId)
deriving DecidableEq, Repr

end Sys2Proof
end

