-- ==== Sys2Proof/Machine/Dispatch.lean ====
section
/-! DEFINITION. One arm per command: a direct call of its meaning. -/

namespace Sys2Proof.Machine

def exec (i : Instr) (s : State) : Host.Outcome State Fault Refusal :=
  match i with
  | .init c nn => Sys2Proof.Machine.execInit c nn s
  | .initk c nn => Sys2Proof.Machine.execInitk c nn s
  | .upd1 c b => Sys2Proof.Machine.execUpd1 c b s
  | .upd c => Sys2Proof.Machine.execUpd c s
  | .updr c off len => Sys2Proof.Machine.execUpdr c off len s
  | .dig c => Sys2Proof.Machine.execDig c s
  | .digb c => Sys2Proof.Machine.execDigb c s
  | .digr c off len => Sys2Proof.Machine.execDigr c off len s
  | .rst c => Sys2Proof.Machine.execRst c s
  | .burn c => Sys2Proof.Machine.execBurn c s
  | .len c => Sys2Proof.Machine.execLen c s
  | .copy c d => Sys2Proof.Machine.execCopy c d s
  | .alg c => Sys2Proof.Machine.execAlg c s

end Sys2Proof.Machine
end

