-- ==== Sys2Proof/WellFormed.lean ====
section
/-! DEFINITION. Which commands have an encoding on a device of `nctx` slots: every slot it names exists (30_encoding
R73, R76) and every window operand is a signed 32-bit number (R77). -/

namespace Sys2Proof

/-- The slot exists (R73). -/
def slotExists (nctx : Nat) (c : SlotId) : Bool := decide (c.toNat < nctx)

/-- The operand is a 32-bit two's-complement number: `-2^31 <= x <= 2^31 - 1` (R77). -/
def isSigned32 (x : Int) : Bool := decide (-2 ^ 31 ≤ x ∧ x ≤ 2 ^ 31 - 1)

/-- A command that the encoding can express on a device of `nctx` slots. A digest length out of range is well-formed:
it is encodable and its execution reports `INVALID_ARGUMENT` (R76). -/
def wellFormed (nctx : Nat) : Instr → Bool
  | .init c _ => slotExists nctx c
  | .initk c _ => slotExists nctx c
  | .upd1 c _ => slotExists nctx c
  | .upd c => slotExists nctx c
  | .updr c off len => slotExists nctx c && isSigned32 off && isSigned32 len
  | .dig c => slotExists nctx c
  | .digb c => slotExists nctx c
  | .digr c off len => slotExists nctx c && isSigned32 off && isSigned32 len
  | .rst c => slotExists nctx c
  | .burn c => slotExists nctx c
  | .len c => slotExists nctx c
  | .copy c d => slotExists nctx c && slotExists nctx d
  | .alg c => slotExists nctx c

end Sys2Proof
end

