-- ==== Sys2Proof/Decode.lean ====
section
/-! DEFINITION. Framing and decoding of command words (30_encoding R70 to R82), total on any words and on any bytes, and
after it the encoder (R71, R76, R77, R85). -/

namespace Sys2Proof

/-- Why a command is `ILLEGAL_COMMAND` (30_encoding R80), or why no command stands there yet. -/
inductive Reject
  /-- `OP` is 0x0, 0xE or 0xF (R72). -/
  | reservedOpcode
  /-- `RSVD` is not zero (R74). -/
  | reservedBitsSet
  /-- `CTX >= NCTX` (R73). -/
  | noSuchSlot
  /-- `IMM8` is not zero for an opcode without immediate, or `IMM8[7:4]` is not zero for `COPY` (R75, R76). -/
  | immediateNotZero
  /-- The destination of `COPY` is `>= NCTX` (R76). -/
  | noSuchDestination
  /-- Fewer words than the opcode's length (R79): the command has not been written whole. -/
  | incomplete
deriving DecidableEq, Repr

/-- `OP = CW[31:28]` (R72). -/
def opField (cw : CmdWord) : BitVec 4 := cw.extractLsb' 28 4

/-- `CTX = CW[27:24]` (R73). -/
def ctxField (cw : CmdWord) : SlotId := cw.extractLsb' 24 4

/-- `RSVD = CW[23:8]` (R74). -/
def rsvdField (cw : CmdWord) : BitVec 16 := cw.extractLsb' 8 16

/-- `IMM8 = CW[7:0]` (R75). -/
def imm8Field (cw : CmdWord) : Byte := cw.extractLsb' 0 8

/-- `dst = IMM8[3:0]` of `COPY` (R76). -/
def dstField (cw : CmdWord) : SlotId := cw.extractLsb' 0 4

/-- The length of a command in words, from `OP` alone: 3 for `UPDR` and `DIGR`, else 1 (R79). It holds for an illegal
command word too. -/
def commandWords (cw : CmdWord) : Nat :=
  match (opField cw).toNat with
  | 0x5 => 3
  | 0x8 => 3
  | _ => 1

/-- The command at the head of a list of words, with its own words, and the words after it; `none` while it is
incomplete (R79). -/
def takeCommand : List CmdWord → Option (List CmdWord × List CmdWord)
  | [] => none
  | cw :: rest =>
    if rest.length + 1 < commandWords cw then none
    else some (cw :: rest.take (commandWords cw - 1), rest.drop (commandWords cw - 1))

/-- An operation without immediate: `IMM8` must be zero (R75). -/
def decodePlain (imm : Byte) (i : Instr) : Except Reject Instr :=
  if imm ≠ 0 then .error .immediateNotZero else .ok i

/-- A window operation: `IMM8` must be zero, and two extension words follow, each a signed 32-bit number (R77). -/
def decodeWindow (imm : Byte) (ext : List CmdWord) (mk : Int → Int → Instr) : Except Reject Instr :=
  match ext with
  | x1 :: x2 :: _ => decodePlain imm (mk x1.toInt x2.toInt)
  | _ => .error .incomplete

/-- `COPY`: the destination is `IMM8[3:0]` and must exist; `IMM8[7:4]` must be zero (R76, R82). -/
def decodeCopy (nctx : Nat) (cw : CmdWord) (c : SlotId) : Except Reject Instr :=
  if (imm8Field cw).extractLsb' 4 4 ≠ 0 then .error .immediateNotZero
  else if nctx ≤ (dstField cw).toNat then .error .noSuchDestination
  else .ok (.copy c (dstField cw))

/-- The opcode map (R79), after the reserved bits and the slot number have been checked. -/
def decodeOp (nctx : Nat) (cw : CmdWord) (ext : List CmdWord) : Except Reject Instr :=
  let c := ctxField cw
  let imm := imm8Field cw
  match (opField cw).toNat with
  | 0x1 => .ok (.init c imm)
  | 0x2 => .ok (.initk c imm)
  | 0x3 => .ok (.upd1 c imm)
  | 0x4 => decodePlain imm (.upd c)
  | 0x5 => decodeWindow imm ext (.updr c)
  | 0x6 => decodePlain imm (.dig c)
  | 0x7 => decodePlain imm (.digb c)
  | 0x8 => decodeWindow imm ext (.digr c)
  | 0x9 => decodePlain imm (.rst c)
  | 0xA => decodePlain imm (.burn c)
  | 0xB => decodePlain imm (.len c)
  | 0xC => decodeCopy nctx cw c
  | 0xD => decodePlain imm (.alg c)
  | _ => .error .reservedOpcode

/-- The opcodes that select no operation: 0x0, 0xE and 0xF (R72, R80). -/
def isReservedOp (op : BitVec 4) : Bool := op == 0x0#4 || op == 0xE#4 || op == 0xF#4

/-- The decoder of R82, on the words of one command and the device's number of slots. Total: every list of words gives
a command or a named reason. -/
def decode (nctx : Nat) : List CmdWord → Except Reject Instr
  | [] => .error .incomplete
  | cw :: ext =>
    if isReservedOp (opField cw) then .error .reservedOpcode
    else if rsvdField cw ≠ 0 then .error .reservedBitsSet
    else if nctx ≤ (ctxField cw).toNat then .error .noSuchSlot
    else decodeOp nctx cw ext

/-- The word that four bytes of a byte bus carry: little-endian (20_memory R55). -/
def wordOfBytes (b0 b1 b2 b3 : Byte) : CmdWord := b3 ++ b2 ++ b1 ++ b0

/-- The bytes that carry a command word on a byte bus, lowest address first (20_memory R55). -/
def bytesOfWord (w : CmdWord) : List Byte :=
  [w.extractLsb' 0 8, w.extractLsb' 8 8, w.extractLsb' 16 8, w.extractLsb' 24 8]

/-- The whole words that a list of bytes carries; up to three bytes at the end that make no whole word are dropped. -/
def wordsOfBytes : List Byte → List CmdWord
  | b0 :: b1 :: b2 :: b3 :: rest => wordOfBytes b0 b1 b2 b3 :: wordsOfBytes rest
  | _ => []

/-- The decoder on the bytes of a byte bus (20_memory R55): the first command they carry. -/
def decodeBytes (nctx : Nat) (bs : List Byte) : Except Reject Instr :=
  match takeCommand (wordsOfBytes bs) with
  | some (ws, _) => decode nctx ws
  | none => .error .incomplete

/-- `OP` of a command (R79). -/
def opOf : Instr → BitVec 4
  | .init _ _ => 0x1
  | .initk _ _ => 0x2
  | .upd1 _ _ => 0x3
  | .upd _ => 0x4
  | .updr _ _ _ => 0x5
  | .dig _ => 0x6
  | .digb _ => 0x7
  | .digr _ _ _ => 0x8
  | .rst _ => 0x9
  | .burn _ => 0xA
  | .len _ => 0xB
  | .copy _ _ => 0xC
  | .alg _ => 0xD

/-- The command word `(OP << 28) | (c << 24) | IMM8`, reserved bits zero (R71, R85). -/
def commandWord (op : BitVec 4) (c : SlotId) (imm : Byte) : CmdWord :=
  (op.setWidth 32 <<< 28) ||| (c.setWidth 32 <<< 24) ||| imm.setWidth 32

/-- A signed operand as an extension word, `x mod 2^32` (R85). -/
def extensionWord (x : Int) : CmdWord := BitVec.ofInt 32 x

/-- The words of a command (R71, R76, R77, R85). -/
def encode (i : Instr) : List CmdWord :=
  match i with
  | .init c nn => [commandWord (opOf i) c nn]
  | .initk c nn => [commandWord (opOf i) c nn]
  | .upd1 c b => [commandWord (opOf i) c b]
  | .upd c => [commandWord (opOf i) c 0]
  | .updr c off len => [commandWord (opOf i) c 0, extensionWord off, extensionWord len]
  | .dig c => [commandWord (opOf i) c 0]
  | .digb c => [commandWord (opOf i) c 0]
  | .digr c off len => [commandWord (opOf i) c 0, extensionWord off, extensionWord len]
  | .rst c => [commandWord (opOf i) c 0]
  | .burn c => [commandWord (opOf i) c 0]
  | .len c => [commandWord (opOf i) c 0]
  | .copy c d => [commandWord (opOf i) c (d.setWidth 8)]
  | .alg c => [commandWord (opOf i) c 0]

/-- Word number `k` of a number whose bit 0 is the least significant bit of the first word. -/
def tableWordAt (w k : Nat) : CmdWord := BitVec.ofNat 32 (w >>> (32 * k))

/-- The command words of the number `w` as the opcode table numbers its bits, `nbits` of them given and the rest zero:
the first word, and the two extension words where its opcode has them (R79). -/
def tableWords (nbits w : Nat) : List CmdWord :=
  let w := w % 2 ^ nbits
  let cw := tableWordAt w 0
  (List.range (commandWords cw)).map (tableWordAt w)

/-- What the decoder reads from a word of the opcode table, on the device's default number of slots. -/
def decodeTableWord (nbits w : Nat) : Option Instr :=
  (decode Config.nctx (tableWords nbits w)).toOption

end Sys2Proof
end

