-- ==== Sys2Proof/Machine/Port.lean ====
section
/-! DEFINITION. The host's side of a step: the words it writes, the source operand it sets, and the external reset
(10_state R35, R36; 30_encoding R70; 70_reset_and_hazards R250 to R256). -/

namespace Sys2Proof.Machine

/-- The commands that read `SRC` (10_state R36). -/
def readsSource : Instr → Bool
  | .init _ _ => false
  | .initk _ _ => true
  | .upd1 _ _ => false
  | .upd _ => true
  | .updr _ _ _ => true
  | .dig _ => false
  | .digb _ => true
  | .digr _ _ _ => true
  | .rst _ => false
  | .burn _ => false
  | .len _ => false
  | .copy _ _ => false
  | .alg _ => false

/-- The port holds the first words of a legal command that reads `SRC`. Whether it is legal does not depend on the
extension words (30_encoding R82), so zeros stand for those not yet written. -/
def State.portReadsSource (s : State) : Bool :=
  match s.port with
  | [] => false
  | cw :: _ =>
    match decode s.nctx [cw, 0, 0] with
    | .ok i => readsSource i
    | .error _ => false

/-- The host's operand is no longer than `SRC_MAX_LEN` (10_state R36). -/
def sourceFits : Option (List Byte) → Bool
  | none => true
  | some D => decide (D.length ≤ Config.srcMaxLen)

/-- Reset of the device from outside (70_reset_and_hazards R250, 10_state R39): no slot is live or poisoned and their
other fields are unspecified, the result registers are zero, `SRC` is absent, and a command not yet complete is
abandoned. The parameters stay, and so does the rest of the host's list (log 5). -/
def State.deviceReset (s : State) : State :=
  { s with
    bank := { s.bank with
      slots := (List.range s.nctx).map fun i => Slot.unspecified s.variant false false (s.freeDraws + i) }
    status := 0
    resValue := 0
    resDlen := 0
    resData := Vector.replicate _ 0
    src := none
    port := []
    freeDraws := s.freeDraws + s.nctx }

/-- The host sets `SRC` (30_encoding R85). To change it inside a command that reads it is outside the spec, and the run
is refused (70_reset_and_hazards R253, R256; log 6). -/
def State.setSource (s : State) (bytes : Option (List Byte)) : Host.Outcome State Fault Refusal :=
  if s.portReadsSource && decide (bytes ≠ s.src) then .refused .sourceChangedDuringCommand
  else if sourceFits bytes then .next { s with src := bytes }
  else .refused .sourceTooLong

/-- One step of the host while the port holds no complete command: its next action, or, when it has none, the engine
waits (70_reset_and_hazards R251, R259). -/
def State.hostStep (s : State) : Host.Outcome State Fault Refusal :=
  match s.host with
  | [] => .next s
  | .word w :: rest => .next { s with port := s.port ++ [w], host := rest }
  | .source bytes :: rest => State.setSource { s with host := rest } bytes
  | .deviceReset :: rest => .next (State.deviceReset { s with host := rest })

end Sys2Proof.Machine
end

