-- ==== Sys2Proof/Machine/Step.lean ====
section
/-! DEFINITION. One step of the machine (30_encoding R70, 20_memory R58): a command whose words have all been written is
executed whole; while there is none, the host acts. -/

namespace Sys2Proof.Machine

/-- A command's words are decoded and executed; words that select no legal command complete with `ILLEGAL_COMMAND`
(30_encoding R80, R82; 60_exceptions R221). -/
def runCommand (ws : List CmdWord) (s : State) : Host.Outcome State Fault Refusal :=
  match decode s.nctx ws with
  | .ok i => exec i s
  | .error _ => .next (s.reportError .illegalCommand)

/-- One step. The words of the command are taken from the port before it runs. -/
def step (s : State) : Host.Outcome State Fault Refusal :=
  match takeCommand s.port with
  | some (ws, rest) => runCommand ws { s with port := rest }
  | none => s.hostStep

/-- `s` with the words of the command `w`, numbered as the opcode table numbers its bits, written to the port, so that
the next step executes it. -/
def State.withFetchWord (s : State) (nbits w : Nat) : State := { s with port := tableWords nbits w }

end Sys2Proof.Machine
end

