-- ==== Sys2Proof/Safety.lean ====
section
/-! DEFINITION. The terms in which claims are stated: what the host observes (10_state R40), when a slot is ready for a
command, what a command leaves unchanged, and the invariant of the device (10_state R30, R31). -/

namespace Sys2Proof.Machine

variable {v : Variant}

/-! ### What the host observes -/

/-- The four result registers, all that the host can read (10_state R34, R40). -/
structure Observation where
  status : BitVec 8
  value : BitVec 32
  dlen : BitVec 8
  data : Vector Byte Config.resMax
deriving DecidableEq, Repr

/-- What the host reads in a state. -/
def State.observe (s : State) : Observation := ⟨s.status, s.resValue, s.resDlen, s.resData⟩

/-- `RES_DATA` holds `D` from index 0 and zero after it. -/
abbrev DataIs (s : State) (D : List Byte) : Prop :=
  ∀ i : Fin Config.resMax, s.resData[i] = D[i.val]?.getD 0

/-- The result registers hold this status, this value, and these bytes with this length. -/
abbrev ResultsAre (s : State) (code : Status) (value : BitVec 32) (dlen : BitVec 8) (D : List Byte) : Prop :=
  s.status = code.code ∧ s.resValue = value ∧ s.resDlen = dlen ∧ DataIs s D

/-- The command completed and returned nothing. -/
abbrev CompletedOk (s : State) : Prop := ResultsAre s .ok 0 0 []

/-- The command ended with this error, and every other result register is zero (60_exceptions R232). -/
abbrev EndedWith (s : State) (e : Status) : Prop := ResultsAre s e 0 0 []

/-! ### Slots -/

/-- Slot `c` of the device holds `x`. -/
abbrev SlotIs (s : State) (c : SlotId) (x : Slot s.variant) : Prop := s.bank.slots[c.toNat]? = some x

/-- Slot `c` holds `x`, which passes the entry checks: live and not poisoned (60_exceptions R226 step 2). -/
abbrev Ready (s : State) (c : SlotId) (x : Slot s.variant) : Prop :=
  SlotIs s c x ∧ x.live = true ∧ x.poison = false

/-- The logical byte counter `T1 * 2^W + T0` (10_state R27). -/
def Slot.counter (x : Slot v) : Nat := x.t1.toNat * 2 ^ v.wordBits + x.t0.toNat

/-- Room for `n` more bytes before the counter guard can trip: the guard is off, or the counter, the buffered bytes and
`n` stay below `2^(2W)` (43_compression R171, R173). -/
abbrev Headroom (guard : Bool) (x : Slot v) (n : Nat) : Prop :=
  guard = false ∨ x.counter + x.filled.val + n < 2 ^ (2 * v.wordBits)

/-- Room for an update by `n` bytes: the guard is off, or there is nothing to absorb (41_update R130), or the counter, the
buffered bytes and `n` reach `2^(2W)` at most. An update that fills the last block leaves it in `BUF`, not compressed
(R131), so the sum may be `2^(2W)` itself. -/
abbrev UpdateHeadroom (guard : Bool) (x : Slot v) (n : Nat) : Prop :=
  guard = false ∨ n = 0 ∨ x.counter + x.filled.val + n ≤ 2 ^ (2 * v.wordBits)

/-! ### What stays -/

/-- Everything but the slots, the result registers and the model's own draw counter is as before: the parameters, `SRC`,
the port and the host's list. -/
abbrev DeviceKept (s t : State) : Prop :=
  t.variant = s.variant ∧ t.nctx = s.nctx ∧ t.wideGuard = s.wideGuard ∧ t.src = s.src ∧ t.port = s.port ∧ t.host = s.host

/-- Every slot but `c` is as before, and so is all of `DeviceKept`. -/
def OthersKept (s t : State) (c : SlotId) : Prop :=
  DeviceKept s t ∧ ∀ d : SlotId, d ≠ c → t.slot? d = s.slot? d

/-- Slot `c` holds `y` afterwards, and nothing but it and the result registers has changed. -/
def OnlySlotBecomes (s t : State) (c : SlotId) (y : Slot s.variant) : Prop :=
  t.slot? c = some ⟨s.variant, y⟩ ∧ OthersKept s t c ∧ t.freeDraws = s.freeDraws

/-- Nothing but the result registers has changed. -/
def SlotsKept (s t : State) : Prop :=
  (∀ d : SlotId, t.slot? d = s.slot? d) ∧ DeviceKept s t ∧ t.freeDraws = s.freeDraws

/-! ### The invariant -/

/-- A usable slot: 10_state R30, and the counter's low word is a multiple of the block size (R31). -/
abbrev Slot.Usable (x : Slot v) : Prop :=
  (1 ≤ x.nn.toNat ∧ x.nn.toNat ≤ v.maxDigest) ∧ x.kk.toNat ≤ v.maxKey ∧
  (∀ i : Fin v.blockBytes, x.filled.val ≤ i.val → x.buf[i] = 0) ∧
  (∀ i : Fin v.maxKey, x.kk.toNat ≤ i.val → x.key[i] = 0) ∧
  x.t0.toNat % v.blockBytes = 0

/-- A slot is sound if it is usable whenever it is live and not poisoned, and poisoned only when it is live. -/
abbrev Slot.Sound (x : Slot v) : Prop :=
  (x.live = true → x.poison = false → x.Usable) ∧ (x.poison = true → x.live = true)

/-- The port holds the words of at most one command (30_encoding R70, R79). -/
def portSound : List CmdWord → Bool
  | [] => true
  | cw :: rest => decide (rest.length + 1 ≤ commandWords cw)

/-- The invariant of the device. -/
abbrev State.Sound (s : State) : Prop :=
  (2 ≤ s.nctx ∧ s.nctx ≤ 16) ∧
  (∀ x ∈ s.bank.slots, x.Sound) ∧
  sourceFits s.src = true ∧
  s.status.toNat ≤ 6 ∧
  s.resDlen.toNat ≤ Config.resMax ∧
  (∀ i : Fin Config.resMax, s.resDlen.toNat ≤ i.val → s.resData[i] = 0) ∧
  portSound s.port = true

end Sys2Proof.Machine
end

