-- ==== Sys2Proof/Certificates/Slice0/Obligations.lean ====
section
/-! DEFINITION. The statements for the provers, and before them the terms they use that are written from the spec anew
rather than taken from the machine: which words are illegal (30_encoding R80), which status a command must report
(60_exceptions R226), and the BLAKE2 function itself (42_digest R157). -/

namespace Sys2Proof.Claims

open Sys2Proof.Machine

/-! ### Commands by kind -/

/-- The slot a command acts on; for `COPY` its source (30_encoding R73). -/
def slotOf : Instr → SlotId
  | .init c _ => c
  | .initk c _ => c
  | .upd1 c _ => c
  | .upd c => c
  | .updr c _ _ => c
  | .dig c => c
  | .digb c => c
  | .digr c _ _ => c
  | .rst c => c
  | .burn c => c
  | .len c => c
  | .copy c _ => c
  | .alg c => c

/-- The slot a command may write; for `COPY` its destination (20_memory R60). -/
def writtenSlot : Instr → SlotId
  | .copy _ d => d
  | i => slotOf i

/-- `INIT` and `INITK`. -/
def constructs : Instr → Bool
  | .init _ _ => true
  | .initk _ _ => true
  | _ => false

/-- `DIG`, `DIGB` and `DIGR`. -/
def digests : Instr → Bool
  | .dig _ => true
  | .digb _ => true
  | .digr _ _ _ => true
  | _ => false

/-- The commands in which a compression can run (60_exceptions R225). -/
def mayCompress : Instr → Bool
  | .upd1 _ _ => true
  | .upd _ => true
  | .updr _ _ _ => true
  | i => digests i

/-! ### Illegal words (30_encoding R80) -/

/-- The opcodes that take an immediate: `INIT`, `INITK`, `UPD1`, `COPY` (R76). -/
def takesImmediate (op : Nat) : Prop := op = 0x1 ∨ op = 0x2 ∨ op = 0x3 ∨ op = 0xC

/-- R80, over the numbers in the fields of R71. -/
def IllegalWord (nctx : Nat) (cw : CmdWord) : Prop :=
  let op := cw.toNat / 2 ^ 28
  let ctx := cw.toNat / 2 ^ 24 % 16
  let rsvd := cw.toNat / 2 ^ 8 % 2 ^ 16
  let imm := cw.toNat % 2 ^ 8
  (op = 0x0 ∨ op = 0xE ∨ op = 0xF) ∨ rsvd ≠ 0 ∨ nctx ≤ ctx ∨ (¬ takesImmediate op ∧ imm ≠ 0) ∨
    (op = 0xC ∧ (imm / 16 ≠ 0 ∨ nctx ≤ imm % 16))

/-! ### The order of the checks (60_exceptions R226) -/

/-- Step 3: the argument checks, in the order of the command's rule. -/
def argumentError (i : Instr) (s : State) : Option Status :=
  match i, s.src with
  | .init _ nn, _ => if 1 ≤ nn.toNat ∧ nn.toNat ≤ s.variant.maxDigest then none else some .invalidArgument
  | .initk _ _, none => some .nullInput
  | .initk _ nn, some K =>
    if 1 ≤ nn.toNat ∧ nn.toNat ≤ s.variant.maxDigest ∧ K.length ≤ s.variant.maxKey then none
    else some .invalidArgument
  | .upd _, none => some .nullInput
  | .digb _, none => some .nullInput
  | .updr _ _ _, none => some .nullInput
  | .digr _ _ _, none => some .nullInput
  | .updr _ off len, some D => if off < 0 ∨ len < 0 ∨ off + len > (D.length : Int) then some .outOfRange else none
  | .digr _ off len, some D => if off < 0 ∨ len < 0 ∨ off + len > (D.length : Int) then some .outOfRange else none
  | _, _ => none

/-- Steps 2 and 3, for a command on a slot that holds `x`: the status of the first check that fails. -/
def firstError (i : Instr) (s : State) (x : Slot s.variant) : Option Status :=
  if constructs i then argumentError i s
  else if x.live = false then some .noInstance
  else if x.poison = true then some .illegalState
  else argumentError i s

/-! ### The BLAKE2 function (42_digest R157) -/

/-- The bytes that are hashed: the key padded to a block, if there is one, then the message. -/
def stream (v : Variant) (key msg : List Byte) : List Byte :=
  (if key = [] then [] else key ++ List.replicate (v.blockBytes - key.length) 0) ++ msg

/-- Block number `i` of a stream, zero-padded. -/
def block (v : Variant) (S : List Byte) (i : Nat) : Vector Byte v.blockBytes :=
  Vector.ofFn fun j => S[v.blockBytes * i + j.val]?.getD 0

/-- One block compressed at byte offset `n` (the logical counter, low and high word). -/
def chain (v : Variant) (h : Vector (Word v) 8) (n : Nat) (final : Bool) (b : Vector Byte v.blockBytes) :
    Vector (Word v) 8 :=
  compressWords h (BitVec.ofNat _ n) (BitVec.ofNat _ (n / 2 ^ v.wordBits)) final (messageWords b)

/-- The number of blocks of a stream: an empty stream is one zero block. -/
def blockCount (v : Variant) (S : List Byte) : Nat := max 1 ((S.length + v.blockBytes - 1) / v.blockBytes)

/-- The initial chaining value (40_lifecycle R102, R103). -/
def initialH (v : Variant) (nn : Byte) (keyLen : Nat) : Vector (Word v) 8 :=
  (iv v).set 0 ((iv v)[0] ^^^ BitVec.ofNat v.wordBits (0x01010000 + keyLen * 2 ^ 8 + nn.toNat))

/-- `BLAKE2(NN, K, m)`: each block but the last at its end offset, the last at the stream's length with the
finalization flag; then the first `NN` bytes of the chaining value. -/
def blake2 (v : Variant) (nn : Byte) (key msg : List Byte) : List Byte :=
  let S := stream v key msg
  let n := blockCount v S
  let h := (List.range (n - 1)).foldl
    (fun h i => chain v h (v.blockBytes * (i + 1)) false (block v S i)) (initialH v nn key.length)
  let h := chain v h S.length true (block v S (n - 1))
  (h.toList.flatMap (leEncode v)).take nn.toNat

/-! ### The compression written anew (43_compression R170 to R181) -/

/-- `IV[i]` of R170: the 64-bit words, or their high halves. -/
def ivWord (v : Variant) (i : Nat) : Word v :=
  BitVec.ofNat _ (([0x6A09E667F3BCC908, 0xBB67AE8584CAA73B, 0x3C6EF372FE94F82B, 0xA54FF53A5F1D36F1,
    0x510E527FADE682D1, 0x9B05688C2B3E6C1F, 0x1F83D9ABFB41BD6B, 0x5BE0CD19137E2179].getD i 0) / 2 ^ (64 - v.wordBits))

/-- `SIGMA[r][j]` of R175: each row is written as one hexadecimal number, its digits `s[0]` to `s[15]` from the left. -/
def scheduleEntry (r j : Nat) : Nat :=
  ([0x0123456789ABCDEF, 0xEA489FD61C02B753, 0xB8C052FDAE367194, 0x7931DCBE265A40F8, 0x905724AFE1BC683D,
    0x2C6A0B834D75FE19, 0xC51FED4A0763928B, 0xDB7EC13950F4862A, 0x6FE9B308C2D714A5,
    0xA2847615FB9E3CD0].getD (r % 10) 0) / 16 ^ (15 - j) % 16

/-- The index sets of the eight applications of `G` in a round, in order: columns, then diagonals (R178). -/
def mixCalls : List (Fin 16 × Fin 16 × Fin 16 × Fin 16) :=
  [(0, 4, 8, 12), (1, 5, 9, 13), (2, 6, 10, 14), (3, 7, 11, 15),
   (0, 5, 10, 15), (1, 6, 11, 12), (2, 7, 8, 13), (3, 4, 9, 14)]

/-- `G` of R176 on four distinct indices: the values of its eight lines, each from the lines before it, then the four words
written. -/
def quarterRound (v : Variant) (V : Vector (Word v) 16) (a b c d : Fin 16) (x y : Word v) : Vector (Word v) 16 :=
  let r : Nat × Nat × Nat × Nat := match v with
    | .b64 => (32, 24, 16, 63)
    | .s32 => (16, 12, 8, 7)
  let a1 := V[a] + V[b] + x
  let d1 := (V[d] ^^^ a1).rotateRight r.1
  let c1 := V[c] + d1
  let b1 := (V[b] ^^^ c1).rotateRight r.2.1
  let a2 := a1 + b1 + y
  let d2 := (d1 ^^^ a2).rotateRight r.2.2.1
  let c2 := c1 + d2
  let b2 := (b1 ^^^ c2).rotateRight r.2.2.2
  Vector.ofFn fun j => if j = a then a2 else if j = b then b2 else if j = c then c2 else if j = d then d2 else V[j]

/-- Round `r` (R178): application number `j` takes the message words that entries `2j` and `2j+1` of the row select. -/
def roundWords (v : Variant) (M : Nat → Word v) (V : Vector (Word v) 16) (r : Nat) : Vector (Word v) 16 :=
  mixCalls.zipIdx.foldl
    (fun V call =>
      let ((a, b, c, d), j) := call
      quarterRound v V a b c d (M (scheduleEntry r (2 * j))) (M (scheduleEntry r (2 * j + 1)))) V

/-- The working vector before the rounds (R174). -/
def startWords (v : Variant) (h : Vector (Word v) 8) (t0 t1 : Word v) (final : Bool) : Vector (Word v) 16 :=
  Vector.ofFn fun i =>
    if hi : i.val < 8 then h[i.val]
    else ivWord v (i.val - 8) ^^^
      (if i = 12 then t0 else if i = 13 then t1 else if i = 14 ∧ final = true then BitVec.allOnes _ else 0)

/-- The working vector after the rounds, 12 or 10 of them (R180, 00_scope R2). -/
def finalWords (v : Variant) (h : Vector (Word v) 8) (t0 t1 : Word v) (final : Bool) (M : Nat → Word v) :
    Vector (Word v) 16 :=
  let R : Nat := match v with
    | .b64 => 12
    | .s32 => 10
  (List.range R).foldl (roundWords v M) (startWords v h t0 t1 final)

/-! ### Other terms -/

/-- Command `i` on slot `c` ends as the counter guard ends it: `ILLEGAL_STATE`, zero results, the slot poisoned (60_exceptions
R229) and still live (the model's deduction, log 4), nothing else changed. -/
def GuardTrips (s : State) (c : SlotId) (i : Instr) : Prop :=
  ∃ (t : State) (y : Slot s.variant), exec i s = .next t ∧ EndedWith t .illegalState ∧ OthersKept s t c ∧
    t.slot? c = some ⟨s.variant, y⟩ ∧ y.live = true ∧ y.poison = true

/-- The number of compressions R136 gives for `L` bytes: `max(0, ceil(L / BB) - 1)`. -/
def lazyBlocks (v : Variant) (L : Nat) : Nat := (L + v.blockBytes - 1) / v.blockBytes - 1

/-- Two slots that the host cannot tell apart without a digest: the same flags and digest length (10_state R40). -/
def PublicEq {v : Variant} (x y : Slot v) : Prop := x.live = y.live ∧ x.poison = y.poison ∧ x.nn = y.nn

/-- `s` on a device with these slots. -/
def withBank (s : State) (v : Variant) (xs : List (Slot v)) : State := { s with bank := ⟨v, xs⟩ }

/-- The bytes of a chaining value, word by word, each least significant byte first (42_digest R151). -/
def digestBytes {v : Variant} (h : Vector (Word v) 8) : List Byte :=
  h.toList.flatMap fun w => (List.range v.wordBytes).map fun k => w.extractLsb' (8 * k) 8

end Sys2Proof.Claims

open Sys2Proof Sys2Proof.Machine Sys2Proof.Claims

/-! ## Encoding and decoding -/

/-- 30_encoding R71, R76, R77, R82, R85: decoding the encoding of any command that the encoding can express gives the
command back, with every operand at every value. -/
def Obligations.DecodeInvertsEncode : Prop :=
  ∀ (nctx : Nat) (i : Instr), wellFormed nctx i = true → decode nctx (encode i) = .ok i

/-- 30_encoding R79, R82: each legal command has one encoding, the words it was decoded from, and what is decoded is
well-formed. -/
def Obligations.EncodeInvertsDecode : Prop :=
  ∀ (nctx : Nat) (cw : CmdWord) (ext : List CmdWord) (i : Instr), ext.length + 1 = commandWords cw →
    decode nctx (cw :: ext) = .ok i → encode i = cw :: ext ∧ wellFormed nctx i = true

/-- Words of the spec's own examples decode to the commands they stand for: those of 40_lifecycle R100 and R106, 41_update
R132 and R134, 42_digest R154, and, for `INITK` and `BURN`, of 95_test_vectors P2. (The word that R101's example gives
for `INITK 1, 64` is another and contradicts R71: log 18.) -/
def Obligations.SpecExampleWordsDecode : Prop :=
  decode 4 [0x10000040#32] = .ok (.init 0 64) ∧
  decode 4 [0x21000040#32] = .ok (.initk 1 64) ∧
  decode 4 [0x30000061#32] = .ok (.upd1 0 0x61) ∧
  decode 4 [0x50000000#32, 0xFFFFFFFF#32, 0x00000002#32] = .ok (.updr 0 (-1) 2) ∧
  decode 4 [0x80000000#32, 0x00000001#32, 0x00000003#32] = .ok (.digr 0 1 3) ∧
  decode 4 [0xA1000000#32] = .ok (.burn 1) ∧
  decode 4 [0xC0000001#32] = .ok (.copy 0 1)

/-- 30_encoding R80, 60_exceptions R221: the illegal words are exactly those of R80, the all-zero word among them; a
command of an illegal word, written whole, changes no slot and completes with `ILLEGAL_COMMAND` and nothing else. -/
def Obligations.IllegalWordsAreReported : Prop :=
  (∀ (nctx : Nat) (cw : CmdWord) (ext : List CmdWord), ext.length + 1 = commandWords cw →
    ((∃ e, decode nctx (cw :: ext) = .error e) ↔ IllegalWord nctx cw)) ∧
  (∀ nctx : Nat, IllegalWord nctx 0#32) ∧
  (∀ (s : State) (cw : CmdWord) (ext rest : List CmdWord), ext.length + 1 = commandWords cw →
    s.port = cw :: (ext ++ rest) → IllegalWord s.nctx cw →
    ∃ t, step s = .next t ∧ EndedWith t .illegalCommand ∧ SlotsKept { s with port := rest } t)

/-! ## The step -/

/-- 30_encoding R70, 20_memory R58: when the words at the head of the port are the encoding of a well-formed command, one
step takes exactly those words from the port and executes the command whole. -/
def Obligations.StepRunsDecodedCommand : Prop :=
  (∀ (s : State) (ws rest : List CmdWord) (i : Instr), takeCommand s.port = some (ws, rest) →
    decode s.nctx ws = .ok i → step s = exec i { s with port := rest }) ∧
  (∀ (s : State) (rest : List CmdWord) (i : Instr), wellFormed s.nctx i = true → s.port = encode i ++ rest →
    step s = exec i { s with port := rest })

/-- 30_encoding R70, R79: a host that writes the words of a command one after the other, to a port that holds none, gets
the command executed, once, after its last word. (That each word written is one step and the execution another is the
model's choice, log 13.) -/
def Obligations.HostWordsRunAsCommand : Prop :=
  ∀ (s : State) (i : Instr) (rest : List HostAction), wellFormed s.nctx i = true → s.port = [] →
    s.host = (encode i).map .word ++ rest →
    Sys2Proof.core.run ((encode i).length + 1) s = exec i { s with port := [], host := rest }

/-- The model's choice (log 2), from 70_reset_and_hazards R251 and R255: while the port holds no complete command the
engine waits, and the host's next action is taken; with no action left nothing changes. -/
def Obligations.WaitingStepTakesHostWord : Prop :=
  (∀ s : State, takeCommand s.port = none → s.host = [] → step s = .next s) ∧
  (∀ (s : State) (w : CmdWord) (rest : List HostAction), takeCommand s.port = none → s.host = .word w :: rest →
    step s = .next { s with port := s.port ++ [w], host := rest })

/-- 10_state R36, 70_reset_and_hazards R253, R256 (logs 6, 7): between commands the host may set `SRC` to any operand
that fits, and nothing else changes; a longer operand is refused; and so is a change of `SRC` between the words of a
legal `UPDR` or `DIGR`. -/
def Obligations.SourceSetBetweenCommandsOnly : Prop :=
  (∀ (s : State) (b : Option (List Byte)) (rest : List HostAction), s.port = [] → s.host = .source b :: rest →
    (sourceFits b = true → step s = .next { s with src := b, host := rest }) ∧
    (sourceFits b = false → step s = .refused .sourceTooLong)) ∧
  (∀ (s : State) (b : Option (List Byte)) (rest : List HostAction) (i : Instr) (cw x1 x2 : CmdWord)
      (held : List CmdWord), wellFormed s.nctx i = true → encode i = [cw, x1, x2] →
    (held = [cw] ∨ held = [cw, x1]) → s.port = held → s.host = .source b :: rest → b ≠ s.src →
    step s = .refused .sourceChangedDuringCommand)

/-- 70_reset_and_hazards R250, 10_state R39: an external reset leaves no slot live or poisoned, zero result registers and
`SRC` absent, and a command not yet complete is abandoned. The model's choice (log 5), since R259 does not say what
follows a reset in the middle of a list: the parameters stay, and so does the rest of the host's list. -/
def Obligations.ExternalResetClearsDevice : Prop :=
  ∀ (s : State) (rest : List HostAction), takeCommand s.port = none → s.host = .deviceReset :: rest →
    ∃ t, step s = .next t ∧
      (t.variant = s.variant ∧ t.nctx = s.nctx ∧ t.wideGuard = s.wideGuard) ∧
      (∀ x ∈ t.bank.slots, x.live = false ∧ x.poison = false) ∧
      CompletedOk t ∧ t.src = none ∧ t.port = [] ∧ t.host = rest

/-- 70_reset_and_hazards R250, 10_state R39, 00_scope R5: what the spec gives of the state after power-on. -/
def Obligations.ResetStateIsAsTheSpecSays : Prop :=
  (∀ x ∈ State.reset.bank.slots, x.live = false ∧ x.poison = false) ∧
  CompletedOk State.reset ∧ State.reset.src = none ∧
  State.reset.variant = .b64 ∧ State.reset.nctx = 4 ∧ State.reset.wideGuard = false

/-! ## Construction, reset, burn, copy, length, identity -/

/-- 40_lifecycle R100: `INIT c, nn` on any slot of the device, in any condition, with `1 <= nn <= MAXD`, makes it a live,
unkeyed context of digest length `nn` with an empty buffer and a zero counter; nothing else changes. -/
def Obligations.InitConstructsUnkeyed : Prop :=
  ∀ (s : State) (c : SlotId) (x : Slot s.variant) (nn : Byte), SlotIs s c x →
    1 ≤ nn.toNat → nn.toNat ≤ s.variant.maxDigest →
    ∃ t, exec (.init c nn) s = .next t ∧ CompletedOk t ∧
      OnlySlotBecomes s t c
        { live := true, poison := false, nn := nn, kk := 0, key := Vector.replicate _ 0,
          h := initialH s.variant nn 0, t0 := 0, t1 := 0, buf := Vector.replicate _ 0, filled := 0 }

/-- 40_lifecycle R101: `INITK c, nn` with a present key of at most `MAXK` bytes makes slot `c` a live context that holds
the key, with the buffer primed by the key block when the key is not empty; nothing else changes. -/
def Obligations.InitkConstructsKeyed : Prop :=
  ∀ (s : State) (c : SlotId) (x : Slot s.variant) (nn : Byte) (K : List Byte), SlotIs s c x →
    1 ≤ nn.toNat → nn.toNat ≤ s.variant.maxDigest → s.src = some K → K.length ≤ s.variant.maxKey →
    ∃ t, exec (.initk c nn) s = .next t ∧ CompletedOk t ∧
      OnlySlotBecomes s t c
        { live := true, poison := false, nn := nn, kk := BitVec.ofNat 8 K.length,
          key := Vector.ofFn fun i => K[i.val]?.getD 0
          h := initialH s.variant nn K.length, t0 := 0, t1 := 0
          buf := Vector.ofFn fun i => K[i.val]?.getD 0
          filled := if K = [] then 0 else Fin.last _ }

/-- 60_exceptions R222: `INIT` and `INITK` report `INVALID_ARGUMENT` for a digest length out of range, and `INITK` for a
key longer than `MAXK`, changing no slot; no other command reports it. -/
def Obligations.InvalidArgumentOnlyFromConstruction : Prop :=
  (∀ (s : State) (c : SlotId) (nn : Byte), c.toNat < s.nctx → nn.toNat = 0 ∨ s.variant.maxDigest < nn.toNat →
    ∃ t, exec (.init c nn) s = .next t ∧ EndedWith t .invalidArgument ∧ SlotsKept s t) ∧
  (∀ (s : State) (c : SlotId) (nn : Byte) (K : List Byte), c.toNat < s.nctx → s.src = some K →
    nn.toNat = 0 ∨ s.variant.maxDigest < nn.toNat ∨ s.variant.maxKey < K.length →
    ∃ t, exec (.initk c nn) s = .next t ∧ EndedWith t .invalidArgument ∧ SlotsKept s t) ∧
  (∀ (i : Instr) (s t : State), constructs i = false → exec i s = .next t →
    t.status ≠ Status.invalidArgument.code)

/-- 40_lifecycle R109, an inference of the spec: with `SRC` present and empty `INITK c, nn` does in every state what
`INIT c, nn` does. -/
def Obligations.EmptyKeyConstructsUnkeyed : Prop :=
  ∀ (s : State) (c : SlotId) (nn : Byte), s.src = some [] → exec (.initk c nn) s = exec (.init c nn) s

/-- 40_lifecycle R103, R102: the context reset that `RST` runs, field by field: `NN`, `KK` and `KEY` stay, the counter is
zero, `H` is the IV with the parameter word, and the buffer is empty or holds the key block. -/
def Obligations.RstReinitializesContext : Prop :=
  ∀ (s : State) (c : SlotId) (x : Slot s.variant), Ready s c x →
    ∃ t, exec (.rst c) s = .next t ∧ CompletedOk t ∧
      OnlySlotBecomes s t c
        { x with
          t0 := 0, t1 := 0, h := initialH s.variant x.nn x.kk.toNat
          buf := Vector.ofFn fun i => if i.val < x.kk.toNat then x.key.toList[i.val]?.getD 0 else 0
          filled := if 0 < x.kk.toNat then Fin.last _ else 0 }

/-- 40_lifecycle R105: `BURN c` zeroes the key and the buffer and resets the slot as unkeyed; `NN` is kept. -/
def Obligations.BurnErasesKeyAndBuffer : Prop :=
  ∀ (s : State) (c : SlotId) (x : Slot s.variant), Ready s c x →
    ∃ t, exec (.burn c) s = .next t ∧ CompletedOk t ∧
      OnlySlotBecomes s t c
        { live := true, poison := false, nn := x.nn, kk := 0, key := Vector.replicate _ 0,
          h := initialH s.variant x.nn 0, t0 := 0, t1 := 0, buf := Vector.replicate _ 0, filled := 0 }

/-- 40_lifecycle R110, an inference of the spec: on a ready slot of a legal digest length `nn`, `BURN c` leaves the very
state that `INIT c, nn` leaves, so every later command gives the same. -/
def Obligations.BurnEqualsFreshConstruction : Prop :=
  ∀ (s : State) (c : SlotId) (x : Slot s.variant), Ready s c x → 1 ≤ x.nn.toNat → x.nn.toNat ≤ s.variant.maxDigest →
    exec (.burn c) s = exec (.init c x.nn) s

/-- 40_lifecycle R105, 10_state R25: the state after `BURN c` does not depend on the key, the chaining value, the counter
or the buffer that slot `c` held. -/
def Obligations.BurnLeavesNoTraceOfKey : Prop :=
  ∀ (s : State) (c : SlotId) (x y : Slot s.variant), Ready s c x → PublicEq x y →
    ∃ t, exec (.burn c) s = .next t ∧ exec (.burn c) (s.setSlot c y) = .next t

/-- 40_lifecycle R106: `COPY c, d` gives slot `d` every field of the ready slot `c`, and changes nothing else (nothing at
all where `d = c`). -/
def Obligations.CopyClonesSlot : Prop :=
  ∀ (s : State) (c d : SlotId) (x : Slot s.variant), Ready s c x → d.toNat < s.nctx →
    ∃ t, exec (.copy c d) s = .next t ∧ CompletedOk t ∧ OnlySlotBecomes s t d x ∧ t.slot? c = s.slot? c

/-- 40_lifecycle R107: `LEN c` gives `RES_VALUE = NN` and changes no slot. -/
def Obligations.LenReportsDigestLength : Prop :=
  ∀ (s : State) (c : SlotId) (x : Slot s.variant), Ready s c x →
    ∃ t, exec (.len c) s = .next t ∧ ResultsAre t .ok (BitVec.ofNat 32 x.nn.toNat) 0 [] ∧ SlotsKept s t

/-- 40_lifecycle R108, 00_scope R5: `ALG c` gives the bytes of `ALGORITHM_NAME`, the name of the device's variant, an ASCII
string of at most 64 bytes, and its length, whatever the name is, and changes no slot. -/
def Obligations.AlgReportsName : Prop :=
  (∀ v : Variant, (Config.algorithmName v).length ≤ 64 ∧ ∀ b ∈ Config.algorithmName v, b.toNat < 128) ∧
  ∀ (s : State) (c : SlotId) (x : Slot s.variant), Ready s c x →
    ∃ t, exec (.alg c) s = .next t ∧
      ResultsAre t .ok 0 (BitVec.ofNat 8 (Config.algorithmName s.variant).length) (Config.algorithmName s.variant) ∧
      SlotsKept s t

/-! ## Absorbing input -/

/-- 41_update R132: `UPD1 c, b` writes `b` at the end of the valid bytes, after compressing the buffer if it was full; it
completes wherever the counter guard cannot trip, and nothing but slot `c` changes. -/
def Obligations.Upd1AbsorbsOneByte : Prop :=
  (∀ (s : State) (c : SlotId) (x : Slot s.variant) (b : Byte), Ready s c x → x.filled.val < s.variant.blockBytes →
    ∃ t y, exec (.upd1 c b) s = .next t ∧ CompletedOk t ∧ OnlySlotBecomes s t c y ∧
      y = { x with buf := y.buf, filled := y.filled } ∧ y.filled.val = x.filled.val + 1 ∧
      ∀ i : Fin s.variant.blockBytes, y.buf[i] = if i.val = x.filled.val then b else x.buf[i]) ∧
  (∀ (s : State) (c : SlotId) (x : Slot s.variant) (b : Byte), Ready s c x → x.filled.val = s.variant.blockBytes →
    Headroom s.guard x 0 →
    ∃ t y z, x.compress s.guard false = some z ∧ exec (.upd1 c b) s = .next t ∧ CompletedOk t ∧
      OnlySlotBecomes s t c y ∧ y = { z with buf := y.buf, filled := y.filled } ∧ y.filled.val = 1 ∧
      ∀ i : Fin s.variant.blockBytes, y.buf[i] = if i.val = 0 then b else 0)

/-- 41_update R133: `UPD c` with `SRC` present absorbs all of it into the ready slot `c`; it completes wherever the counter
guard cannot trip (an operand that just fills the last block and an empty one included: R130, R131), and nothing but
slot `c` changes. -/
def Obligations.UpdAbsorbsWholeSource : Prop :=
  ∀ (s : State) (c : SlotId) (x : Slot s.variant) (D : List Byte), Ready s c x → s.src = some D →
    UpdateHeadroom s.guard x D.length →
    ∃ t y, x.absorb s.guard D = some y ∧ exec (.upd c) s = .next t ∧ CompletedOk t ∧ OnlySlotBecomes s t c y

/-- 41_update R134: `UPDR c, off, len` with the window inside `SRC` absorbs `SRC[off:off+len]` into the ready slot `c`; it
completes wherever the counter guard cannot trip (a window that just fills the last block and an empty one included:
R130, R131), and nothing but slot `c` changes. -/
def Obligations.UpdrAbsorbsWindow : Prop :=
  ∀ (s : State) (c : SlotId) (x : Slot s.variant) (D : List Byte) (off len : Nat), Ready s c x → s.src = some D →
    off + len ≤ D.length → UpdateHeadroom s.guard x len →
    ∃ t y, x.absorb s.guard ((D.drop off).take len) = some y ∧ exec (.updr c off len) s = .next t ∧
      CompletedOk t ∧ OnlySlotBecomes s t c y

/-- 41_update R130, R132: each byte enters the buffer exactly once, in order: `Absorb(c, D)` is one `UPD1` step for each
byte of `D` in turn, stopping where the counter guard trips. -/
def Obligations.AbsorbIsByteByByte : Prop :=
  ∀ (v : Variant) (guard : Bool) (D : List Byte) (x : Slot v),
    x.absorb guard D = D.foldlM (fun y b => y.absorbByte guard b) x

/-- 41_update R131, an inference of the spec: after absorbing at least one byte the buffer holds 1 to `BB` bytes, and is
full exactly when the bytes it held and those absorbed make a multiple of `BB`. -/
def Obligations.LazyCompressionFill : Prop :=
  ∀ (v : Variant) (guard : Bool) (D : List Byte) (x y : Slot v), D ≠ [] → x.absorb guard D = some y →
    1 ≤ y.filled.val ∧ y.filled.val ≤ v.blockBytes ∧
    (y.filled.val = v.blockBytes ↔ (x.filled.val + D.length) % v.blockBytes = 0) ∧
    y.filled.val % v.blockBytes = (x.filled.val + D.length) % v.blockBytes

/-- 41_update R135, an inference of the spec: absorbing `A` and then `B` is absorbing `A || B`, for the slot and for two
`UPDR` commands on adjacent windows, each against one on the whole. -/
def Obligations.ChunkingInvariance : Prop :=
  (∀ (v : Variant) (guard : Bool) (A B : List Byte) (x : Slot v),
    x.absorb guard (A ++ B) = (x.absorb guard A).bind fun y => y.absorb guard B) ∧
  (∀ (s t : State) (c : SlotId) (D : List Byte) (off m n : Nat), s.src = some D → off + m + n ≤ D.length →
    exec (.updr c off m) s = .next t → t.status = Status.ok.code →
    exec (.updr c (off + m : Nat) n) t = exec (.updr c off (m + n : Nat)) s)

/-- 41_update R136, an inference of the spec: after absorbing `m` into a slot just reset, with `L` its length (plus `BB` if
the slot is keyed), `T0` counts the bytes of `max(0, ceil(L / BB) - 1)` blocks and `FILLED` the rest. -/
def Obligations.BlockAccounting : Prop :=
  ∀ (v : Variant) (guard : Bool) (m : List Byte) (x y : Slot v) (L : Nat),
    L = m.length + (if x.keyed then v.blockBytes else 0) → v.blockBytes * lazyBlocks v L < 2 ^ v.wordBits →
    x.resetCtx.absorb guard m = some y →
    y.t0.toNat = v.blockBytes * lazyBlocks v L ∧ y.t1 = 0 ∧ y.filled.val = L - v.blockBytes * lazyBlocks v L

/-! ## Finalization -/

/-- 42_digest R150 to R152: `DIG c` compresses the zero-padded buffer of the ready slot `c` as the final block, returns the
first `NN` bytes of the chaining value, and resets the slot; it completes wherever the counter guard cannot trip, and
nothing but slot `c` changes. -/
def Obligations.DigReturnsDigest : Prop :=
  ∀ (s : State) (c : SlotId) (x : Slot s.variant), Ready s c x → Headroom s.guard x 0 →
    ∃ t z, ({ x with buf := Vector.ofFn fun i => if i.val < x.filled.val then x.buf[i] else 0 } : Slot _).compress
        s.guard true = some z ∧
      exec (.dig c) s = .next t ∧ OnlySlotBecomes s t c z.resetCtx ∧
      ResultsAre t .ok 0 x.nn ((digestBytes z.h).take x.nn.toNat)

/-- 42_digest R153, R154: `DIGB c` with `SRC` present, and `DIGR c, off, len` with the window inside it, absorb the operand
and then do what `DIG` does; they complete wherever the counter guard cannot trip, and nothing but slot `c` changes. -/
def Obligations.DigbAndDigrReturnDigest : Prop :=
  (∀ (s : State) (c : SlotId) (x : Slot s.variant) (D : List Byte), Ready s c x → s.src = some D →
    Headroom s.guard x D.length →
    ∃ t y z, x.absorb s.guard D = some y ∧ y.padBuffer.compress s.guard true = some z ∧
      exec (.digb c) s = .next t ∧ OnlySlotBecomes s t c z.resetCtx ∧
      ResultsAre t .ok 0 x.nn ((digestBytes z.h).take x.nn.toNat)) ∧
  (∀ (s : State) (c : SlotId) (x : Slot s.variant) (D : List Byte) (off len : Nat), Ready s c x → s.src = some D →
    off + len ≤ D.length → Headroom s.guard x len →
    ∃ t y z, x.absorb s.guard ((D.drop off).take len) = some y ∧ y.padBuffer.compress s.guard true = some z ∧
      exec (.digr c off len) s = .next t ∧ OnlySlotBecomes s t c z.resetCtx ∧
      ResultsAre t .ok 0 x.nn ((digestBytes z.h).take x.nn.toNat))

/-- 30_encoding R86, an inference of the spec: `UPD c` behaves as `UPDR c, 0, SRC_LEN`; and where `UPD c` (or `UPDR c, off,
len`) succeeds, `DIGB c` (or `DIGR c, off, len`) behaves as it followed by `DIG c`. -/
def Obligations.WholeAndWindowFormsAgree : Prop :=
  (∀ (s : State) (c : SlotId) (D : List Byte), s.src = some D →
    exec (.upd c) s = exec (.updr c 0 D.length) s) ∧
  (∀ (s t : State) (c : SlotId), exec (.upd c) s = .next t → t.status = Status.ok.code →
    exec (.digb c) s = exec (.dig c) t) ∧
  (∀ (s t : State) (c : SlotId) (off len : Int), exec (.updr c off len) s = .next t → t.status = Status.ok.code →
    exec (.digr c off len) s = exec (.dig c) t)

/-- 42_digest R155, an inference of the spec: a digest command that completes with `OK` leaves its slot as `RST` on the slot
it started from would leave it, with `NN`, `KK` and `KEY` kept. -/
def Obligations.DigestAutoResets : Prop :=
  ∀ (s t : State) (i : Instr) (x : Slot s.variant), digests i = true → SlotIs s (slotOf i) x →
    exec i s = .next t → t.status = Status.ok.code →
    t.slot? (slotOf i) = some ⟨s.variant, x.resetCtx⟩ ∧
    ∃ r, exec (.rst (slotOf i)) s = .next r ∧ r.slot? (slotOf i) = t.slot? (slotOf i)

/-- 42_digest R157, R156, inferences of the spec: what the engine computes is the BLAKE2 function of the digest length, the
key and the message. For any split of the message into absorbed chunks, from a slot just constructed, finalization gives
`blake2` of the whole and the constructed slot again; and `DIGB` on such a slot with `SRC` holding the message reports
exactly that digest. -/
def Obligations.DigestIsBlake2 : Prop :=
  (∀ (v : Variant) (guard : Bool) (w : Slot v) (nn : Byte) (key : List Byte) (chunks : List (List Byte)) (y : Slot v)
      (out : List Byte) (z : Slot v), key.length ≤ v.maxKey →
    chunks.foldlM (fun y D => y.absorb guard D) (w.construct nn key) = some y → y.finalize guard = some (out, z) →
    out = blake2 v nn key chunks.flatten ∧ z = w.construct nn key) ∧
  (∀ (s : State) (c : SlotId) (w : Slot s.variant) (nn : Byte) (key m : List Byte), key.length ≤ s.variant.maxKey →
    SlotIs s c (w.construct nn key) → s.src = some m → sourceFits s.src = true →
    ∃ t, exec (.digb c) s = .next t ∧ ResultsAre t .ok 0 nn (blake2 s.variant nn key m) ∧
      OnlySlotBecomes s t c (w.construct nn key))

/-! ## Errors -/

/-- 60_exceptions R226, R231, R223, R224: the first check that fails, in the order of R226, is the one reported, and a
command so refused changes no slot; a command that passes them all completes with `OK`, or with `ILLEGAL_STATE` from
the counter guard inside a compression, its slot poisoned (R229). That the poisoned slot stays live is the model's
deduction (log 4): R23 and R229 call every other field of it unspecified. -/
def Obligations.ChecksInOrder : Prop :=
  (∀ (s : State) (ws : List CmdWord) (e : Reject), decode s.nctx ws = .error e →
    ∃ t, runCommand ws s = .next t ∧ EndedWith t .illegalCommand ∧ SlotsKept s t) ∧
  (∀ (s : State) (i : Instr) (x : Slot s.variant) (e : Status), wellFormed s.nctx i = true →
    SlotIs s (slotOf i) x → firstError i s x = some e →
    ∃ t, exec i s = .next t ∧ EndedWith t e ∧ SlotsKept s t) ∧
  (∀ (s : State) (i : Instr) (x : Slot s.variant), wellFormed s.nctx i = true → SlotIs s (slotOf i) x →
    firstError i s x = none →
    ∃ t, exec i s = .next t ∧
      (t.status = Status.ok.code ∨
        (mayCompress i = true ∧ EndedWith t .illegalState ∧ OthersKept s t (slotOf i) ∧
          ∃ y : Slot s.variant, t.slot? (slotOf i) = some ⟨s.variant, y⟩ ∧ y.live = true ∧ y.poison = true)))

/-- 60_exceptions R227: every command other than `INIT` and `INITK` whose slot (for `COPY` the source slot) has `LIVE = 0`
reports `NO_INSTANCE` and changes no slot. -/
def Obligations.NoInstanceOnUnconstructedSlot : Prop :=
  ∀ (s : State) (i : Instr) (x : Slot s.variant), wellFormed s.nctx i = true → constructs i = false →
    SlotIs s (slotOf i) x → x.live = false →
    ∃ t, exec i s = .next t ∧ EndedWith t .noInstance ∧ SlotsKept s t

/-- 60_exceptions R228: on a poisoned slot (live, as the model keeps it: log 4 and `StepKeepsSound`) every command other than `INIT` and `INITK`
reports `ILLEGAL_STATE` and changes nothing; `INIT` and `INITK` construct a new instance there and clear `POISON`. -/
def Obligations.PoisonedSlotRefused : Prop :=
  (∀ (s : State) (i : Instr) (x : Slot s.variant), wellFormed s.nctx i = true → constructs i = false →
    SlotIs s (slotOf i) x → x.live = true → x.poison = true →
    ∃ t, exec i s = .next t ∧ EndedWith t .illegalState ∧ SlotsKept s t) ∧
  (∀ (s : State) (i : Instr) (x : Slot s.variant), constructs i = true → SlotIs s (slotOf i) x → x.poison = true →
    firstError i s x = none →
    ∃ t y, exec i s = .next t ∧ CompletedOk t ∧ OnlySlotBecomes s t (slotOf i) y ∧ y.live = true ∧ y.poison = false)

/-- 43_compression R171, R173, 60_exceptions R229: where a full buffer would carry out of `T1` and the guard is on, each of
the six commands that compress it stops at that first compression with `ILLEGAL_STATE` and poisons its slot; no other
slot changes. That the poisoned slot stays live is the model's deduction (log 4). A guard that trips in a later
compression is `CounterGuardTripsInAnyBlock`. -/
def Obligations.CounterGuardPoisonsSlot : Prop :=
  ∀ (s : State) (c : SlotId) (x : Slot s.variant) (D : List Byte) (b : Byte) (off len : Nat) (i : Instr), Ready s c x →
    (s.variant = .s32 ∨ s.wideGuard = true) → x.filled.val = s.variant.blockBytes →
    x.t1 = BitVec.allOnes _ → x.t0.toNat + s.variant.blockBytes = 2 ^ s.variant.wordBits →
    s.src = some D → D ≠ [] → 0 < len → off + len ≤ D.length →
    i ∈ [.upd1 c b, .upd c, .updr c off len, .dig c, .digb c, .digr c off len] →
    ∃ t y, exec i s = .next t ∧ EndedWith t .illegalState ∧ OthersKept s t c ∧
      t.slot? c = some ⟨s.variant, y⟩ ∧ y.live = true ∧ y.poison = true

/-- 43_compression R171, 60_exceptions R229, R225: wherever the counter guard trips in the course of a command on a ready
slot, in the first compression, in a later block of the operand or in the final block, that command ends with
`ILLEGAL_STATE` and its slot poisoned; no digest comes out and no other slot changes. (That the poisoned slot stays
live is the model's deduction, log 4.) Where it trips, in bytes, is `CounterGuardTripsExactlyAtLimit`. -/
def Obligations.CounterGuardTripsInAnyBlock : Prop :=
  ∀ (s : State) (c : SlotId) (x : Slot s.variant), Ready s c x →
    (∀ b : Byte, x.absorbByte s.guard b = none → GuardTrips s c (.upd1 c b)) ∧
    (x.finalize s.guard = none → GuardTrips s c (.dig c)) ∧
    ∀ D : List Byte, s.src = some D →
      (x.absorb s.guard D = none → GuardTrips s c (.upd c)) ∧
      (x.absorbFinalize s.guard D = none → GuardTrips s c (.digb c)) ∧
      ∀ off len : Nat, off + len ≤ D.length →
        (x.absorb s.guard ((D.drop off).take len) = none → GuardTrips s c (.updr c off len)) ∧
        (x.absorbFinalize s.guard ((D.drop off).take len) = none → GuardTrips s c (.digr c off len))

/-- 43_compression R171, R173, 41_update R130, R131, 42_digest R150: with the guard on and `T0` a multiple of `BB` (10_state
R31), an update trips it exactly where the counter, the buffered bytes and the new ones exceed `2^(2W)`, and a digest
exactly where they reach it: an update leaves the last full block in `BUF`, a digest compresses it. With the guard off
nothing trips. -/
def Obligations.CounterGuardTripsExactlyAtLimit : Prop :=
  ∀ (v : Variant) (guard : Bool) (x : Slot v), x.t0.toNat % v.blockBytes = 0 →
    let limit := 2 ^ (2 * v.wordBits)
    (∀ b : Byte, x.absorbByte guard b = none ↔ guard = true ∧ limit < x.counter + x.filled.val + 1) ∧
    (∀ D : List Byte, x.absorb guard D = none ↔ guard = true ∧ limit < x.counter + x.filled.val + D.length) ∧
    (x.finalize guard = none ↔ guard = true ∧ limit ≤ x.counter + x.filled.val) ∧
    (∀ D : List Byte, x.absorbFinalize guard D = none ↔
      guard = true ∧ limit ≤ x.counter + x.filled.val + D.length)

/-- 60_exceptions R230: in the 64-bit variant with `WIDE_COUNTER_GUARD = false` there is no counter guard: the counter wraps
modulo `2^128` and no command on a slot that is not poisoned reports `ILLEGAL_STATE`. -/
def Obligations.WideUnguardedNeverFails : Prop :=
  (∀ (s t : State) (i : Instr) (x : Slot s.variant), s.variant = .b64 → s.wideGuard = false → SlotIs s (slotOf i) x →
    x.poison = false → exec i s = .next t → t.status ≠ Status.illegalState.code) ∧
  (∀ (n : Nat) (x : Slot .b64), x.t1 = BitVec.allOnes 64 → 0 < n → x.t0.toNat + n = 2 ^ 64 →
    ∃ y, x.advanceCounter (guardOn .b64 false) n = some y ∧ y.t0 = 0 ∧ y.t1 = 0)

/-! ## Compression -/

/-- 43_compression R171: the counter advance: `T0` grows by `n` modulo `2^W`; where it wraps to zero while bytes were
counted, `T1` grows by one modulo `2^W`, and exactly there, with the guard on and `T1 = 2^W - 1`, the advance raises
`ILLEGAL_STATE` instead. Nothing else changes. The guard is on in the 32-bit variant and as `WIDE_COUNTER_GUARD` says in
the 64-bit one. -/
def Obligations.CounterAdvanceRule : Prop :=
  (∀ s : State, (s.variant = .s32 → s.guard = true) ∧ (s.variant = .b64 → s.guard = s.wideGuard)) ∧
  ∀ (v : Variant) (guard : Bool) (n : Nat) (x : Slot v), n ≤ v.blockBytes →
    let wraps : Prop := (x.t0.toNat + n) % 2 ^ v.wordBits = 0 ∧ 0 < n
    (x.advanceCounter guard n = none ↔ wraps ∧ guard = true ∧ x.t1.toNat = 2 ^ v.wordBits - 1) ∧
    ∀ y, x.advanceCounter guard n = some y →
      y = { x with t0 := y.t0, t1 := y.t1 } ∧ y.t0.toNat = (x.t0.toNat + n) % 2 ^ v.wordBits ∧
      (wraps → y.t1.toNat = (x.t1.toNat + 1) % 2 ^ v.wordBits) ∧ (¬ wraps → y.t1 = x.t1)

/-- 43_compression R172, an inference of the spec: while `T0` is a multiple of the block size, the carry test is the usual
carry out of the addition, and the logical counter advances by exactly `n` modulo `2^(2W)`. -/
def Obligations.CarryIsUsualCarry : Prop :=
  ∀ (v : Variant) (guard : Bool) (n : Nat) (x y : Slot v), n ≤ v.blockBytes → x.t0.toNat % v.blockBytes = 0 →
    (counterCarry (x.t0 + BitVec.ofNat v.wordBits n) n = true ↔ (x.t0 + BitVec.ofNat v.wordBits n).toNat < n) ∧
    (x.advanceCounter guard n = some y → y.counter = (x.counter + n) % 2 ^ (2 * v.wordBits))

/-- 43_compression R174: the initial working vector, word by word. -/
def Obligations.WorkingVectorLayout : Prop :=
  ∀ (v : Variant) (h : Vector (Word v) 8) (t0 t1 : Word v) (f : Bool),
    let V := workingVector h t0 t1 f
    (∀ i : Fin 8, V[i.val] = h[i]) ∧ (∀ i : Fin 4, V[i.val + 8] = (iv v)[i.val]) ∧
    V[12] = (iv v)[4] ^^^ t0 ∧ V[13] = (iv v)[5] ^^^ t1 ∧
    V[14] = (if f then ~~~ (iv v)[6] else (iv v)[6]) ∧ V[15] = (iv v)[7]

/-- 43_compression R176, 00_scope R2, R7: `G` on four distinct indices, each line reading what the lines before it wrote,
with the rotation amounts of the variant; the other twelve words stay. -/
def Obligations.MixGIsQuarterRound : Prop :=
  ∀ (v : Variant) (V : Vector (Word v) 16) (a b c d : Fin 16) (x y : Word v), [a, b, c, d].Nodup →
    let ror (u : Word v) (n : Nat) : Word v := (u >>> n) ||| (u <<< (v.wordBits - n))
    let r : Nat × Nat × Nat × Nat := match v with
      | .b64 => (32, 24, 16, 63)
      | .s32 => (16, 12, 8, 7)
    let a1 := V[a] + V[b] + x
    let d1 := ror (V[d] ^^^ a1) r.1
    let c1 := V[c] + d1
    let b1 := ror (V[b] ^^^ c1) r.2.1
    let a2 := a1 + b1 + y
    let d2 := ror (d1 ^^^ a2) r.2.2.1
    let c2 := c1 + d2
    let b2 := ror (b1 ^^^ c2) r.2.2.2
    let U := mixG V a b c d x y
    U[a] = a2 ∧ U[b] = b2 ∧ U[c] = c2 ∧ U[d] = d2 ∧ ∀ j : Fin 16, j ∉ [a, b, c, d] → U[j] = V[j]

/-- 43_compression R178, an inference of the spec: applications of `G` on disjoint words commute, so the four of one
half-round may be computed in any order. -/
def Obligations.HalfRoundOrderIrrelevant : Prop :=
  ∀ (v : Variant) (V : Vector (Word v) 16) (a b c d a' b' c' d' : Fin 16) (x y x' y' : Word v),
    [a, b, c, d, a', b', c', d'].Nodup →
    mixG (mixG V a b c d x y) a' b' c' d' x' y' = mixG (mixG V a' b' c' d' x' y') a b c d x y

/-- 43_compression R178: a round is eight applications of `G`, in the order and on the index sets of `mixCalls`, number `j`
with the message words that entries `2j` and `2j+1` of the schedule row select. -/
def Obligations.RoundIsColumnsThenDiagonals : Prop :=
  ∀ (v : Variant) (M V : Vector (Word v) 16) (row : ScheduleRow),
    mixRound M V row = (List.finRange 8).foldl
      (fun V j =>
        let (a, b, c, d) := mixCalls[j]
        mixG V a b c d M[row[2 * j.val]] M[row[2 * j.val + 1]]) V

/-- 43_compression R170, R174 to R178, R180, R181, the function written anew: the chaining value that a compression gives is
`H[i] ^ V[i] ^ V[i+8]`, with `V` the working vector after 12 or 10 rounds of columns and diagonals, the IV and the
message schedule those of the rules' tables. -/
def Obligations.CompressionFollowsRulesTables : Prop :=
  ∀ (v : Variant) (h : Vector (Word v) 8) (t0 t1 : Word v) (final : Bool) (M : Vector (Word v) 16) (i : Fin 8),
    let V := finalWords v h t0 t1 final fun j => M.toList.getD j 0
    (compressWords h t0 t1 final M)[i] = h[i] ^^^ V[i.val] ^^^ V[i.val + 8]

/-- 43_compression R180 to R182: a compression advances the counter, runs the rounds `0` to `R-1` on the working vector of the
`H` from before it, folds back `H[i] ^ V[i] ^ V[i+8]`, and leaves the buffer zero and `FILLED = 0`; the other fields
stay. It fails exactly where the counter advance does. -/
def Obligations.CompressFoldsAndClears : Prop :=
  ∀ (v : Variant) (guard final : Bool) (x : Slot v),
    (x.compress guard final = none ↔ x.advanceCounter guard x.filled.val = none) ∧
    ∀ y z, x.compress guard final = some y → x.advanceCounter guard x.filled.val = some z →
      let R : Nat := match v with
        | .b64 => 12
        | .s32 => 10
      let V := (List.range R).foldl (fun V r => mixRound (messageWords x.buf) V sigmaRows[r % 10]!)
        (workingVector x.h z.t0 z.t1 final)
      (∀ i : Fin 8, y.h[i] = x.h[i] ^^^ V[i.val] ^^^ V[i.val + 8]) ∧
      (∀ i : Fin v.blockBytes, y.buf[i] = 0) ∧ y.filled.val = 0 ∧
      y = { x with h := y.h, t0 := z.t0, t1 := z.t1, buf := y.buf, filled := y.filled }

/-! ## The codec -/

/-- 44_codec R200, R201, R202: byte `k` of a word is its bits `8k+7 : 8k`, in decoding and in encoding, and a partial encoding
is the first bytes of the whole one. -/
def Obligations.CodecIsLittleEndian : Prop :=
  (∀ (v : Variant) (D : List Byte) (k : Nat) (b : Byte), D.length = v.wordBytes → D[k]? = some b →
    (leDecode v D).extractLsb' (8 * k) 8 = b) ∧
  (∀ (v : Variant) (x : Word v), (leEncode v x).length = v.wordBytes ∧
    ∀ k < v.wordBytes, (leEncode v x)[k]? = some (x.extractLsb' (8 * k) 8)) ∧
  (∀ (v : Variant) (x : Word v) (r : Nat), r ≤ v.wordBytes → leEncodePart v x r = (leEncode v x).take r)

/-- 44_codec R203, an inference of the spec: encoding and decoding are inverse to each other. -/
def Obligations.CodecRoundTrip : Prop :=
  (∀ (v : Variant) (x : Word v), leDecode v (leEncode v x) = x) ∧
  (∀ (v : Variant) (D : List Byte), D.length = v.wordBytes → leEncode v (leDecode v D) = D)

/-- 20_memory R54, an inference of the spec, from 43_compression R179 and 42_digest R151: message word `j` is made of buffer
bytes `NB*j` on, lowest byte first, and digest byte `NB*i + k` is byte `k` of `H[i]`. -/
def Obligations.BlockAndDigestBytes : Prop :=
  (∀ (v : Variant) (buf : Vector Byte v.blockBytes) (j : Fin 16) (k : Nat), k < v.wordBytes →
    buf.toList[v.wordBytes * j.val + k]? = some ((messageWords buf)[j].extractLsb' (8 * k) 8)) ∧
  (∀ (v : Variant) (x : Slot v) (i : Fin 8) (k : Nat), k < v.wordBytes → v.wordBytes * i.val + k < x.nn.toNat →
    x.extract[v.wordBytes * i.val + k]? = some (x.h[i].extractLsb' (8 * k) 8))

/-! ## Whole-machine rules -/

/-- 20_memory R60: a command writes no slot but its own (`COPY`: its destination); and what it reports and leaves in its slot
depends on no other slot (`COPY`: on its source alone). -/
def Obligations.SlotIndependence : Prop :=
  (∀ (s t : State) (i : Instr), exec i s = .next t → ∀ d : SlotId, d ≠ writtenSlot i → t.slot? d = s.slot? d) ∧
  (∀ (s t u : State) (i : Instr) (v : Variant) (xs ys : List (Slot v)), xs.length = ys.length →
    xs[(slotOf i).toNat]? = ys[(slotOf i).toNat]? →
    exec i (withBank s v xs) = .next t → exec i (withBank s v ys) = .next u →
    t.observe = u.observe ∧ t.slot? (slotOf i) = u.slot? (slotOf i) ∧
    (t.status = Status.ok.code → t.slot? (writtenSlot i) = u.slot? (writtenSlot i)))

/-- 10_state R36, R32, 00_scope R5: no command writes `SRC`, the parameters, the port or the host's list. (That the
parameters are fields of the state is the model's choice, log 1.) -/
def Obligations.ExecKeepsDevice : Prop :=
  ∀ (s t : State) (i : Instr), exec i s = .next t → DeviceKept s t

/-- 10_state R22: `LIVE` is set by `INIT` and `INITK` and by `COPY` into the slot, where they complete with `OK`; no command
clears it, and no other command sets it; device reset clears it. (That a command other than `INIT` and `INITK` is
refused while it is 0 is `NoInstanceOnUnconstructedSlot`.) -/
def Obligations.LiveFlagRule : Prop :=
  (∀ (s t : State) (i : Instr) (d : SlotId) (x : Slot s.variant), SlotIs s d x → exec i s = .next t →
    ∃ y : Slot s.variant, t.slot? d = some ⟨s.variant, y⟩ ∧ (x.live = true → y.live = true) ∧
      (y.live = true → x.live = true ∨
        (d = writtenSlot i ∧ t.status = Status.ok.code ∧ (constructs i = true ∨ ∃ c, i = .copy c d)))) ∧
  (∀ (s t : State) (i : Instr) (x : Slot s.variant), SlotIs s (writtenSlot i) x → exec i s = .next t →
    t.status = Status.ok.code → (constructs i = true ∨ ∃ c d, i = .copy c d) →
    ∃ y : Slot s.variant, t.slot? (writtenSlot i) = some ⟨s.variant, y⟩ ∧ y.live = true ∧ y.poison = false) ∧
  (∀ s : State, ∀ x ∈ s.deviceReset.bank.slots, x.live = false)

/-- 10_state R24, R25, R37: `NN` is written only by construction and by `COPY` into the slot, and `KK` and `KEY` only by these
and by `BURN`, on a slot that the counter guard does not poison (60_exceptions R229 leaves its fields unspecified). -/
def Obligations.DigestLengthAndKeyWriters : Prop :=
  ∀ (s t : State) (i : Instr) (d : SlotId) (x : Slot s.variant), SlotIs s d x → exec i s = .next t →
    constructs i = false → (∀ c, i ≠ .copy c d) →
    ∃ y : Slot s.variant, t.slot? d = some ⟨s.variant, y⟩ ∧
      ((x.poison = false ∧ y.poison = true) ∨
        (y.nn = x.nn ∧ (i ≠ .burn d → y.kk = x.kk ∧ y.key = x.key)))

/-- 60_exceptions R220, R232: every command, legal or not, ends with one of the codes 0 to 6, numbered as R220 numbers them,
and with any but `OK` the other result registers are zero. -/
def Obligations.ErrorsZeroResults : Prop :=
  ([Status.ok, .invalidArgument, .outOfRange, .nullInput, .illegalState, .noInstance, .illegalCommand].map Status.code =
    [0, 1, 2, 3, 4, 5, 6]) ∧
  (∀ (s : State) (ws : List CmdWord), ∃ t, runCommand ws s = .next t ∧ t.status.toNat ≤ 6 ∧
    (t.status ≠ Status.ok.code → t.resValue = 0 ∧ t.resDlen = 0 ∧ ∀ i : Fin Config.resMax, t.resData[i] = 0))

/-- 30_encoding R84: `RES_VALUE` is not zero after `LEN` only, and `RES_DLEN` and `RES_DATA` are not zero after a digest or `ALG`
only, with status `OK`. -/
def Obligations.ResultRegistersByCommand : Prop :=
  ∀ (s t : State) (i : Instr), exec i s = .next t →
    (t.resValue ≠ 0 → t.status = Status.ok.code ∧ ∃ c, i = .len c) ∧
    (t.resDlen ≠ 0 ∨ ¬ DataIs t [] → t.status = Status.ok.code ∧ (digests i = true ∨ ∃ c, i = .alg c))

/-- 10_state R40, R25: the hidden fields reach the host only through digests. On two devices whose slots agree in `LIVE`,
`POISON` and `NN`, every command that is no digest gives the host the same results, unless the counter guard trips. -/
def Obligations.HiddenStateOnlyThroughDigests : Prop :=
  ∀ (s t u : State) (i : Instr) (v : Variant) (xs ys : List (Slot v)), List.Forall₂ PublicEq xs ys →
    digests i = false → exec i (withBank s v xs) = .next t → exec i (withBank s v ys) = .next u →
    (guardOn v s.wideGuard = false ∨
      (t.status ≠ Status.illegalState.code ∧ u.status ≠ Status.illegalState.code)) →
    t.observe = u.observe

/-- Every step keeps the invariant of the device: 10_state R30, R21, R34, R36, 00_scope R5, 60_exceptions R220. Three of its
clauses are not the rules' own words: that a poisoned slot is live is the model's deduction (log 4), that the port
holds the words of at most one command is the model's choice (log 13), and that `T0` is a multiple of `BB` (10_state
R31) is an inference of the spec. -/
def Obligations.StepKeepsSound : Prop :=
  ∀ s t : State, s.Sound → step s = .next t → t.Sound

/-- The invariant holds after reset (10_state R39). -/
def Obligations.ResetIsSound : Prop := State.reset.Sound
end

