-- ==== Sys2Proof/Laws/Decode.lean ====
section
/-! SUPPORT. The fields of an encoded command word, and the framing of words: what a proof needs of the decoder, so that
it need not unfold it. -/

namespace Sys2Proof

section fields
variable (op : BitVec 4) (c : SlotId) (imm : Byte)

@[simp] theorem opField_commandWord : opField (commandWord op c imm) = op := by
  apply BitVec.eq_of_getLsbD_eq
  intro i hi
  simp [opField, commandWord, hi]
  interval_cases i <;> simp

@[simp] theorem ctxField_commandWord : ctxField (commandWord op c imm) = c := by
  apply BitVec.eq_of_getLsbD_eq
  intro i hi
  simp [ctxField, commandWord, hi]
  interval_cases i <;> simp

@[simp] theorem rsvdField_commandWord : rsvdField (commandWord op c imm) = 0 := by
  apply BitVec.eq_of_getLsbD_eq
  intro i hi
  simp [rsvdField, commandWord, hi]
  interval_cases i <;> simp

@[simp] theorem imm8Field_commandWord : imm8Field (commandWord op c imm) = imm := by
  apply BitVec.eq_of_getLsbD_eq
  intro i hi
  simp [imm8Field, commandWord, hi]
  interval_cases i <;> simp

theorem dstField_eq (cw : CmdWord) : dstField cw = (imm8Field cw).extractLsb' 0 4 := by
  apply BitVec.eq_of_getLsbD_eq
  intro i hi
  simp [dstField, imm8Field, hi]

end fields

theorem commandWords_pos (cw : CmdWord) : 1 ≤ commandWords cw := by
  unfold commandWords; split <;> omega

theorem commandWords_le (cw : CmdWord) : commandWords cw ≤ 3 := by
  unfold commandWords; split <;> omega

/-- A command that has been written whole is taken with exactly its own words. -/
theorem takeCommand_whole (cw : CmdWord) (ext rest : List CmdWord) (h : ext.length + 1 = commandWords cw) :
    takeCommand (cw :: (ext ++ rest)) = some (cw :: ext, rest) := by
  have hk : commandWords cw - 1 = ext.length := by omega
  simp [takeCommand, hk]
  omega

/-- All that taking a command can do. -/
theorem takeCommand_cases {ws mine rest : List CmdWord} (h : takeCommand ws = some (mine, rest)) :
    ws = mine ++ rest ∧ ∃ cw ext, mine = cw :: ext ∧ mine.length = commandWords cw := by
  cases ws with
  | nil => simp [takeCommand] at h
  | cons cw tail =>
    have hp := commandWords_pos cw
    simp only [takeCommand] at h
    split at h
    · simp at h
    · simp only [Option.some.injEq, Prod.mk.injEq] at h
      obtain ⟨rfl, rfl⟩ := h
      refine ⟨by simp, cw, _, rfl, ?_⟩
      simp
      omega

/-- No command is taken exactly while the one at the head lacks words. -/
theorem takeCommand_none_iff (ws : List CmdWord) :
    takeCommand ws = none ↔ ∀ cw tail, ws = cw :: tail → ws.length < commandWords cw := by
  cases ws with
  | nil => simp [takeCommand]
  | cons cw tail => simp [takeCommand]

theorem decode_nil (nctx : Nat) : decode nctx [] = .error .incomplete := rfl

/-- Decoding goes on to the opcode map exactly when the common checks pass (30_encoding R82). -/
theorem decode_eq_decodeOp {nctx : Nat} {cw : CmdWord} (ext : List CmdWord)
    (hop : isReservedOp (opField cw) = false) (hrs : rsvdField cw = 0) (hc : (ctxField cw).toNat < nctx) :
    decode nctx (cw :: ext) = decodeOp nctx cw ext := by
  simp [decode, hop, hrs, Nat.not_le.mpr hc]

end Sys2Proof
end

