-- ==== Sys2Proof/Laws/State.lean ====
section
/-! SUPPORT. What each update of the state and of a slot leaves in each field: one lemma per field, true by
definition. -/

namespace Sys2Proof.Machine

/-! ### `State.complete` -/

section complete
variable (s : State) (r : Results)
@[simp] theorem State.complete_bank : (s.complete r).bank = s.bank := rfl
@[simp] theorem State.complete_wideGuard : (s.complete r).wideGuard = s.wideGuard := rfl
@[simp] theorem State.complete_status : (s.complete r).status = r.status.code := rfl
@[simp] theorem State.complete_resValue : (s.complete r).resValue = r.value := rfl
@[simp] theorem State.complete_resDlen : (s.complete r).resDlen = r.dlen := rfl
@[simp] theorem State.complete_resData : (s.complete r).resData = padTo Config.resMax r.data := rfl
@[simp] theorem State.complete_src : (s.complete r).src = s.src := rfl
@[simp] theorem State.complete_port : (s.complete r).port = s.port := rfl
@[simp] theorem State.complete_host : (s.complete r).host = s.host := rfl
@[simp] theorem State.complete_freeDraws : (s.complete r).freeDraws = s.freeDraws := rfl
@[simp] theorem State.complete_guard : (s.complete r).guard = s.guard := rfl
@[simp] theorem State.complete_slot? (c : SlotId) : (s.complete r).slot? c = s.slot? c := rfl
end complete

/-! ### `State.reportError` -/

section reportError
variable (s : State) (e : Status)
@[simp] theorem State.reportError_bank : (s.reportError e).bank = s.bank := rfl
@[simp] theorem State.reportError_wideGuard : (s.reportError e).wideGuard = s.wideGuard := rfl
@[simp] theorem State.reportError_status : (s.reportError e).status = e.code := rfl
@[simp] theorem State.reportError_resValue : (s.reportError e).resValue = 0 := rfl
@[simp] theorem State.reportError_resDlen : (s.reportError e).resDlen = 0 := rfl
@[simp] theorem State.reportError_resData : (s.reportError e).resData = padTo Config.resMax [] := rfl
@[simp] theorem State.reportError_src : (s.reportError e).src = s.src := rfl
@[simp] theorem State.reportError_port : (s.reportError e).port = s.port := rfl
@[simp] theorem State.reportError_host : (s.reportError e).host = s.host := rfl
@[simp] theorem State.reportError_freeDraws : (s.reportError e).freeDraws = s.freeDraws := rfl
@[simp] theorem State.reportError_slot? (c : SlotId) : (s.reportError e).slot? c = s.slot? c := rfl
end reportError

/-! ### `State.setSlot` -/

section setSlot
variable (s : State) (c : SlotId) (x : Slot s.variant)
@[simp] theorem State.setSlot_variant : (s.setSlot c x).bank.variant = s.bank.variant := rfl
@[simp] theorem State.setSlot_slots : (s.setSlot c x).bank.slots = s.bank.slots.set c.toNat x := rfl
@[simp] theorem State.setSlot_wideGuard : (s.setSlot c x).wideGuard = s.wideGuard := rfl
@[simp] theorem State.setSlot_status : (s.setSlot c x).status = s.status := rfl
@[simp] theorem State.setSlot_resValue : (s.setSlot c x).resValue = s.resValue := rfl
@[simp] theorem State.setSlot_resDlen : (s.setSlot c x).resDlen = s.resDlen := rfl
@[simp] theorem State.setSlot_resData : (s.setSlot c x).resData = s.resData := rfl
@[simp] theorem State.setSlot_src : (s.setSlot c x).src = s.src := rfl
@[simp] theorem State.setSlot_port : (s.setSlot c x).port = s.port := rfl
@[simp] theorem State.setSlot_host : (s.setSlot c x).host = s.host := rfl
@[simp] theorem State.setSlot_freeDraws : (s.setSlot c x).freeDraws = s.freeDraws := rfl
@[simp] theorem State.setSlot_guard : (s.setSlot c x).guard = s.guard := rfl
theorem State.setSlot_nctx : (s.setSlot c x).nctx = s.nctx := by simp [State.nctx]
end setSlot

/-! ### `State.poisonSlot` -/

section poisonSlot
variable (s : State) (c : SlotId)
@[simp] theorem State.poisonSlot_bank :
    (s.poisonSlot c).bank = (s.setSlot c (Slot.unspecified s.variant true true s.freeDraws)).bank := rfl
@[simp] theorem State.poisonSlot_wideGuard : (s.poisonSlot c).wideGuard = s.wideGuard := rfl
@[simp] theorem State.poisonSlot_src : (s.poisonSlot c).src = s.src := rfl
@[simp] theorem State.poisonSlot_port : (s.poisonSlot c).port = s.port := rfl
@[simp] theorem State.poisonSlot_host : (s.poisonSlot c).host = s.host := rfl
@[simp] theorem State.poisonSlot_freeDraws : (s.poisonSlot c).freeDraws = s.freeDraws + 1 := rfl
end poisonSlot

/-! ### Slots -/

section slot
variable {v : Variant}
@[simp] theorem Slot.unspecified_live (l p : Bool) (n : Nat) : (Slot.unspecified v l p n).live = l := rfl
@[simp] theorem Slot.unspecified_poison (l p : Bool) (n : Nat) : (Slot.unspecified v l p n).poison = p := rfl
variable (x : Slot v)
@[simp] theorem Slot.resetCtx_live : x.resetCtx.live = x.live := rfl
@[simp] theorem Slot.resetCtx_poison : x.resetCtx.poison = x.poison := rfl
@[simp] theorem Slot.resetCtx_nn : x.resetCtx.nn = x.nn := rfl
@[simp] theorem Slot.resetCtx_kk : x.resetCtx.kk = x.kk := rfl
@[simp] theorem Slot.resetCtx_key : x.resetCtx.key = x.key := rfl
@[simp] theorem Slot.resetCtx_t0 : x.resetCtx.t0 = 0 := rfl
@[simp] theorem Slot.resetCtx_t1 : x.resetCtx.t1 = 0 := rfl
@[simp] theorem Slot.resetCtx_h :
    x.resetCtx.h = (iv v).set 0 ((iv v)[0] ^^^ paramWord v x.nn x.kk) := rfl
@[simp] theorem Slot.resetCtx_buf :
    x.resetCtx.buf =
      if x.keyed then padTo v.blockBytes (x.key.toList.take x.kk.toNat) else Vector.replicate _ 0 := rfl
@[simp] theorem Slot.resetCtx_filled :
    x.resetCtx.filled = if x.keyed then Fin.last v.blockBytes else 0 := rfl
end slot

end Sys2Proof.Machine
end

