-- ==== Sys2Proof/Laws/Ops.lean ====
section
/-! SUPPORT. One lemma per shared operation, saying all it can do: reading a slot after a write, the entry of a command,
the effects, and the context reset. -/

namespace Sys2Proof.Machine

variable {v : Variant}

/-! ### Bytes in registers -/

@[simp] theorem padTo_getElem (n : Nat) (D : List Byte) (i : Nat) (h : i < n) :
    (padTo n D)[i] = D[i]?.getD 0 := by simp [padTo]

theorem padTo_nil (n : Nat) : padTo n [] = Vector.replicate n 0 := by
  ext i hi; simp [padTo]

/-! ### Slots -/

theorem State.slot?_eq {s : State} {c : SlotId} {x : Slot s.variant} (h : SlotIs s c x) :
    s.slot? c = some ⟨s.variant, x⟩ := by simp [State.slot?, h]

/-- Reading a slot after a write, over the list of slots: the variant is the one before the write. -/
theorem State.slot?_setSlot (s : State) (c d : SlotId) (x : Slot s.variant) :
    (s.setSlot c x).slot? d = (s.bank.slots.set c.toNat x)[d.toNat]?.map fun y => ⟨s.variant, y⟩ := rfl

theorem State.slot?_setSlot_self {s : State} {c : SlotId} (x : Slot s.variant) (h : c.toNat < s.nctx) :
    (s.setSlot c x).slot? c = some ⟨s.variant, x⟩ := by
  rw [State.slot?_setSlot, List.getElem?_set_self h]
  rfl

theorem State.slot?_setSlot_ne {s : State} {c d : SlotId} (x : Slot s.variant) (h : d ≠ c) :
    (s.setSlot c x).slot? d = s.slot? d := by
  have hn : c.toNat ≠ d.toNat := fun e => h (BitVec.eq_of_toNat_eq e.symm)
  rw [State.slot?_setSlot, List.getElem?_set_ne hn]
  rfl

theorem SlotIs.lt {s : State} {c : SlotId} {x : Slot s.variant} (h : SlotIs s c x) : c.toNat < s.nctx := by
  obtain ⟨hlt, -⟩ := List.getElem?_eq_some_iff.mp h
  exact hlt

theorem State.setSlot_setSlot (s : State) (c : SlotId) (x y : Slot s.variant) :
    (s.setSlot c x).setSlot c y = s.setSlot c y := by
  simp [State.setSlot]

/-- A slot written with what it held is no change. -/
theorem State.setSlot_same {s : State} {c : SlotId} {x : Slot s.variant} (h : SlotIs s c x) : s.setSlot c x = s := by
  have : s.bank.slots.set c.toNat x = s.bank.slots := by
    apply List.ext_getElem?
    intro n
    rw [List.getElem?_set]
    split
    · next e =>
      subst e
      rw [h]
      simp [SlotIs.lt h]
    · rfl
  simp [State.setSlot, this]

theorem onlySlotBecomes_write {s : State} {c : SlotId} (y : Slot s.variant) (r : Results) (h : c.toNat < s.nctx) :
    OnlySlotBecomes s ((s.setSlot c y).complete r) c y :=
  ⟨by simpa using State.slot?_setSlot_self y h,
   ⟨⟨rfl, by simp [State.nctx], rfl, rfl, rfl, rfl⟩, fun _ hd => State.slot?_setSlot_ne y hd⟩, rfl⟩

/-- All that a tripped counter guard does (60_exceptions R229): the command ends with `ILLEGAL_STATE`, its slot is poisoned,
and nothing else changes but the count of free values drawn. -/
theorem othersKept_poisonSlot {s : State} {c : SlotId} (h : c.toNat < s.nctx) :
    ((s.poisonSlot c).reportError .illegalState).slot? c =
        some ⟨s.variant, Slot.unspecified s.variant true true s.freeDraws⟩ ∧
      OthersKept s ((s.poisonSlot c).reportError .illegalState) c :=
  have H := onlySlotBecomes_write (Slot.unspecified s.variant true true s.freeDraws) (errorResults .illegalState) h
  ⟨H.1, H.2.1⟩

theorem slotsKept_complete (s : State) (r : Results) : SlotsKept s (s.complete r) :=
  ⟨fun _ => rfl, ⟨rfl, rfl, rfl, rfl, rfl, rfl⟩, rfl⟩

theorem slotsKept_reportError (s : State) (e : Status) : SlotsKept s (s.reportError e) := slotsKept_complete s _

theorem resultsAre_complete (s : State) (r : Results) : ResultsAre (s.complete r) r.status r.value r.dlen r.data :=
  ⟨rfl, rfl, rfl, fun i => by simp⟩

theorem endedWith_reportError (s : State) (e : Status) : EndedWith (s.reportError e) e := resultsAre_complete s _

/-! ### The entry of a command -/

theorem Slot.entryCheck_none_iff (x : Slot v) : x.entryCheck = none ↔ x.live = true ∧ x.poison = false := by
  unfold Slot.entryCheck; cases x.live <;> cases x.poison <;> simp

theorem Slot.entryCheck_not_live {x : Slot v} (h : x.live = false) : x.entryCheck = some .noInstance := by
  simp [Slot.entryCheck, h]

theorem Slot.entryCheck_poisoned {x : Slot v} (h : x.live = true) (hp : x.poison = true) :
    x.entryCheck = some .illegalState := by
  simp [Slot.entryCheck, h, hp]

theorem State.withSlot_some {s : State} {c : SlotId} {x : Slot s.variant} (h : SlotIs s c x)
    (k : Slot s.variant → State) : s.withSlot c k = .next (k x) := by
  simp [State.withSlot, h]

theorem State.withSlot_none {s : State} {c : SlotId} (h : s.nctx ≤ c.toNat) (k : Slot s.variant → State) :
    s.withSlot c k = .next (s.reportError .illegalCommand) := by
  simp [State.withSlot, List.getElem?_eq_none h]

theorem State.withReadySlot_ready {s : State} {c : SlotId} {x : Slot s.variant} (h : Ready s c x)
    (k : Slot s.variant → State) : s.withReadySlot c k = .next (k x) := by
  obtain ⟨hx, hr⟩ := h
  simp [State.withReadySlot, State.withSlot_some hx, x.entryCheck_none_iff.mpr hr]

theorem State.withReadySlot_not_live {s : State} {c : SlotId} {x : Slot s.variant} (h : SlotIs s c x)
    (hl : x.live = false) (k : Slot s.variant → State) :
    s.withReadySlot c k = .next (s.reportError .noInstance) := by
  simp [State.withReadySlot, State.withSlot_some h, Slot.entryCheck_not_live hl]

theorem State.withReadySlot_poisoned {s : State} {c : SlotId} {x : Slot s.variant} (h : SlotIs s c x)
    (hl : x.live = true) (hp : x.poison = true) (k : Slot s.variant → State) :
    s.withReadySlot c k = .next (s.reportError .illegalState) := by
  simp [State.withReadySlot, State.withSlot_some h, Slot.entryCheck_poisoned hl hp]

/-- All that a command on a slot in any condition can do. -/
theorem State.withSlot_cases (s : State) (c : SlotId) (k : Slot s.variant → State) :
    (s.nctx ≤ c.toNat ∧ s.withSlot c k = .next (s.reportError .illegalCommand)) ∨
    ∃ x, SlotIs s c x ∧ s.withSlot c k = .next (k x) := by
  cases h : s.bank.slots[c.toNat]? with
  | none => exact .inl ⟨by simpa using h, by simp [State.withSlot, h]⟩
  | some x => exact .inr ⟨x, h, State.withSlot_some h k⟩

/-- All that a command on a ready slot can do. -/
theorem State.withReadySlot_cases (s : State) (c : SlotId) (k : Slot s.variant → State) :
    (s.nctx ≤ c.toNat ∧ s.withReadySlot c k = .next (s.reportError .illegalCommand)) ∨
    (∃ x, SlotIs s c x ∧ x.live = false ∧ s.withReadySlot c k = .next (s.reportError .noInstance)) ∨
    (∃ x, SlotIs s c x ∧ x.live = true ∧ x.poison = true ∧
      s.withReadySlot c k = .next (s.reportError .illegalState)) ∨
    ∃ x, Ready s c x ∧ s.withReadySlot c k = .next (k x) := by
  cases h : s.bank.slots[c.toNat]? with
  | none => exact .inl ⟨by simpa using h, by simp [State.withReadySlot, State.withSlot, h]⟩
  | some x =>
    cases hl : x.live with
    | false => exact .inr (.inl ⟨x, h, hl, State.withReadySlot_not_live h hl k⟩)
    | true =>
      cases hp : x.poison with
      | true => exact .inr (.inr (.inl ⟨x, h, hl, hp, State.withReadySlot_poisoned h hl hp k⟩))
      | false => exact .inr (.inr (.inr ⟨x, ⟨h, hl, hp⟩, State.withReadySlot_ready ⟨h, hl, hp⟩ k⟩))

@[simp] theorem State.applyEffect_write (s : State) (c : SlotId) (x : Slot s.variant) (r : Results) :
    s.applyEffect c (.write x r) = (s.setSlot c x).complete r := rfl

@[simp] theorem State.applyEffect_report (s : State) (c : SlotId) (r : Results) :
    s.applyEffect c (.report r) = s.complete r := rfl

@[simp] theorem State.applyEffect_guardTrip (s : State) (c : SlotId) :
    s.applyEffect c .guardTrip = (s.poisonSlot c).reportError .illegalState := rfl

/-! ### Compression -/

/-- All that a counter advance can do (43_compression R171). -/
theorem Slot.advanceCounter_cases {guard : Bool} {n : Nat} {x y : Slot v} (h : x.advanceCounter guard n = some y) :
    y = { x with
      t0 := x.t0 + BitVec.ofNat v.wordBits n
      t1 := if counterCarry (x.t0 + BitVec.ofNat v.wordBits n) n then x.t1 + 1 else x.t1 } := by
  simp only [Slot.advanceCounter] at h
  split at h
  · simp at h
  · exact (Option.some.inj h).symm

/-- All that a compression can do (43_compression R180 to R182). -/
theorem Slot.compress_cases {guard final : Bool} {x y : Slot v} (h : x.compress guard final = some y) :
    ∃ z, x.advanceCounter guard x.filled.val = some z ∧
      y = { z with
        h := compressWords z.h z.t0 z.t1 final (messageWords z.buf)
        buf := Vector.replicate _ 0
        filled := 0 } := by
  obtain ⟨z, hz, rfl⟩ := Option.map_eq_some_iff.mp h
  exact ⟨z, hz, rfl⟩

/-- A compression writes only `H`, `T0`, `T1`, `BUF` and `FILLED` (10_state R37). -/
theorem Slot.compress_keeps {guard final : Bool} {x y : Slot v} (h : x.compress guard final = some y) :
    y.live = x.live ∧ y.poison = x.poison ∧ y.nn = x.nn ∧ y.kk = x.kk ∧ y.key = x.key ∧
      y.buf = Vector.replicate _ 0 ∧ y.filled = 0 := by
  obtain ⟨z, hz, rfl⟩ := Slot.compress_cases h
  obtain rfl := Slot.advanceCounter_cases hz
  exact ⟨rfl, rfl, rfl, rfl, rfl, rfl, rfl⟩

/-- With the guard off a compression always completes (60_exceptions R230). -/
theorem Slot.compress_unguarded (final : Bool) (x : Slot v) : ∃ y, x.compress false final = some y := by
  simp [Slot.compress, Slot.advanceCounter]

theorem Slot.makeRoom_not_full {guard : Bool} {x : Slot v} (h : x.filled.val ≠ v.blockBytes) :
    x.makeRoom guard = some x := by simp [Slot.makeRoom, h]

theorem Slot.makeRoom_full {guard : Bool} {x : Slot v} (h : x.filled.val = v.blockBytes) :
    x.makeRoom guard = x.compress guard false := by simp [Slot.makeRoom, h]

@[simp] theorem Slot.absorb_nil (guard : Bool) (x : Slot v) : x.absorb guard [] = some x := rfl

end Sys2Proof.Machine
end

