-- ==== Sys2Proof/Laws/Operands.lean ====
section
/-! SUPPORT. What each operand form, each slot procedure of the families and each action of the host can do: one lemma per
operation, to be cited instead of unfolding it. -/

namespace Sys2Proof.Machine

variable {v : Variant}

/-! ### Operands -/

@[simp] theorem memRead_all (D : List Byte) : memRead D 0 D.length = D := by simp [memRead]

theorem State.wholeSource_absent {s : State} (h : s.src = none) : s.wholeSource = .error .nullInput := by
  simp [State.wholeSource, h]

theorem State.wholeSource_present {s : State} {D : List Byte} (h : s.src = some D) : s.wholeSource = .ok D := by
  simp [State.wholeSource, h]

theorem windowInside_iff (off len : Int) (n : Nat) :
    windowInside off len n = true ↔ 0 ≤ off ∧ 0 ≤ len ∧ off + len ≤ n := by
  simp [windowInside]
  omega

theorem State.sourceWindow_absent {s : State} (off len : Int) (h : s.src = none) :
    s.sourceWindow off len = .error .nullInput := by
  simp [State.sourceWindow, h]

theorem State.sourceWindow_outside {s : State} {D : List Byte} {off len : Int} (h : s.src = some D)
    (hw : ¬ (0 ≤ off ∧ 0 ≤ len ∧ off + len ≤ D.length)) : s.sourceWindow off len = .error .outOfRange := by
  have : windowInside off len D.length = false := by
    rw [← Bool.not_eq_true, windowInside_iff]; exact hw
  simp [State.sourceWindow, h, this]

theorem State.sourceWindow_inside {s : State} {D : List Byte} {off len : Nat} (h : s.src = some D)
    (hw : off + len ≤ D.length) : s.sourceWindow off len = .ok ((D.drop off).take len) := by
  have : windowInside off len D.length = true := (windowInside_iff _ _ _).mpr (by omega)
  simp [State.sourceWindow, h, this, memRead]

theorem digestLengthOk_iff (v : Variant) (nn : Byte) :
    digestLengthOk v nn = true ↔ 1 ≤ nn.toNat ∧ nn.toNat ≤ v.maxDigest := by simp [digestLengthOk]

theorem State.keyOperand_absent {s : State} (nn : Byte) (h : s.src = none) : s.keyOperand nn = .error .nullInput := by
  simp [State.keyOperand, h]

theorem State.keyOperand_ok {s : State} {nn : Byte} {K : List Byte} (h : s.src = some K)
    (hn : 1 ≤ nn.toNat ∧ nn.toNat ≤ s.variant.maxDigest) (hk : K.length ≤ s.variant.maxKey) :
    s.keyOperand nn = .ok K := by
  simp [State.keyOperand, h, (digestLengthOk_iff _ _).mpr hn, Nat.not_lt.mpr hk]

theorem State.keyOperand_bad {s : State} {nn : Byte} {K : List Byte} (h : s.src = some K)
    (hb : ¬ (1 ≤ nn.toNat ∧ nn.toNat ≤ s.variant.maxDigest) ∨ s.variant.maxKey < K.length) :
    s.keyOperand nn = .error .invalidArgument := by
  unfold State.keyOperand
  rw [h]
  by_cases hn : digestLengthOk s.variant nn = true
  · have hk := hb.resolve_left fun hx => hx ((digestLengthOk_iff _ _).mp hn)
    simp [hn, hk]
  · simp [hn]

theorem State.digestLengthOperand_ok {s : State} {nn : Byte} (hn : 1 ≤ nn.toNat ∧ nn.toNat ≤ s.variant.maxDigest) :
    s.digestLengthOperand nn = .ok nn := by
  simp [State.digestLengthOperand, (digestLengthOk_iff _ _).mpr hn]

theorem State.digestLengthOperand_bad {s : State} {nn : Byte}
    (hn : ¬ (1 ≤ nn.toNat ∧ nn.toNat ≤ s.variant.maxDigest)) : s.digestLengthOperand nn = .error .invalidArgument := by
  have : digestLengthOk s.variant nn = false := by rw [← Bool.not_eq_true, digestLengthOk_iff]; exact hn
  simp [State.digestLengthOperand, this]

/-! ### Slots -/

theorem Slot.keyed_iff (x : Slot v) : x.keyed = true ↔ x.kk ≠ 0 := by
  simp [Slot.keyed, BitVec.toNat_eq, Nat.pos_iff_ne_zero]

/-- Construction writes every field: nothing of the slot's earlier contents is left (40_lifecycle R100, R101). -/
theorem Slot.construct_any (x y : Slot v) (nn : Byte) (key : List Byte) : x.construct nn key = y.construct nn key := rfl

/-- A context reset depends on the flags, the digest length and the key alone. -/
theorem Slot.resetCtx_congr {x y : Slot v} (hl : x.live = y.live) (hp : x.poison = y.poison) (hn : x.nn = y.nn)
    (hk : x.kk = y.kk) (hkey : x.key = y.key) : x.resetCtx = y.resetCtx := by
  simp [Slot.resetCtx, Slot.keyed, hl, hp, hn, hk, hkey]

/-- An erased slot is the unkeyed slot of the same digest length (40_lifecycle R110). -/
theorem Slot.burn_eq_construct {x : Slot v} (h : x.live = true) (hp : x.poison = false) :
    x.burn = x.construct x.nn [] :=
  Slot.resetCtx_congr h hp rfl rfl (padTo_nil _).symm

@[simp] theorem Slot.resetCtx_resetCtx (x : Slot v) : x.resetCtx.resetCtx = x.resetCtx := rfl

/-! ### Absorbing -/

/-- Appending bytes that fit: they stand after the valid bytes, and nothing else moves. -/
theorem Slot.append_spec (x : Slot v) (D : List Byte) (h : x.filled.val + D.length ≤ v.blockBytes) :
    (x.append D).filled.val = x.filled.val + D.length ∧
    ∀ i : Fin v.blockBytes, (x.append D).buf[i] =
      if i.val < x.filled.val then x.buf[i] else D[i.val - x.filled.val]?.getD x.buf[i] :=
  ⟨by simp only [Slot.append]; omega, fun i => by simp [Slot.append]⟩

@[simp] theorem Slot.append_nil (x : Slot v) : x.append [] = x := by
  have hf : min x.filled.val v.blockBytes = x.filled.val := by omega
  simp [Slot.append, hf]

/-- Appending touches the buffer and `FILLED` only (10_state R37). -/
theorem Slot.append_keeps (x : Slot v) (D : List Byte) :
    x.append D = { x with buf := (x.append D).buf, filled := (x.append D).filled } := rfl

/-- All that making room can do: nothing, or one compression of a full buffer (41_update R131). -/
theorem Slot.makeRoom_cases {guard : Bool} {x y : Slot v} (h : x.makeRoom guard = some y) :
    (x.filled.val ≠ v.blockBytes ∧ y = x) ∨ (x.filled.val = v.blockBytes ∧ x.compress guard false = some y) := by
  by_cases hf : x.filled.val = v.blockBytes
  · exact .inr ⟨hf, by rwa [Slot.makeRoom_full hf] at h⟩
  · exact .inl ⟨hf, by rw [Slot.makeRoom_not_full hf] at h; exact (Option.some.inj h).symm⟩

/-- After making room at least one byte fits. -/
theorem Slot.makeRoom_lt {guard : Bool} {x y : Slot v} (h : x.makeRoom guard = some y) :
    y.filled.val < v.blockBytes := by
  rcases Slot.makeRoom_cases h with ⟨hf, rfl⟩ | ⟨-, hc⟩
  · omega
  · have h0 := (Slot.compress_keeps hc).2.2.2.2.2.2
    have : (0 : Nat) < v.blockBytes := by cases v <;> decide
    rw [h0]
    exact this

/-- Making room keeps the flags, the digest length and the key. -/
theorem Slot.makeRoom_keeps {guard : Bool} {x y : Slot v} (h : x.makeRoom guard = some y) :
    y.live = x.live ∧ y.poison = x.poison ∧ y.nn = x.nn ∧ y.kk = x.kk ∧ y.key = x.key := by
  rcases Slot.makeRoom_cases h with ⟨-, rfl⟩ | ⟨-, hc⟩
  · exact ⟨rfl, rfl, rfl, rfl, rfl⟩
  · obtain ⟨h1, h2, h3, h4, h5, -⟩ := Slot.compress_keeps hc
    exact ⟨h1, h2, h3, h4, h5⟩

/-- One turn of the loop of `Absorb` (41_update R130). -/
theorem Slot.absorbLoop_succ (guard : Bool) (fuel : Nat) (b : Byte) (D : List Byte) (x : Slot v) :
    Slot.absorbLoop guard (fuel + 1) (b :: D) x =
      (x.makeRoom guard).bind fun y =>
        let k := min (v.blockBytes - y.filled.val) (b :: D).length
        Slot.absorbLoop guard fuel ((b :: D).drop k) (y.append ((b :: D).take k)) := by
  rw [Slot.absorbLoop]
  · cases x.makeRoom guard <;> rfl
  · simp

/-- Absorbing keeps the flags, the digest length and the key (10_state R37). -/
theorem Slot.absorbLoop_keeps {guard : Bool} (fuel : Nat) : ∀ (D : List Byte) {x y : Slot v},
    Slot.absorbLoop guard fuel D x = some y →
      y.live = x.live ∧ y.poison = x.poison ∧ y.nn = x.nn ∧ y.kk = x.kk ∧ y.key = x.key := by
  induction fuel with
  | zero => intro D x y h; cases D <;> (obtain rfl := Option.some.inj h; exact ⟨rfl, rfl, rfl, rfl, rfl⟩)
  | succ n ih =>
    intro D x y h
    cases D with
    | nil => obtain rfl := Option.some.inj h; exact ⟨rfl, rfl, rfl, rfl, rfl⟩
    | cons b D =>
      rw [Slot.absorbLoop_succ] at h
      obtain ⟨z, hz, h⟩ := Option.bind_eq_some_iff.mp h
      obtain ⟨a1, a2, a3, a4, a5⟩ := Slot.makeRoom_keeps hz
      obtain ⟨b1, b2, b3, b4, b5⟩ := ih _ h
      exact ⟨b1.trans a1, b2.trans a2, b3.trans a3, b4.trans a4, b5.trans a5⟩

theorem Slot.absorb_keeps {guard : Bool} {D : List Byte} {x y : Slot v} (h : x.absorb guard D = some y) :
    y.live = x.live ∧ y.poison = x.poison ∧ y.nn = x.nn ∧ y.kk = x.kk ∧ y.key = x.key :=
  Slot.absorbLoop_keeps _ D h

/-- All that absorbing one byte can do (41_update R132). -/
theorem Slot.absorbByte_cases {guard : Bool} {b : Byte} {x y : Slot v} (h : x.absorbByte guard b = some y) :
    ∃ z, x.makeRoom guard = some z ∧ y = z.append [b] := by
  obtain ⟨z, hz, rfl⟩ := Option.map_eq_some_iff.mp h
  exact ⟨z, hz, rfl⟩

/-! ### Finalizing -/

/-- All that finalization can do (42_digest R150). -/
theorem Slot.finalize_cases {guard : Bool} {x y : Slot v} {out : List Byte} (h : x.finalize guard = some (out, y)) :
    ∃ z, x.padBuffer.compress guard true = some z ∧ out = z.extract ∧ y = z.resetCtx := by
  obtain ⟨z, hz, he⟩ := Option.map_eq_some_iff.mp h
  obtain ⟨rfl, rfl⟩ := Prod.mk.inj he
  exact ⟨z, hz, rfl, rfl⟩

/-- Finalization leaves the slot as a context reset of it does (42_digest R155). -/
theorem Slot.finalize_resets {guard : Bool} {x y : Slot v} {out : List Byte} (h : x.finalize guard = some (out, y)) :
    y = x.resetCtx := by
  obtain ⟨z, hz, -, rfl⟩ := Slot.finalize_cases h
  obtain ⟨h1, h2, h3, h4, h5, -⟩ := Slot.compress_keeps hz
  exact Slot.resetCtx_congr h1 h2 h3 h4 h5

end Sys2Proof.Machine
end

