-- ==== Sys2Proof/Laws/PerInstr.lean ====
section
/-! SUPPORT. Families of statements about every command as syntax, one lemma per constructor. `EncodedLength`: the
encoder gives a command as many words as the opcode of its first word says (30_encoding R79). -/

namespace Sys2Proof.Laws.EncodedLength

/-- The first word of the encoding frames the whole of it. -/
def Statement (i : Instr) : Prop :=
  ∃ cw ext, encode i = cw :: ext ∧ (encode i).length = commandWords cw

theorem init (c : SlotId) (nn : Byte) : Statement (.init c nn) :=
  ⟨_, _, rfl, by simp [encode, opOf, commandWords]⟩

theorem initk (c : SlotId) (nn : Byte) : Statement (.initk c nn) :=
  ⟨_, _, rfl, by simp [encode, opOf, commandWords]⟩

theorem upd1 (c : SlotId) (b : Byte) : Statement (.upd1 c b) :=
  ⟨_, _, rfl, by simp [encode, opOf, commandWords]⟩

theorem upd (c : SlotId) : Statement (.upd c) :=
  ⟨_, _, rfl, by simp [encode, opOf, commandWords]⟩

theorem updr (c : SlotId) (off len : Int) : Statement (.updr c off len) :=
  ⟨_, _, rfl, by simp [encode, opOf, commandWords]⟩

theorem dig (c : SlotId) : Statement (.dig c) :=
  ⟨_, _, rfl, by simp [encode, opOf, commandWords]⟩

theorem digb (c : SlotId) : Statement (.digb c) :=
  ⟨_, _, rfl, by simp [encode, opOf, commandWords]⟩

theorem digr (c : SlotId) (off len : Int) : Statement (.digr c off len) :=
  ⟨_, _, rfl, by simp [encode, opOf, commandWords]⟩

theorem rst (c : SlotId) : Statement (.rst c) :=
  ⟨_, _, rfl, by simp [encode, opOf, commandWords]⟩

theorem burn (c : SlotId) : Statement (.burn c) :=
  ⟨_, _, rfl, by simp [encode, opOf, commandWords]⟩

theorem len (c : SlotId) : Statement (.len c) :=
  ⟨_, _, rfl, by simp [encode, opOf, commandWords]⟩

theorem copy (c d : SlotId) : Statement (.copy c d) :=
  ⟨_, _, rfl, by simp [encode, opOf, commandWords]⟩

theorem alg (c : SlotId) : Statement (.alg c) :=
  ⟨_, _, rfl, by simp [encode, opOf, commandWords]⟩

end Sys2Proof.Laws.EncodedLength
end

