-- ==== Sys2Proof/Laws/Step.lean ====
section
/-! SUPPORT. All that a step can do: execute the command at the head of the port, or take the host's next action. -/

namespace Sys2Proof.Machine

/-- A step with a whole command in the port runs it. -/
theorem step_command {s : State} {ws rest : List CmdWord} (h : takeCommand s.port = some (ws, rest)) :
    step s = runCommand ws { s with port := rest } := by simp [step, h]

/-- A step without one is the host's. -/
theorem step_host {s : State} (h : takeCommand s.port = none) : step s = s.hostStep := by simp [step, h]

/-- A command of legal words is executed. -/
theorem runCommand_legal {s : State} {ws : List CmdWord} {i : Instr} (h : decode s.nctx ws = .ok i) :
    runCommand ws s = exec i s := by simp [runCommand, h]

/-- A command of illegal words is reported (60_exceptions R221). -/
theorem runCommand_illegal {s : State} {ws : List CmdWord} {e : Reject} (h : decode s.nctx ws = .error e) :
    runCommand ws s = .next (s.reportError .illegalCommand) := by simp [runCommand, h]

/-- All that a step can do. -/
theorem step_cases {s t : State} (h : step s = .next t) :
    (∃ ws rest, takeCommand s.port = some (ws, rest) ∧
      ((∃ i, decode s.nctx ws = .ok i ∧ exec i { s with port := rest } = .next t) ∨
       ((∃ e, decode s.nctx ws = .error e) ∧ t = State.reportError { s with port := rest } .illegalCommand))) ∨
    (takeCommand s.port = none ∧ s.hostStep = .next t) := by
  cases hc : takeCommand s.port with
  | none => exact .inr ⟨rfl, by rwa [step_host hc] at h⟩
  | some p =>
    obtain ⟨ws, rest⟩ := p
    rw [step_command hc] at h
    refine .inl ⟨ws, rest, rfl, ?_⟩
    have hn : State.nctx { s with port := rest } = s.nctx := rfl
    cases hd : decode s.nctx ws with
    | ok i => exact .inl ⟨i, rfl, by rwa [runCommand_legal (by rw [hn]; exact hd)] at h⟩
    | error e =>
      rw [runCommand_illegal (e := e) (by rw [hn]; exact hd)] at h
      exact .inr ⟨⟨e, rfl⟩, (Host.Outcome.next.inj h).symm⟩

/-- All that the host's step can do when it goes on. -/
theorem hostStep_cases {s t : State} (h : s.hostStep = .next t) :
    (s.host = [] ∧ t = s) ∨
    (∃ w rest, s.host = .word w :: rest ∧ t = { s with port := s.port ++ [w], host := rest }) ∨
    (∃ b rest, s.host = .source b :: rest ∧ sourceFits b = true ∧ t = { s with src := b, host := rest }) ∨
    (∃ rest, s.host = .deviceReset :: rest ∧ t = State.deviceReset { s with host := rest }) := by
  unfold State.hostStep at h
  split at h
  · next hh => exact .inl ⟨hh, (Host.Outcome.next.inj h).symm⟩
  · next w rest hh => exact .inr (.inl ⟨w, rest, hh, (Host.Outcome.next.inj h).symm⟩)
  · next b rest hh =>
    refine .inr (.inr (.inl ⟨b, rest, hh, ?_⟩))
    unfold State.setSource at h
    split at h
    · cases h
    · split at h
      · next hf => exact ⟨hf, (Host.Outcome.next.inj h).symm⟩
      · cases h
  · next rest hh => exact .inr (.inr (.inr ⟨rest, hh, (Host.Outcome.next.inj h).symm⟩))

end Sys2Proof.Machine
end

