-- ==== Sys2Proof/Tests/Slice0.lean ====
section
/-! SUPPORT. The model's own tests. Every expected value is the spec's: 95_test_vectors.md (its table or vector is named at
each test), a worked example of a rule, or a word written out from 30_encoding. After them, for every statement with
hypotheses, a witness: a concrete state and operands that meet them together. -/

namespace Sys2Proof.Tests

/- One test after another: side by side they need several times the memory. -/
set_option Elab.async false

open Sys2Proof Sys2Proof.Machine Sys2Proof.Claims

/-! ## Helpers -/

/-- `n` bytes written as one hexadecimal number, the first byte most significant. -/
def bytesOf (n x : Nat) : List Byte := (List.range n).map fun i => BitVec.ofNat 8 (x >>> (8 * (n - 1 - i)))

/-- The bytes `0, 1, ..., n-1`. -/
def counting (n : Nat) : List Byte := (List.range n).map (BitVec.ofNat 8)

/-- What the next state of an outcome shows, or `none` if the step stops. -/
def after {α : Type} (o : Host.Outcome State Fault Refusal) (f : State → α) : Option α :=
  match o with
  | .next t => some (f t)
  | .fault _ => none
  | .refused _ => none

/-- A slot just constructed, unkeyed (64-bit variant). -/
def fresh (nn : Byte) : Slot .b64 := (Slot.reset .b64).construct nn []

/-- A slot just constructed with the key `00..3f` (64-bit variant). -/
def keyed : Slot .b64 := (Slot.reset .b64).construct 64 (counting 64)

/-- A device of four slots, the first holding `x`. -/
def wide (x : Slot .b64) : State :=
  { State.reset with bank := ⟨.b64, [x, Slot.reset .b64, Slot.reset .b64, Slot.reset .b64]⟩ }

/-- A device of the 32-bit variant with two slots, the first holding `x`. -/
def narrow (x : Slot .s32) : State :=
  { State.resetWith .s32 2 false with bank := ⟨.s32, [x, Slot.reset .s32]⟩ }

/-- The start of program P5 (95_test_vectors): the counter at `2^64 - 64` bytes and a full buffer. -/
def atLimit32 : Slot .s32 :=
  { (Slot.reset .s32).construct 32 [] with
    t0 := 0xFFFFFFC0, t1 := 0xFFFFFFFF, buf := Vector.replicate _ 0x5A, filled := Fin.last _ }

/-- The same place in the 64-bit variant. -/
def atLimit64 : Slot .b64 :=
  { fresh 64 with
    t0 := 0xFFFFFFFFFFFFFF80, t1 := 0xFFFFFFFFFFFFFFFF, buf := Vector.replicate _ 0x5A, filled := Fin.last _ }

/-- A poisoned slot. -/
def poisoned : Slot .b64 := { fresh 64 with poison := true }

/-- `STATUS`, `RES_DLEN` and the first `n` bytes of `RES_DATA` after a step. -/
def digestOf (n : Nat) (o : Host.Outcome State Fault Refusal) : Option (BitVec 8 × BitVec 8 × List Byte) :=
  after o fun t => (t.status, t.resDlen, t.resData.toList.take n)

/-- Slot `c` of a 64-bit device after a step. -/
def wideSlot (o : Host.Outcome State Fault Refusal) (c : SlotId) : Option (Slot .b64) :=
  match o with
  | .next t =>
    match t.slot? c with
    | some ⟨.b64, x⟩ => some x
    | _ => none
  | .fault _ => none
  | .refused _ => none

/-! ## Well-formedness: an ill-formed term for each check -/

theorem test_illformed_slot_absent : wellFormed 4 (.rst 4) = false := by decide

theorem test_illformed_slot_absent_init : wellFormed 4 (.init 15 64) = false := by decide

theorem test_illformed_copy_destination_absent : wellFormed 4 (.copy 0 4) = false := by decide

theorem test_illformed_copy_source_absent : wellFormed 4 (.copy 4 0) = false := by decide

theorem test_illformed_offset_too_large : wellFormed 4 (.updr 0 (2 ^ 31) 0) = false := by decide

theorem test_illformed_offset_too_small : wellFormed 4 (.digr 0 (-2 ^ 31 - 1) 0) = false := by decide

theorem test_illformed_length_too_large : wellFormed 4 (.digr 0 0 (2 ^ 31)) = false := by decide

theorem test_illformed_length_too_small : wellFormed 4 (.updr 0 0 (-2 ^ 31 - 1)) = false := by decide

theorem test_wellformed_extremes : wellFormed 4 (.updr 3 (-2 ^ 31) (2 ^ 31 - 1)) = true := by decide

/-! ## Decoding: words written out bit by bit from 30_encoding R71 and R79 (OP, CTX, RSVD, IMM8) -/

theorem test_decode_init : decode 4 [0b0001_0010_0000000000000000_01000000#32] = .ok (.init 2 64) := by decide

theorem test_decode_initk : decode 4 [0b0010_0001_0000000000000000_00100000#32] = .ok (.initk 1 32) := by decide

theorem test_decode_upd1 : decode 4 [0b0011_0000_0000000000000000_01100001#32] = .ok (.upd1 0 0x61) := by decide

theorem test_decode_upd : decode 4 [0b0100_0011_0000000000000000_00000000#32] = .ok (.upd 3) := by decide

theorem test_decode_dig : decode 4 [0b0110_0001_0000000000000000_00000000#32] = .ok (.dig 1) := by decide

theorem test_decode_digb : decode 4 [0b0111_0000_0000000000000000_00000000#32] = .ok (.digb 0) := by decide

theorem test_decode_rst : decode 4 [0b1001_0011_0000000000000000_00000000#32] = .ok (.rst 3) := by decide

theorem test_decode_burn : decode 4 [0b1010_0001_0000000000000000_00000000#32] = .ok (.burn 1) := by decide

theorem test_decode_len : decode 4 [0b1011_0000_0000000000000000_00000000#32] = .ok (.len 0) := by decide

theorem test_decode_copy : decode 4 [0b1100_0001_0000000000000000_00000010#32] = .ok (.copy 1 2) := by decide

theorem test_decode_alg : decode 4 [0b1101_0010_0000000000000000_00000000#32] = .ok (.alg 2) := by decide

theorem test_decode_updr :
    decode 4 [0b0101_0000_0000000000000000_00000000#32, 0xFFFFFFFF#32, 0x00000002#32] = .ok (.updr 0 (-1) 2) := by
  decide

theorem test_decode_digr :
    decode 4 [0b1000_0010_0000000000000000_00000000#32, 0x7FFFFFFF#32, 0x80000000#32] =
      .ok (.digr 2 (2 ^ 31 - 1) (-2 ^ 31)) := by
  decide

/-- 95_test_vectors X13 to X19: each illegal word is rejected, by name. -/
theorem test_reject_illegal_words :
    (decode 4 [0x00000000#32], decode 4 [0xE0000000#32], decode 4 [0xF0000000#32]) =
      (.error .reservedOpcode, .error .reservedOpcode, .error .reservedOpcode) ∧
    (decode 4 [0x60000100#32], decode 4 [0x60000001#32], decode 4 [0x64000000#32]) =
      (.error .reservedBitsSet, .error .immediateNotZero, .error .noSuchSlot) ∧
    (decode 4 [0xC0000004#32], decode 4 [0xC0000011#32]) =
      (.error .noSuchDestination, .error .immediateNotZero) := by
  decide

/-- 30_encoding R79: the length follows from the opcode, in an illegal word too. -/
theorem test_framing :
    takeCommand [0x5F00FF01#32, 1#32, 2#32, 3#32] = some ([0x5F00FF01#32, 1#32, 2#32], [3#32]) ∧
    takeCommand [0x80000000#32, 1#32] = none ∧ takeCommand [0xF0000000#32, 7#32] = some ([0xF0000000#32], [7#32]) := by
  decide

/-- 20_memory R55: little-endian bytes carry the words `50000000 00000001 00000002` of 41_update R134. -/
theorem test_decode_bytes :
    decodeBytes 4 [0, 0, 0, 0x50, 1, 0, 0, 0, 2, 0, 0, 0] = .ok (.updr 0 1 2) ∧
    bytesOfWord 0x12345678#32 = [0x78, 0x56, 0x34, 0x12] ∧
    decodeBytes 4 [0, 0, 0] = .error .incomplete := by
  decide

/-- The opcode table's numbering: the operand words count on from bit 32, and are zero where the row gives none. -/
theorem test_decodeTableWord :
    decodeTableWord 32 0x12000040 = some (.init 2 64) ∧ decodeTableWord 32 0x50000000 = some (.updr 0 0 0) ∧
    decodeTableWord 96 0x000000020000000180000000 = some (.digr 0 1 2) ∧ decodeTableWord 32 0xE0000000 = none := by
  decide

/-! ## Codec, mixer, counter and compression -/

/-- 95_test_vectors, Codec; 44_codec R205. -/
theorem test_codec_decode :
    leDecode .b64 [0x08, 0xc9, 0xbc, 0xf3, 0x67, 0xe6, 0x09, 0x6a] = 0x6A09E667F3BCC908#64 ∧
    leDecode .b64 [0, 0, 0, 0, 0, 0, 0, 0x80] = 0x8000000000000000#64 ∧
    leDecode .s32 [0x61, 0x62, 0x63, 0] = 0x00636261#32 := by
  decide +kernel

/-- 95_test_vectors, Codec; 44_codec R205. -/
theorem test_codec_encode :
    leEncode .b64 0x0D4D1C983FA580BA#64 = [0xba, 0x80, 0xa5, 0x3f, 0x98, 0x1c, 0x4d, 0x0d] ∧
    leEncode .s32 0x8C5E8C50#32 = [0x50, 0x8c, 0x5e, 0x8c] ∧
    leEncodePart .b64 0x0D4D1C983FA580BA#64 3 = [0xba, 0x80, 0xa5] ∧
    leEncodePart .b64 0x0D4D1C983FA580BA#64 0 = [] := by
  decide +kernel

/-- 95_test_vectors, Mixer G and rotation. -/
theorem test_rotr :
    rotr 0x0123456789ABCDEF#64 32 = 0x89ABCDEF01234567#64 ∧ rotr 0x0123456789ABCDEF#64 24 = 0xABCDEF0123456789#64 ∧
    rotr 0x0123456789ABCDEF#64 16 = 0xCDEF0123456789AB#64 ∧ rotr 0x0123456789ABCDEF#64 63 = 0x02468ACF13579BDE#64 ∧
    rotr 0x01234567#32 16 = 0x45670123#32 ∧ rotr 0x01234567#32 12 = 0x56701234#32 ∧
    rotr 0x01234567#32 8 = 0x67012345#32 ∧ rotr 0x01234567#32 7 = 0xCE02468A#32 := by
  decide +kernel

/-- 95_test_vectors, Mixer G, 64-bit, last row. -/
theorem test_mixG_64 :
    let V := mixG (v := .b64)
      #v[0x0123456789ABCDEF#64, 0, 0, 0, 0xFEDCBA9876543210#64, 0, 0, 0, 0x0F1E2D3C4B5A6978#64, 0, 0, 0,
         0x8796A5B4C3D2E1F0#64, 0, 0, 0] 0 4 8 12 0x1111111111111111#64 0x2222222222222222#64
    V[0] = 0xE95F405271D7B7C9#64 ∧ V[4] = 0xA6C4A94D586303F4#64 ∧ V[8] = 0xE54E59B99295056D#64 ∧
      V[12] = 0x036C3B9CB0B2E750#64 := by
  decide +kernel

/-- 95_test_vectors, Mixer G, 32-bit, last row. -/
theorem test_mixG_32 :
    let V := mixG (v := .s32)
      #v[0x01234567#32, 0, 0, 0, 0x89ABCDEF#32, 0, 0, 0, 0xFEDCBA98#32, 0, 0, 0, 0x76543210#32, 0, 0, 0]
      0 4 8 12 0x11111111#32 0x22222222#32
    V[0] = 0x183C167F#32 ∧ V[4] = 0x6374B677#32 ∧ V[8] = 0xE062F447#32 ∧ V[12] = 0xCB0E4BFB#32 := by
  decide +kernel

/-- 95_test_vectors, Counter advance, 64-bit: the carry, no carry for `n = 0`, the wrap without guard, the guard. -/
theorem test_counter_64 :
    let at_ (t0 t1 : BitVec 64) : Slot .b64 := { fresh 64 with t0 := t0, t1 := t1 }
    let go (g : Bool) (n : Nat) (x : Slot .b64) := (x.advanceCounter g n).map fun y => (y.t0, y.t1)
    go false 128 (at_ 0xFFFFFFFFFFFFFF80 0) = some (0, 1) ∧
    go false 0 (at_ 0 0) = some (0, 0) ∧
    go false 128 (at_ 0xFFFFFFFFFFFFFF80 0xFFFFFFFFFFFFFFFF) = some (0, 0) ∧
    go true 128 (at_ 0xFFFFFFFFFFFFFF80 0xFFFFFFFFFFFFFFFF) = none ∧
    go true 128 (at_ 0xFFFFFFFFFFFFFF80 0xFFFFFFFFFFFFFFFE) = some (0, 0xFFFFFFFFFFFFFFFF) := by
  decide +kernel

/-- 95_test_vectors, Counter advance, 32-bit. -/
theorem test_counter_32 :
    let at_ (t0 t1 : BitVec 32) : Slot .s32 := { atLimit32 with t0 := t0, t1 := t1 }
    let go (n : Nat) (x : Slot .s32) := (x.advanceCounter (guardOn .s32 false) n).map fun y => (y.t0, y.t1)
    go 64 (at_ 0xFFFFFFC0 0) = some (0, 1) ∧ go 64 (at_ 0xFFFFFFC0 0xFFFFFFFF) = none ∧
    go 63 (at_ 0xFFFFFFC0 0xFFFFFFFF) = some (0xFFFFFFFF, 0xFFFFFFFF) := by
  decide +kernel

/-- 95_test_vectors, Compression of the block "abc": `T0` and `FILLED` after; `H` is in the digests of "abc" below. -/
theorem test_compress_abc :
    (((fresh 64).append [0x61, 0x62, 0x63]).compress false true).map (fun x => (x.t0, x.t1, x.filled.val)) =
      some (3, 0, 0) := by
  decide +kernel

/-! ## Lifecycle commands -/

/-- 95_test_vectors LC1. -/
theorem test_init :
    (wideSlot (exec (.init 0 64) State.reset) 0).map (fun x => (x.live, x.h[0], x.filled.val, x.t0, x.t1)) =
      some (true, 0x6A09E667F2BDC948#64, 0, 0, 0) := by
  decide +kernel

/-- 95_test_vectors X1, X2: `nn = 0` and `nn = 65` are refused and change nothing. -/
theorem test_init_refused :
    after (exec (.init 0 0) State.reset) id = some { State.reset with status := 1 } ∧
    after (exec (.init 0 65) State.reset) id = some { State.reset with status := 1 } :=
  ⟨rfl, rfl⟩

/-- 95_test_vectors LC3. -/
theorem test_initk :
    (wideSlot (exec (.initk 1 64) { State.reset with src := some (counting 64) }) 1).map
        (fun x => (x.kk, x.h[0], x.filled.val, x.buf.toList)) =
      some (64, 0x6A09E667F2BD8948#64, 128, counting 64 ++ List.replicate 64 0) := by
  decide +kernel

/-- 95_test_vectors X3, X4, X5: the order of the checks. -/
theorem test_initk_refused :
    after (exec (.initk 0 64) { State.reset with src := some (counting 65) }) (·.status) = some 1 ∧
    after (exec (.initk 0 64) State.reset) (·.status) = some 3 ∧
    after (exec (.initk 0 0) State.reset) (·.status) = some 3 := by
  decide +kernel

/-- 95_test_vectors LC6, LC7: an absorbed byte is discarded, the key block is primed again. -/
theorem test_rst :
    wideSlot (exec (.rst 0) (wide ((fresh 64).append [0x61]))) 0 = some (fresh 64) ∧
    wideSlot (exec (.rst 0) (wide { keyed with t0 := 256, filled := 3 })) 0 = some keyed :=
  ⟨rfl, rfl⟩

/-- 95_test_vectors LC8: after `BURN` the slot is that of `INIT 1, 64`. -/
theorem test_burn : wideSlot (exec (.burn 0) (wide keyed)) 0 = some (fresh 64) :=
  rfl

/-- 95_test_vectors LC12, LC11, and X12: the copy, `d = c`, and a source that is not live. -/
theorem test_copy :
    wideSlot (exec (.copy 0 2) (wide ((fresh 64).append [7]))) 2 = some ((fresh 64).append [7]) ∧
    wideSlot (exec (.copy 0 0) (wide ((fresh 64).append [7]))) 0 = some ((fresh 64).append [7]) ∧
    after (exec (.copy 1 0) State.reset) (·.status) = some 5 :=
  ⟨rfl, rfl, rfl⟩

/-- 95_test_vectors LC9. -/
theorem test_len :
    after (exec (.len 0) (wide (fresh 20))) (fun t => (t.status, t.resValue, t.resDlen)) = some (0, 20, 0) := by
  decide +kernel

/-- 95_test_vectors LC10, with `ALGORITHM_NAME = "BLAKE2b"`. -/
theorem test_alg :
    digestOf 8 (execAlgNamed [0x42, 0x4c, 0x41, 0x4b, 0x45, 0x32, 0x62] 0 (wide (fresh 64))) =
      some (0, 7, [0x42, 0x4c, 0x41, 0x4b, 0x45, 0x32, 0x62, 0]) := by
  decide +kernel

/-- 40_lifecycle R108: each variant reports its own name. -/
theorem test_alg_by_variant :
    exec (.alg 0) (wide (fresh 64)) = execAlgNamed (Config.algorithmName .b64) 0 (wide (fresh 64)) ∧
    exec (.alg 0) (narrow atLimit32) = execAlgNamed (Config.algorithmName .s32) 0 (narrow atLimit32) := ⟨rfl, rfl⟩

/-! ## Update family -/

/-- 95_test_vectors U1, U10: one byte; on a keyed slot the key block is compressed first. -/
theorem test_upd1 :
    (wideSlot (exec (.upd1 0 0x61) (wide (fresh 64))) 0).map (fun x => (x.filled.val, x.t0, x.buf[0])) =
      some (1, 0, 0x61) ∧
    (wideSlot (exec (.upd1 0 0) (wide keyed)) 0).map (fun x => (x.filled.val, x.t0)) = some (1, 128) := by
  decide +kernel

/-- 95_test_vectors U4, U2, X6: a full buffer is not compressed, an empty operand is fine, an absent one is not. -/
theorem test_upd :
    (wideSlot (exec (.upd 0) { wide (fresh 64) with src := some (counting 128) }) 0).map
        (fun x => (x.filled.val, x.t0, x.buf.toList)) = some (128, 0, counting 128) ∧
    wideSlot (exec (.upd 0) { wide (fresh 64) with src := some [] }) 0 = some (fresh 64) ∧
    after (exec (.upd 0) (wide (fresh 64))) (·.status) = some 3 :=
  ⟨by decide +kernel, rfl, rfl⟩

/-- 95_test_vectors U5: 129 bytes compress one block. -/
theorem test_upd_crosses_block :
    (wideSlot (exec (.upd 0) { wide (fresh 64) with src := some (counting 129) }) 0).map
        (fun x => (x.filled.val, x.t0, x.buf[0])) = some (1, 128, 0x80) := by
  decide +kernel

/-- 95_test_vectors U8, U9. -/
theorem test_updr :
    let s := { wide (fresh 64) with src := some [0x00, 0x11, 0x22, 0x33] }
    (wideSlot (exec (.updr 0 1 2) s) 0).map (fun x => (x.filled.val, x.buf[0], x.buf[1])) = some (2, 0x11, 0x22) ∧
    wideSlot (exec (.updr 0 4 0) s) 0 = some (fresh 64) :=
  ⟨by decide +kernel, rfl⟩

/-- 95_test_vectors X7, X8: a window outside the operand. -/
theorem test_updr_out_of_range :
    let s := { wide (fresh 64) with src := some [0x00, 0x11, 0x22, 0x33] }
    after (exec (.updr 0 (-1) 2) s) id = some { s with status := 2 } ∧
    after (exec (.updr 0 3 2) s) id = some { s with status := 2 } :=
  ⟨rfl, rfl⟩

/-! ## Digest family -/

/-- 95_test_vectors, Digest family: the keyed digest of the empty message; the slot is primed again. -/
theorem test_dig_keyed_empty :
    digestOf 64 (exec (.dig 0) (wide keyed)) =
      some (0, 64, bytesOf 64
        0x10ebb67700b1868efb4417987acf4690ae9d972fb7a590c2f02871799aaa4786b5e996e8f0f4eb981fc214b005f42d2ff4233499391653df7aefcbc13fc51568) ∧
    (wideSlot (exec (.dig 0) (wide keyed)) 0).map (fun x => (x.filled.val, x.t0, x.buf[63])) = some (128, 0, 63) := by
  decide +kernel

/-- 95_test_vectors, Digest family: `NN = 1`, empty message; X11: a slot that is not live. -/
theorem test_dig_truncated :
    digestOf 2 (exec (.dig 0) (wide (fresh 1))) = some (0, 1, [0x2e, 0]) ∧
    after (exec (.dig 1) State.reset) (·.status) = some 5 := by
  decide +kernel

/-- 95_test_vectors V1: input `a5b1`, `NN = 2`. -/
theorem test_digb_known_answer :
    digestOf 3 (exec (.digb 0) { wide (fresh 2) with src := some [0xa5, 0xb1] }) = some (0, 2, [0x80, 0xb6, 0]) := by
  decide +kernel

/-- 95_test_vectors, Digest family: `00..80` (129 bytes, two blocks). -/
theorem test_digb_two_blocks :
    digestOf 64 (exec (.digb 0) { wide (fresh 64) with src := some (counting 129) }) =
      some (0, 64, bytesOf 64
        0xf59711d44a031d5f97a9413c065d1e614c417ede998590325f49bad2fd444d3e4418be19aec4e11449ac1a57207898bc57d76a1bcf3566292c20c683a5c4648f) := by
  decide +kernel

/-- 42_digest R154: the window `616263` of `00616263ff`; 95_test_vectors X9: the sum is exact. -/
theorem test_digr :
    digestOf 64 (exec (.digr 0 1 3) { wide (fresh 64) with src := some [0x00, 0x61, 0x62, 0x63, 0xff] }) =
      some (0, 64, bytesOf 64
        0xba80a53f981c4d0d6a2797b69f12f6e94c212f14685ac4b74b12bb6fdbffa2d17d87c5392aab792dc252d5de4533cc9518d38aa8dbf1925ab92386edd4009923) ∧
    after (exec (.digr 0 0x7FFFFFFF 1) { wide (fresh 64) with src := some [0, 1, 2, 3] }) (·.status) = some 2 := by
  decide +kernel

/-- 95_test_vectors, Digest family, 32-bit variant: "abc". -/
theorem test_digb_narrow :
    digestOf 32 (exec (.digb 0) { narrow ((Slot.reset .s32).construct 32 []) with src := some [0x61, 0x62, 0x63] }) =
      some (0, 32, bytesOf 32 0x508c5e8c327c14e2e1a72ba34eeb452f37458b209ed63a294d999b4c86675982) := by
  decide +kernel

/-! ## Errors, steps and the host -/

/-- 95_test_vectors P5: the counter guard of the 32-bit variant, and the same place without a guard. -/
theorem test_counter_guard :
    after (exec (.upd1 0 0) (narrow atLimit32)) (fun t => (t.status, t.resDlen,
      t.bank.slots.map fun x => (x.live, x.poison))) = some (4, 0, [(true, true), (false, false)]) ∧
    (wideSlot (exec (.upd1 0 0) (wide atLimit64)) 0).map (fun x => (x.t0, x.t1, x.poison)) = some (0, 0, false) := by
  decide +kernel

/-- 95_test_vectors P5, commands 2 to 4: a poisoned slot is refused, and `INIT` constructs there. -/
theorem test_poisoned_slot :
    after (exec (.len 0) (wide poisoned)) (·.status) = some 4 ∧ after (exec (.dig 0) (wide poisoned)) (·.status) = some 4 ∧
    wideSlot (exec (.init 0 64) (wide poisoned)) 0 = some (fresh 64) :=
  ⟨rfl, rfl, rfl⟩

/-- 95_test_vectors P4, commands 6 and 7: a refused command changes nothing but the result registers. -/
theorem test_step_refused :
    after (step (State.reset.withFetchWord 32 0x93000000)) id = some { State.reset with status := 5 } ∧
    after (step (State.reset.withFetchWord 32 0xF0000000)) id = some { State.reset with status := 6 } :=
  ⟨rfl, rfl⟩

/-- The three words of `UPDR` are one command, and the words after it stay in the port. -/
theorem test_step_takes_its_words :
    after (step { State.reset with port := [0x50000000#32, 1#32, 2#32, 0xB0000000#32] }) (fun t => (t.status, t.port)) =
      some (5, [0xB0000000#32]) := by
  decide +kernel

/-- 30_encoding R85, 70_reset_and_hazards R250, R251, R256: the host's actions, and the engine that waits. -/
theorem test_host_actions :
    after (step { State.reset with host := [.source (some [0x61]), .deviceReset] }) (fun t => (t.src, t.host)) =
      some (some [0x61], [.deviceReset]) ∧
    after (step { State.reset with status := 6, src := some [], port := [0x50000000#32], host := [.deviceReset] })
      (fun t => (t.status, t.src, t.port, t.host)) = some (0, none, [], []) ∧
    after (step State.reset) id = some State.reset :=
  ⟨by decide +kernel, by decide +kernel, rfl⟩

/-- 70_reset_and_hazards R253: `SRC` changed between the words of a legal `UPDR`; of an illegal one, nothing reads it. -/
theorem test_source_change :
    step { State.reset with port := [0x50000000#32], host := [.source (some [])] } =
      .refused .sourceChangedDuringCommand ∧
    after (step { State.reset with port := [0x50000001#32], host := [.source (some [])] }) (·.src) =
      some (some []) := by
  exact ⟨rfl, by decide +kernel⟩


/-! ## Witnesses: a state and operands that meet every hypothesis of a statement together -/

/-- A fresh slot with `SRC` of four bytes: the usual start. -/
def ready : State := { wide (fresh 64) with src := some [0, 1, 2, 3] }

/-- A keyed slot (its buffer full, as the key block leaves it) with `SRC` of four bytes. -/
def readyKeyed : State := { wide keyed with src := some [0, 1, 2, 3] }

theorem ready_is_ready : Ready ready 0 (fresh 64) := ⟨rfl, rfl, rfl⟩

theorem readyKeyed_is_ready : Ready readyKeyed 0 keyed := ⟨rfl, rfl, rfl⟩

theorem witness_DecodeInvertsEncode :
    wellFormed 4 (.digr 3 (-2 ^ 31) (2 ^ 31 - 1)) = true ∧ wellFormed 2 (.copy 1 1) = true := by decide

theorem witness_EncodeInvertsDecode :
    [0xFFFFFFFF#32, 2#32].length + 1 = commandWords 0x50000000#32 ∧
    decode 4 [0x50000000#32, 0xFFFFFFFF#32, 2#32] = .ok (.updr 0 (-1) 2) := by decide

theorem witness_IllegalWordsAreReported :
    ([] : List CmdWord).length + 1 = commandWords 0x64000000#32 ∧
    State.port { State.reset with port := [0x64000000#32, 7#32] } = 0x64000000#32 :: ([] ++ [7#32]) ∧
    IllegalWord 4 0x64000000#32 ∧ IllegalWord 4 0xC0000004#32 ∧ IllegalWord 4 0xC0000010#32 ∧
    IllegalWord 4 0x60000001#32 ∧ IllegalWord 4 0x60000100#32 ∧ ¬ IllegalWord 4 0xC3000003#32 := by
  simp [IllegalWord, takesImmediate, commandWords, opField]

theorem witness_StepRunsDecodedCommand :
    takeCommand [0xB0000000#32, 7#32] = some ([0xB0000000#32], [7#32]) ∧
    decode State.reset.nctx [0xB0000000#32] = .ok (.len 0) ∧
    wellFormed State.reset.nctx (.updr 3 (-1) 2) = true ∧
    [0x53000000#32, 0xFFFFFFFF#32, 2#32, 7#32] = encode (.updr 3 (-1) 2) ++ [7#32] := by decide

theorem witness_HostWordsRunAsCommand :
    wellFormed State.reset.nctx (.updr 3 (-1) 2) = true ∧ State.reset.port = [] ∧
    [HostAction.word 0x53000000#32, .word 0xFFFFFFFF#32, .word 2#32, .source none] =
      (encode (.updr 3 (-1) 2)).map HostAction.word ++ [.source none] := by decide

theorem witness_WaitingStepTakesHostWord :
    takeCommand State.reset.port = none ∧ State.reset.host = [] ∧ takeCommand [0x50000000#32, 1#32] = none := by decide

theorem witness_SourceSetBetweenCommandsOnly :
    sourceFits (some [1]) = true ∧ sourceFits none = true ∧
    (wellFormed State.reset.nctx (.digr 0 0 0) = true ∧ encode (.digr 0 0 0) = [0x80000000#32, 0#32, 0#32] ∧
      (some [] : Option (List Byte)) ≠ State.reset.src) := by decide

/-- The bound of the source operand is `SRC_MAX_LEN`: 2^31 - 1 bytes fit, one more does not. -/
theorem witness_SourceSetBetweenCommandsOnly_bound (n : Nat) :
    sourceFits (some (List.replicate n 0)) = decide (n ≤ 2 ^ 31 - 1) := by
  simp only [sourceFits, List.length_replicate, Config.srcMaxLen]

theorem witness_SourceSetBetweenCommandsOnly_tooLong : ∃ b, sourceFits b = false :=
  ⟨some (List.replicate (2 ^ 31) 0), by rw [witness_SourceSetBetweenCommandsOnly_bound]; decide⟩

theorem witness_ExternalResetClearsDevice :
    takeCommand [0x50000000#32] = none ∧ takeCommand State.reset.port = none := by decide

theorem witness_InitConstructsUnkeyed :
    SlotIs State.reset 3 (Slot.reset .b64) ∧ SlotIs (wide poisoned) 0 poisoned ∧
    1 ≤ (1 : Byte).toNat ∧ (64 : Byte).toNat ≤ State.reset.variant.maxDigest :=
  ⟨rfl, rfl, by decide, by decide⟩

theorem witness_InitkConstructsKeyed :
    SlotIs ready 0 (fresh 64) ∧ ready.src = some [0, 1, 2, 3] ∧ [0, 1, 2, 3].length ≤ ready.variant.maxKey ∧
    (counting 64).length ≤ ready.variant.maxKey ∧ ([] : List Byte).length ≤ ready.variant.maxKey :=
  ⟨rfl, rfl, by decide +kernel⟩

theorem witness_InvalidArgumentOnlyFromConstruction :
    (3#4).toNat < State.reset.nctx ∧ (0 : Byte).toNat = 0 ∧ State.reset.variant.maxDigest < (65 : Byte).toNat ∧
    ready.variant.maxKey < (counting 65).length ∧ constructs (.rst 0) = false ∧
    after (exec (.rst 0) ready) (·.status) = some 0 := by decide +kernel

theorem witness_EmptyKeyConstructsUnkeyed : State.src { ready with src := some [] } = some [] := rfl

theorem witness_RstReinitializesContext : Ready ready 0 (fresh 64) ∧ Ready readyKeyed 0 keyed :=
  ⟨ready_is_ready, readyKeyed_is_ready⟩

theorem witness_BurnErasesKeyAndBuffer : Ready readyKeyed 0 keyed := readyKeyed_is_ready

theorem witness_BurnEqualsFreshConstruction :
    Ready readyKeyed 0 keyed ∧ 1 ≤ keyed.nn.toNat ∧ keyed.nn.toNat ≤ readyKeyed.variant.maxDigest :=
  ⟨readyKeyed_is_ready, by decide +kernel⟩

theorem witness_BurnLeavesNoTraceOfKey :
    Ready readyKeyed 0 keyed ∧ PublicEq keyed (fresh 64) ∧ keyed ≠ fresh 64 :=
  ⟨readyKeyed_is_ready, ⟨rfl, rfl, rfl⟩, by decide +kernel⟩

theorem witness_CopyClonesSlot :
    Ready readyKeyed 0 keyed ∧ (3#4).toNat < readyKeyed.nctx ∧ (0#4).toNat < readyKeyed.nctx :=
  ⟨readyKeyed_is_ready, by decide +kernel⟩

theorem witness_LenReportsDigestLength : Ready ready 0 (fresh 64) := ready_is_ready

theorem witness_AlgReportsName :
    Ready ready 0 (fresh 64) ∧ Ready (narrow atLimit32) 0 atLimit32 ∧ (narrow atLimit32).variant = .s32 :=
  ⟨ready_is_ready, ⟨rfl, rfl, rfl⟩, rfl⟩

theorem witness_Upd1AbsorbsOneByte :
    (Ready ready 0 (fresh 64) ∧ (fresh 64).filled.val < ready.variant.blockBytes) ∧
    (Ready readyKeyed 0 keyed ∧ keyed.filled.val = readyKeyed.variant.blockBytes ∧
      Headroom readyKeyed.guard keyed 0) :=
  ⟨⟨ready_is_ready, by decide +kernel⟩, readyKeyed_is_ready, by decide +kernel⟩

/-- Headroom is there with the guard on too. -/
theorem witness_Headroom_guarded : Headroom true keyed 4 ∧ ¬ Headroom true atLimit32 0 := by decide +kernel

/-- An update may fill the last block below the limit, and absorb nothing at it, where `Headroom` fails. -/
theorem witness_UpdateHeadroom_boundary :
    let x : Slot .s32 := { atLimit32 with filled := 63 }
    (UpdateHeadroom true x 1 ∧ ¬ Headroom true x 1 ∧ (x.absorb true [7]).isSome = true) ∧
    (UpdateHeadroom true atLimit32 0 ∧ (atLimit32.absorb true []).isSome = true) ∧
    (¬ UpdateHeadroom true atLimit32 1 ∧ atLimit32.absorb true [7] = none) :=
  ⟨by decide +kernel, by decide +kernel, by decide +kernel, rfl⟩

theorem witness_UpdAbsorbsWholeSource :
    Ready ready 0 (fresh 64) ∧ ready.src = some [0, 1, 2, 3] ∧ UpdateHeadroom ready.guard (fresh 64) 4 :=
  ⟨ready_is_ready, rfl, by decide +kernel⟩

theorem witness_UpdrAbsorbsWindow :
    Ready ready 0 (fresh 64) ∧ ready.src = some [0, 1, 2, 3] ∧ 1 + 3 ≤ [0, 1, 2, 3].length ∧
    4 + 0 ≤ [0, 1, 2, 3].length ∧ UpdateHeadroom ready.guard (fresh 64) 3 :=
  ⟨ready_is_ready, rfl, by decide +kernel⟩

theorem witness_LazyCompressionFill :
    [7#8] ≠ [] ∧ (fresh 64).absorb true [7#8] = some ((fresh 64).append [7#8]) ∧
    (keyed.absorb true [7#8]).isSome = true :=
  ⟨by decide +kernel, rfl, by decide +kernel⟩

theorem witness_ChunkingInvariance :
    ready.src = some [0, 1, 2, 3] ∧ 1 + 1 + 2 ≤ [0, 1, 2, 3].length ∧
    after (exec (.updr 0 1 1) ready) (·.status) = some Status.ok.code := by decide +kernel

theorem witness_BlockAccounting :
    (let L := [7#8].length + (if keyed.keyed then 128 else 0)
     Variant.b64.blockBytes * lazyBlocks .b64 L < 2 ^ Variant.b64.wordBits) ∧
    (keyed.resetCtx.absorb false [7#8]).isSome = true ∧ ((fresh 64).resetCtx.absorb false []).isSome = true := by
  decide +kernel

theorem witness_DigReturnsDigest :
    (Ready ready 0 (fresh 64) ∧ Headroom ready.guard (fresh 64) 0) ∧
    (Ready readyKeyed 0 keyed ∧ Headroom readyKeyed.guard keyed 0) :=
  ⟨⟨ready_is_ready, by decide +kernel⟩, readyKeyed_is_ready, by decide +kernel⟩

theorem witness_DigbAndDigrReturnDigest :
    Ready readyKeyed 0 keyed ∧ readyKeyed.src = some [0, 1, 2, 3] ∧ 0 + 4 ≤ [0, 1, 2, 3].length ∧
    Headroom readyKeyed.guard keyed 4 :=
  ⟨readyKeyed_is_ready, rfl, by decide +kernel⟩

theorem witness_WholeAndWindowFormsAgree :
    ready.src = some [0, 1, 2, 3] ∧ after (exec (.upd 0) ready) (·.status) = some Status.ok.code ∧
    after (exec (.updr 0 1 2) ready) (·.status) = some Status.ok.code := by decide +kernel

theorem witness_DigestAutoResets :
    digests (.dig 0) = true ∧ SlotIs ready (slotOf (.dig 0)) (fresh 64) ∧
    after (exec (.dig 0) ready) (·.status) = some Status.ok.code :=
  ⟨rfl, rfl, by decide +kernel⟩

theorem witness_DigestIsBlake2 :
    (counting 64).length ≤ Variant.b64.maxKey ∧
    ((([[1#8], [], [2#8]] : List (List Byte)).foldlM (fun (y : Slot .b64) D => y.absorb true D)
        ((Slot.reset .b64).construct 64 (counting 64))).bind fun y => y.finalize true).isSome = true ∧
    SlotIs readyKeyed 0 ((Slot.reset .b64).construct 64 (counting 64)) ∧ readyKeyed.src = some [0, 1, 2, 3] ∧
    sourceFits readyKeyed.src = true :=
  ⟨by decide +kernel, by decide +kernel, rfl, rfl, by decide +kernel⟩

theorem witness_ChecksInOrder :
    decode ready.nctx [0xF0000000#32] = .error .reservedOpcode ∧
    wellFormed ready.nctx (.updr 0 3 2) = true ∧ SlotIs ready (slotOf (.updr 0 3 2)) (fresh 64) ∧
    firstError (.updr 0 3 2) ready (fresh 64) = some .outOfRange ∧
    firstError (.updr 0 (-1) 2) ready (fresh 64) = some .outOfRange ∧
    firstError (.updr 0 2 2) ready (fresh 64) = none ∧ firstError (.updr 0 4 0) ready (fresh 64) = none ∧
    firstError (.updr 1 3 2) ready (Slot.reset .b64) = some .noInstance ∧
    firstError (.initk 0 0) (wide (fresh 64)) (fresh 64) = some .nullInput ∧
    firstError (.init 0 65) ready (fresh 64) = some .invalidArgument ∧ firstError (.init 0 64) ready (fresh 64) = none ∧
    firstError (.upd 0) (wide poisoned) poisoned = some .illegalState :=
  ⟨by decide +kernel, by decide +kernel, rfl, by decide +kernel⟩

theorem witness_NoInstanceOnUnconstructedSlot :
    wellFormed State.reset.nctx (.copy 1 0) = true ∧ constructs (.copy 1 0) = false ∧
    SlotIs State.reset (slotOf (.copy 1 0)) (Slot.reset .b64) ∧ (Slot.reset .b64).live = false :=
  ⟨by decide, rfl, rfl, rfl⟩

theorem witness_PoisonedSlotRefused :
    wellFormed (wide poisoned).nctx (.len 0) = true ∧ constructs (.len 0) = false ∧
    SlotIs (wide poisoned) (slotOf (.len 0)) poisoned ∧ poisoned.live = true ∧ poisoned.poison = true ∧
    constructs (.init 0 64) = true ∧ firstError (.init 0 64) (wide poisoned) poisoned = none :=
  ⟨by decide +kernel, rfl, rfl, rfl, rfl, rfl, by decide +kernel⟩

theorem witness_CounterGuardPoisonsSlot :
    let s := { narrow atLimit32 with src := some [0#8, 1#8] }
    Ready s 0 atLimit32 ∧ (s.variant = .s32 ∨ s.wideGuard = true) ∧ atLimit32.filled.val = s.variant.blockBytes ∧
    atLimit32.t1 = BitVec.allOnes _ ∧ atLimit32.t0.toNat + s.variant.blockBytes = 2 ^ s.variant.wordBits ∧
    s.src = some [0#8, 1#8] ∧ [0#8, 1#8] ≠ [] ∧ 0 < 1 ∧ 1 + 1 ≤ [0#8, 1#8].length :=
  ⟨⟨rfl, rfl, rfl⟩, .inl rfl, rfl, rfl, by decide +kernel⟩

/-- The same in the 64-bit variant with `WIDE_COUNTER_GUARD = true`. -/
theorem witness_CounterGuardPoisonsSlot_wide :
    let s := { wide atLimit64 with wideGuard := true }
    Ready s 0 atLimit64 ∧ s.wideGuard = true ∧ atLimit64.filled.val = s.variant.blockBytes ∧
    atLimit64.t1 = BitVec.allOnes _ ∧ atLimit64.t0.toNat + s.variant.blockBytes = 2 ^ s.variant.wordBits :=
  ⟨⟨rfl, rfl, rfl⟩, rfl, rfl, rfl, by decide +kernel⟩

/-- One block below the limit with a full buffer: the next block passes, the one after it trips. -/
def nearLimit32 : Slot .s32 := { atLimit32 with t0 := 0xFFFFFF80 }

theorem witness_CounterGuardTripsInAnyBlock :
    let s := { narrow nearLimit32 with src := some (counting 65) }
    (Ready s 0 nearLimit32 ∧ s.guard = true ∧ s.src = some (counting 65)) ∧
    (nearLimit32.makeRoom true).isSome = true ∧ (nearLimit32.absorb true (counting 65)).isNone = true ∧
    (1 + 64 ≤ (counting 65).length ∧ (nearLimit32.absorb true (((counting 65).drop 1).take 64)).isSome = true ∧
      (nearLimit32.absorbFinalize true (((counting 65).drop 1).take 64)).isNone = true) ∧
    (Ready (narrow atLimit32) 0 atLimit32 ∧ (atLimit32.absorbByte true 0).isNone = true ∧
      (atLimit32.finalize true).isNone = true) :=
  ⟨⟨⟨rfl, rfl, rfl⟩, rfl, rfl⟩, by decide +kernel, by decide +kernel, by decide +kernel, ⟨rfl, rfl, rfl⟩,
    by decide +kernel⟩

theorem witness_CounterGuardTripsExactlyAtLimit :
    nearLimit32.t0.toNat % Variant.s32.blockBytes = 0 ∧
    nearLimit32.counter + nearLimit32.filled.val + 64 = 2 ^ (2 * Variant.s32.wordBits) ∧
    atLimit64.t0.toNat % Variant.b64.blockBytes = 0 ∧
    atLimit64.counter + atLimit64.filled.val = 2 ^ (2 * Variant.b64.wordBits) := by decide +kernel

theorem witness_WideUnguardedNeverFails :
    (wide atLimit64).variant = .b64 ∧ (wide atLimit64).wideGuard = false ∧
    SlotIs (wide atLimit64) (slotOf (.upd1 0 0)) atLimit64 ∧ atLimit64.poison = false ∧
    after (exec (.upd1 0 0) (wide atLimit64)) (·.status) = some 0 ∧
    atLimit64.t1 = BitVec.allOnes 64 ∧ 0 < 128 ∧ atLimit64.t0.toNat + 128 = 2 ^ 64 :=
  ⟨rfl, rfl, rfl, rfl, by decide +kernel⟩

theorem witness_CounterAdvanceRule :
    (narrow atLimit32).variant = .s32 ∧ (wide atLimit64).variant = .b64 ∧
    128 ≤ Variant.b64.blockBytes ∧ ((fresh 64).advanceCounter true 128).isSome = true ∧
    ((fresh 64).advanceCounter true 0).isSome = true ∧ (atLimit64.advanceCounter true 128).isSome = false ∧
    (atLimit64.advanceCounter false 128).isSome = true := by decide +kernel

theorem witness_CarryIsUsualCarry :
    128 ≤ Variant.b64.blockBytes ∧ atLimit64.t0.toNat % Variant.b64.blockBytes = 0 ∧
    (atLimit64.advanceCounter false 128).isSome = true := by decide +kernel

theorem witness_MixGIsQuarterRound : ([0, 4, 8, 12] : List (Fin 16)).Nodup := by decide

theorem witness_HalfRoundOrderIrrelevant : ([0, 5, 10, 15, 3, 4, 9, 14] : List (Fin 16)).Nodup := by decide

theorem witness_CompressFoldsAndClears :
    (keyed.compress true false).isSome = true ∧ (keyed.advanceCounter true keyed.filled.val).isSome = true := by
  decide +kernel

theorem witness_CodecIsLittleEndian :
    (counting 8).length = Variant.b64.wordBytes ∧ (counting 8)[7]? = some 7 ∧ 7 < Variant.b64.wordBytes ∧
    8 ≤ Variant.b64.wordBytes := by decide

theorem witness_BlockAndDigestBytes :
    7 < Variant.b64.wordBytes ∧ Variant.b64.wordBytes * 7 + 7 < (fresh 64).nn.toNat := by decide +kernel

theorem witness_SlotIndependence :
    after (exec (.len 0) (withBank ready .b64 [fresh 20, keyed])) (·.status) = some 0 ∧
    after (exec (.len 0) (withBank ready .b64 [fresh 20, poisoned])) (·.status) = some 0 ∧
    [fresh 20, keyed].length = [fresh 20, poisoned].length ∧
    [fresh 20, keyed][(slotOf (.len 0)).toNat]? = [fresh 20, poisoned][(slotOf (.len 0)).toNat]? := by decide +kernel

theorem witness_ExecKeepsDevice : after (exec (.initk 1 64) ready) (·.src) = some (some [0, 1, 2, 3]) := by
  decide +kernel

theorem witness_LiveFlagRule :
    SlotIs ready 2 (Slot.reset .b64) ∧ after (exec (.copy 0 2) ready) (·.status) = some Status.ok.code ∧
    writtenSlot (.copy 0 2) = 2 ∧ SlotIs ready (writtenSlot (.init 2 1)) (Slot.reset .b64) ∧
    after (exec (.init 2 1) ready) (·.status) = some Status.ok.code ∧ constructs (.init 2 1) = true :=
  ⟨rfl, by decide +kernel, rfl, rfl, by decide +kernel, rfl⟩

theorem witness_DigestLengthAndKeyWriters :
    SlotIs readyKeyed 0 keyed ∧ after (exec (.upd1 0 1) readyKeyed) (·.status) = some 0 ∧
    constructs (.upd1 0 1) = false :=
  ⟨rfl, by decide +kernel, rfl⟩

theorem witness_ResultRegistersByCommand :
    after (exec (.len 0) ready) (·.resValue) = some 64 ∧ after (exec (.dig 0) (wide (fresh 1))) (·.resDlen) = some 1 := by
  decide +kernel

theorem witness_HiddenStateOnlyThroughDigests :
    List.Forall₂ PublicEq [fresh 64, poisoned] [keyed, { poisoned with kk := 3 }] ∧ digests (.len 0) = false ∧
    after (exec (.len 0) (withBank ready .b64 [fresh 64, poisoned])) (·.status) = some 0 ∧
    after (exec (.len 0) (withBank ready .b64 [keyed, { poisoned with kk := 3 }])) (·.status) = some 0 ∧
    guardOn .b64 ready.wideGuard = false :=
  ⟨.cons ⟨rfl, rfl, rfl⟩ (.cons ⟨rfl, rfl, rfl⟩ .nil), rfl, by decide +kernel, by decide +kernel, rfl⟩

theorem witness_StepKeepsSound :
    State.Sound { readyKeyed with port := [0x60000000#32] } ∧
    after (step { readyKeyed with port := [0x60000000#32] }) (·.resDlen) = some 64 := by decide +kernel

end Sys2Proof.Tests
end

section
/-! PROOFS. The invariant of the device (O55): what keeps a slot usable, which effects keep the device sound, then
the commands and the host's actions. -/

namespace Sys2Proof.Machine

variable {v : Variant}

/-! ### Usable slots -/

/-- A live slot is sound as soon as it is usable. -/
theorem Slot.Usable.sound {x : Slot v} (h : x.Usable) (hl : x.live = true) : x.Sound :=
  ⟨fun _ _ => h, fun _ => hl⟩

/-- A context reset makes a slot usable whose digest length and key are legal: the primed buffer is full, and the
unprimed one is empty and zero (40_lifecycle R103). -/
theorem Slot.resetCtx_usable {x : Slot v} (hn : 1 ≤ x.nn.toNat ∧ x.nn.toNat ≤ v.maxDigest)
    (hk : x.kk.toNat ≤ v.maxKey) (hkey : ∀ i : Fin v.maxKey, x.kk.toNat ≤ i.val → x.key[i] = 0) :
    x.resetCtx.Usable := by
  refine ⟨hn, hk, fun i hi => ?_, hkey, by simp⟩
  cases hx : x.keyed with
  | false => simp [hx]
  | true =>
    have hlt := i.isLt
    simp only [Slot.resetCtx_filled, hx, if_true, Fin.val_last] at hi
    omega

theorem Slot.Usable.resetCtx {x : Slot v} (h : x.Usable) : x.resetCtx.Usable := by
  obtain ⟨hn, hk, -, hkey, -⟩ := h
  exact Slot.resetCtx_usable hn hk hkey

theorem Slot.Usable.burn {x : Slot v} (h : x.Usable) : x.burn.Usable := by
  obtain ⟨hn, -⟩ := h
  exact Slot.resetCtx_usable hn (by simp) fun i _ => by simp

/-- A key that fits the key register has its length in `KK` unchanged. -/
theorem toNat_ofNat_keyLength {n : Nat} (h : n ≤ v.maxKey) : (BitVec.ofNat 8 n).toNat = n := by
  have hmax : v.maxKey < 2 ^ 8 := by cases v <;> decide
  simp only [BitVec.toNat_ofNat]
  exact Nat.mod_eq_of_lt (by omega)

theorem Slot.construct_usable (x : Slot v) {nn : Byte} {key : List Byte}
    (hn : 1 ≤ nn.toNat ∧ nn.toNat ≤ v.maxDigest) (hk : key.length ≤ v.maxKey) : (x.construct nn key).Usable := by
  have hlen := toNat_ofNat_keyLength hk
  refine Slot.resetCtx_usable hn (hlen.trans_le hk) fun i hi => ?_
  have hi : key.length ≤ i.val := hlen.symm.trans_le hi
  simp [hi]

/-- Appended bytes stand below the new `FILLED`, so the zeros from there on are the old ones. -/
theorem Slot.Usable.append {x : Slot v} (h : x.Usable) (D : List Byte) : (x.append D).Usable := by
  obtain ⟨hn, hk, hbuf, hkey, ht⟩ := h
  refine ⟨hn, hk, fun i hi => ?_, hkey, ht⟩
  have hlt := i.isLt
  have hi : min (x.filled.val + D.length) v.blockBytes ≤ i.val := hi
  have hx : x.filled.val ≤ i.val := by omega
  have hD : D.length ≤ i.val - x.filled.val := by omega
  simpa [Slot.append, Nat.not_lt.mpr hx, hD] using hbuf i hx

/-- Counting a whole block keeps the low counter word a multiple of the block size, also where it wraps: the block
size divides `2^W` (10_state R31). -/
theorem mod_blockBytes_add {t : Word v} (h : t.toNat % v.blockBytes = 0) :
    (t + BitVec.ofNat v.wordBits v.blockBytes).toNat % v.blockBytes = 0 := by
  have hdvd : v.blockBytes ∣ 2 ^ v.wordBits := by cases v <;> decide
  rw [BitVec.toNat_add, BitVec.toNat_ofNat, Nat.add_mod_mod, Nat.mod_mod_of_dvd _ hdvd, Nat.add_mod_right, h]

/-- A compression of a full buffer keeps the slot usable. -/
theorem Slot.Usable.compress {guard final : Bool} {x y : Slot v} (h : x.Usable)
    (hf : x.filled.val = v.blockBytes) (hc : x.compress guard final = some y) : y.Usable := by
  obtain ⟨hn, hk, -, hkey, ht⟩ := h
  obtain ⟨z, hz, rfl⟩ := Slot.compress_cases hc
  obtain rfl := Slot.advanceCounter_cases hz
  refine ⟨hn, hk, fun i _ => by simp, hkey, ?_⟩
  rw [hf]
  exact mod_blockBytes_add ht

theorem Slot.Usable.makeRoom {guard : Bool} {x y : Slot v} (h : x.Usable) (hr : x.makeRoom guard = some y) :
    y.Usable := by
  rcases Slot.makeRoom_cases hr with ⟨-, rfl⟩ | ⟨hf, hc⟩
  · exact h
  · exact h.compress hf hc

theorem Slot.Usable.absorbLoop {guard : Bool} (fuel : Nat) : ∀ (D : List Byte) {x y : Slot v}, x.Usable →
    Slot.absorbLoop guard fuel D x = some y → y.Usable := by
  induction fuel with
  | zero =>
    intro D x y h ha
    obtain rfl := Option.some.inj ha
    exact h
  | succ n ih =>
    intro D x y h ha
    cases D with
    | nil =>
      obtain rfl := Option.some.inj ha
      exact h
    | cons b D =>
      rw [Slot.absorbLoop_succ] at ha
      obtain ⟨z, hz, ha⟩ := Option.bind_eq_some_iff.mp ha
      exact ih _ ((h.makeRoom hz).append _) ha

theorem Slot.Usable.absorb {guard : Bool} {D : List Byte} {x y : Slot v} (h : x.Usable)
    (ha : x.absorb guard D = some y) : y.Usable :=
  Slot.Usable.absorbLoop _ D h ha

theorem Slot.Usable.absorbByte {guard : Bool} {b : Byte} {x y : Slot v} (h : x.Usable)
    (ha : x.absorbByte guard b = some y) : y.Usable := by
  obtain ⟨z, hz, rfl⟩ := Slot.absorbByte_cases ha
  exact (h.makeRoom hz).append _

theorem Slot.absorbByte_live {guard : Bool} {b : Byte} {x y : Slot v} (h : x.absorbByte guard b = some y) :
    y.live = x.live := by
  obtain ⟨z, hz, rfl⟩ := Slot.absorbByte_cases h
  exact (Slot.makeRoom_keeps hz).1

/-- The digest is no longer than `NN` says (42_digest R151). -/
theorem Slot.finalize_length {guard : Bool} {x y : Slot v} {out : List Byte}
    (h : x.finalize guard = some (out, y)) : out.length ≤ y.nn.toNat := by
  obtain ⟨z, -, rfl, rfl⟩ := Slot.finalize_cases h
  exact List.length_take_le _ _

/-! ### Legal results and effects -/

/-- Results that leave the result registers sound: `RES_DLEN` within the capacity of `RES_DATA`, and no more valid bytes
than it says (10_state R34). -/
def Results.Legal (r : Results) : Prop := r.dlen.toNat ≤ Config.resMax ∧ r.data.length ≤ r.dlen.toNat

theorem Results.legal_noBytes (e : Status) (x : BitVec 32) : Results.Legal ⟨e, x, 0, []⟩ := by
  simp [Results.Legal]

/-- An effect that keeps the device sound. -/
def Effect.Sound : Effect v → Prop
  | .write x r => x.Sound ∧ r.Legal
  | .report r => r.Legal
  | .guardTrip => True

theorem Slot.Sound.writeEffect {x : Slot v} (h : x.Sound) : (Effect.write x okResults).Sound :=
  ⟨h, Results.legal_noBytes _ _⟩

theorem updateEffect_sound {o : Option (Slot v)} (h : ∀ y, o = some y → y.Sound) : (updateEffect o).Sound := by
  cases o with
  | none => trivial
  | some y => exact (h y rfl).writeEffect

/-- Every legal digest length is within the capacity of `RES_DATA`. -/
theorem maxDigest_le_resMax (v : Variant) : v.maxDigest ≤ Config.resMax := by cases v <;> decide

/-- A digest command on a live usable slot, whatever bytes it has absorbed before. -/
theorem digestEffect_finalize_sound {guard : Bool} {x : Slot v} (h : x.Usable) (hl : x.live = true) :
    (digestEffect (x.finalize guard)).Sound := by
  cases hf : x.finalize guard with
  | none => trivial
  | some p =>
    obtain ⟨out, y⟩ := p
    have hlen := Slot.finalize_length hf
    obtain rfl := Slot.finalize_resets hf
    have hsound := h.resetCtx.sound hl
    obtain ⟨⟨-, hn⟩, -⟩ := h
    exact ⟨hsound, hn.trans (maxDigest_le_resMax v), hlen⟩

theorem digestEffect_absorbFinalize_sound {guard : Bool} {x : Slot v} (D : List Byte) (h : x.Usable)
    (hl : x.live = true) : (digestEffect (x.absorbFinalize guard D)).Sound := by
  unfold Slot.absorbFinalize
  cases ha : x.absorb guard D with
  | none => trivial
  | some y => exact digestEffect_finalize_sound (h.absorb ha) ((Slot.absorb_keeps ha).1.trans hl)

theorem updateEffect_absorb_sound {guard : Bool} {x : Slot v} (D : List Byte) (h : x.Usable) (hl : x.live = true) :
    (updateEffect (x.absorb guard D)).Sound :=
  updateEffect_sound fun _ ha => (h.absorb ha).sound ((Slot.absorb_keeps ha).1.trans hl)

theorem updateEffect_absorbByte_sound {guard : Bool} {x : Slot v} (b : Byte) (h : x.Usable) (hl : x.live = true) :
    (updateEffect (x.absorbByte guard b)).Sound :=
  updateEffect_sound fun _ ha => (h.absorbByte ha).sound ((Slot.absorbByte_live ha).trans hl)

/-! ### The device after an effect -/

theorem Status.code_le (e : Status) : e.code.toNat ≤ 6 := by cases e <;> decide

theorem State.Sound.complete {s : State} (hs : s.Sound) {r : Results} (hr : r.Legal) : (s.complete r).Sound := by
  obtain ⟨hn, hslots, hsrc, -, -, -, hport⟩ := hs
  obtain ⟨hd, hlen⟩ := hr
  refine ⟨hn, hslots, hsrc, r.status.code_le, hd, fun i hi => ?_, hport⟩
  have hi : r.data.length ≤ i.val := hlen.trans hi
  simp [hi]

theorem State.Sound.reportError {s : State} (hs : s.Sound) (e : Status) : (s.reportError e).Sound :=
  hs.complete (Results.legal_noBytes e 0)

theorem State.Sound.setSlot {s : State} (hs : s.Sound) (c : SlotId) {x : Slot s.variant} (hx : x.Sound) :
    (s.setSlot c x).Sound := by
  obtain ⟨hn, hslots, hrest⟩ := hs
  have hset : ∀ y ∈ s.bank.slots.set c.toNat x, y.Sound := by
    intro y hy
    rcases List.mem_or_eq_of_mem_set hy with hy | rfl
    · exact hslots y hy
    · exact hx
  exact ⟨by rwa [State.setSlot_nctx], hset, hrest⟩

theorem State.Sound.poisonSlot {s : State} (hs : s.Sound) (c : SlotId) : (s.poisonSlot c).Sound :=
  hs.setSlot c (x := Slot.unspecified s.variant true true s.freeDraws) ⟨fun _ hp => by simp at hp, fun _ => rfl⟩

theorem State.Sound.applyEffect {s : State} (hs : s.Sound) (c : SlotId) {e : Effect s.variant} (he : e.Sound) :
    (s.applyEffect c e).Sound := by
  cases e with
  | write x r =>
    obtain ⟨hx, hr⟩ := he
    exact (hs.setSlot c hx).complete hr
  | report r => exact hs.complete he
  | guardTrip => exact (hs.poisonSlot c).reportError _

/-! ### The entry of a command -/

theorem State.Sound.slot {s : State} (hs : s.Sound) {c : SlotId} {x : Slot s.variant} (hx : SlotIs s c x) :
    x.Sound := by
  obtain ⟨-, hslots, -⟩ := hs
  exact hslots x (List.mem_of_getElem? hx)

theorem State.Sound.withSlot {s t : State} (hs : s.Sound) {c : SlotId} {k : Slot s.variant → State}
    (hk : ∀ x, (k x).Sound) (h : s.withSlot c k = .next t) : t.Sound := by
  rcases State.withSlot_cases s c k with ⟨-, he⟩ | ⟨x, -, he⟩ <;>
    obtain rfl := Host.Outcome.next.inj (he.symm.trans h)
  · exact hs.reportError _
  · exact hk x

/-- A command on a ready slot keeps the device sound if it does so on each live usable slot. -/
theorem State.Sound.withReadySlot {s t : State} (hs : s.Sound) {c : SlotId} {k : Slot s.variant → State}
    (hk : ∀ x : Slot s.variant, x.Usable → x.live = true → (k x).Sound) (h : s.withReadySlot c k = .next t) :
    t.Sound := by
  rcases State.withReadySlot_cases s c k with ⟨-, he⟩ | ⟨x, -, -, he⟩ | ⟨x, -, -, -, he⟩ | ⟨x, ⟨hx, hl, hp⟩, he⟩ <;>
    obtain rfl := Host.Outcome.next.inj (he.symm.trans h)
  · exact hs.reportError _
  · exact hs.reportError _
  · exact hs.reportError _
  · obtain ⟨husable, -⟩ := hs.slot hx
    exact hk x (husable hl hp) hl

/-! ### Operands -/

/-- An accepted digest length is legal, and is the requested one (40_lifecycle R100). -/
theorem State.digestLengthOperand_cases {s : State} {nn m : Byte} (h : s.digestLengthOperand nn = .ok m) :
    m = nn ∧ 1 ≤ nn.toNat ∧ nn.toNat ≤ s.variant.maxDigest := by
  by_cases hn : 1 ≤ nn.toNat ∧ nn.toNat ≤ s.variant.maxDigest
  · rw [State.digestLengthOperand_ok hn] at h
    exact ⟨(Except.ok.inj h).symm, hn⟩
  · rw [State.digestLengthOperand_bad hn] at h
    cases h

/-- An accepted key fits, and the digest length is legal (40_lifecycle R101). -/
theorem State.keyOperand_cases {s : State} {nn : Byte} {K : List Byte} (h : s.keyOperand nn = .ok K) :
    (1 ≤ nn.toNat ∧ nn.toNat ≤ s.variant.maxDigest) ∧ K.length ≤ s.variant.maxKey := by
  cases hsrc : s.src with
  | none =>
    rw [State.keyOperand_absent nn hsrc] at h
    cases h
  | some D =>
    by_cases hb : ¬ (1 ≤ nn.toNat ∧ nn.toNat ≤ s.variant.maxDigest) ∨ s.variant.maxKey < D.length
    · rw [State.keyOperand_bad hsrc hb] at h
      cases h
    · obtain ⟨hn, hk⟩ := not_or.mp hb
      have hn := not_not.mp hn
      have hk := Nat.not_lt.mp hk
      rw [State.keyOperand_ok hsrc hn hk] at h
      obtain rfl := Except.ok.inj h
      exact ⟨hn, hk⟩

/-- `ALGORITHM_NAME` has at most 64 bytes (00_scope R5). -/
theorem algorithmName_results_legal (v : Variant) :
    (bytesResults (BitVec.ofNat 8 (Config.algorithmName v).length) (Config.algorithmName v)).Legal := by
  have hlen : (Config.algorithmName v).length ≤ 64 := by simp [Config.algorithmName]
  have hnat : (BitVec.ofNat 8 (Config.algorithmName v).length).toNat = (Config.algorithmName v).length := by
    simp only [BitVec.toNat_ofNat]
    omega
  exact ⟨hnat.trans_le hlen, hnat.ge⟩

/-! ### The commands -/

/-- Every legal command keeps the device sound. -/
theorem State.Sound.exec {s t : State} (hs : s.Sound) {i : Instr} (h : exec i s = .next t) : t.Sound := by
  cases i with
  | init c nn =>
    refine hs.withSlot (fun x => ?_) h
    split
    · exact hs.reportError _
    · next m hm =>
      obtain ⟨rfl, hn⟩ := State.digestLengthOperand_cases hm
      exact hs.applyEffect c ((x.construct_usable hn (by simp)).sound rfl).writeEffect
  | initk c nn =>
    refine hs.withSlot (fun x => ?_) h
    split
    · exact hs.reportError _
    · next K hK =>
      obtain ⟨hn, hk⟩ := State.keyOperand_cases hK
      exact hs.applyEffect c ((x.construct_usable hn hk).sound rfl).writeEffect
  | upd1 c b =>
    exact hs.withReadySlot (fun _ hu hl => hs.applyEffect c (updateEffect_absorbByte_sound b hu hl)) h
  | upd c | updr c _ _ =>
    refine hs.withReadySlot (fun x hu hl => ?_) h
    split
    · exact hs.reportError _
    · next D _ => exact hs.applyEffect c (updateEffect_absorb_sound D hu hl)
  | dig c =>
    exact hs.withReadySlot (fun _ hu hl => hs.applyEffect c (digestEffect_finalize_sound hu hl)) h
  | digb c | digr c _ _ =>
    refine hs.withReadySlot (fun x hu hl => ?_) h
    split
    · exact hs.reportError _
    · next D _ => exact hs.applyEffect c (digestEffect_absorbFinalize_sound D hu hl)
  | rst c =>
    exact hs.withReadySlot (fun _ hu hl => hs.applyEffect c (hu.resetCtx.sound hl).writeEffect) h
  | burn c =>
    exact hs.withReadySlot (fun _ hu hl => hs.applyEffect c (hu.burn.sound hl).writeEffect) h
  | len c =>
    exact hs.withReadySlot (fun _ _ _ => hs.complete (Results.legal_noBytes _ _)) h
  | copy c d =>
    have h : execCopy c d s = .next t := h
    unfold execCopy at h
    split at h
    · obtain rfl := Host.Outcome.next.inj h
      exact hs.reportError _
    · refine hs.withReadySlot (fun x hu hl => ?_) h
      split
      · exact hs.applyEffect d (hu.sound hl).writeEffect
      · exact hs.complete (Results.legal_noBytes _ _)
  | alg c =>
    exact hs.withReadySlot (fun _ _ _ => hs.complete (algorithmName_results_legal _)) h

/-! ### The port and the host -/

/-- The port holds the words of one command at most, so nothing is left once that one is taken. -/
theorem rest_eq_nil_of_takeCommand {ws mine rest : List CmdWord} (hp : portSound ws = true)
    (h : takeCommand ws = some (mine, rest)) : rest = [] := by
  obtain ⟨rfl, cw, ext, rfl, hlen⟩ := takeCommand_cases h
  simp only [List.cons_append, portSound, List.length_append, decide_eq_true_eq, List.length_cons] at hp hlen
  exact List.length_eq_zero_iff.mp (by omega)

/-- A word written while the command in the port lacks words completes it at most. -/
theorem portSound_append_word {ws : List CmdWord} (h : takeCommand ws = none) (w : CmdWord) :
    portSound (ws ++ [w]) = true := by
  cases ws with
  | nil => simpa [portSound] using commandWords_pos w
  | cons cw tail =>
    have hlt := (takeCommand_none_iff _).mp h cw tail rfl
    simp only [List.cons_append, portSound, List.length_append, decide_eq_true_eq, List.length_cons] at hlt ⊢
    simpa using hlt

theorem State.Sound.deviceReset {s : State} (hs : s.Sound) : s.deviceReset.Sound := by
  obtain ⟨hn, -⟩ := hs
  have hslots : ∀ x ∈ s.deviceReset.bank.slots, x.Sound := by
    intro x hx
    obtain ⟨i, -, rfl⟩ := List.mem_map.mp hx
    exact ⟨fun hl => by simp at hl, fun hp => by simp at hp⟩
  exact ⟨by simpa [State.nctx, State.deviceReset] using hn, hslots, rfl, by simp [State.deviceReset],
    by simp [State.deviceReset], fun i _ => by simp [State.deviceReset], rfl⟩

/-- An action of the host keeps the device sound while the port holds no complete command. -/
theorem State.Sound.hostStep {s t : State} (hs : s.Sound) (hport : takeCommand s.port = none)
    (h : s.hostStep = .next t) : t.Sound := by
  rcases hostStep_cases h with ⟨-, rfl⟩ | ⟨w, rest, -, rfl⟩ | ⟨b, rest, -, hb, rfl⟩ | ⟨rest, -, rfl⟩
  · exact hs
  · obtain ⟨hn, hslots, hsrc, hst, hd, hdata, -⟩ := hs
    exact ⟨hn, hslots, hsrc, hst, hd, hdata, portSound_append_word hport w⟩
  · obtain ⟨hn, hslots, -, hrest⟩ := hs
    exact ⟨hn, hslots, hb, hrest⟩
  · exact State.Sound.deviceReset (s := { s with host := rest }) hs

/-- Taking the words of a command from the port leaves it sound. -/
theorem State.Sound.takePort {s : State} (hs : s.Sound) {ws rest : List CmdWord}
    (h : takeCommand s.port = some (ws, rest)) : State.Sound { s with port := rest } := by
  obtain ⟨hn, hslots, hsrc, hst, hd, hdata, hport⟩ := hs
  obtain rfl := rest_eq_nil_of_takeCommand hport h
  exact ⟨hn, hslots, hsrc, hst, hd, hdata, rfl⟩

/-- Settles O55: a step executes a legal command, reports illegal words, or takes an action of the host, and each of
these keeps the device sound. -/
theorem stepKeepsSound : Obligations.StepKeepsSound := by
  intro s t hs h
  rcases step_cases h with ⟨ws, rest, htake, ⟨i, -, hexec⟩ | ⟨-, rfl⟩⟩ | ⟨hport, hhost⟩
  · exact (hs.takePort htake).exec hexec
  · exact (hs.takePort htake).reportError _
  · exact hs.hostStep hport hhost

end Sys2Proof.Machine
end

section
/-! PROOFS. A command reads and writes only its own slot (O48): every command is an effect on the slot it may write, and
that effect is a function of the slot it names. -/

namespace Sys2Proof.Machine

open Sys2Proof.Claims

variable {v : Variant}

/-! ### The effect of a command as a function of its slot -/

/-- The effect of a command on a slot in any condition, from what the device holds there (`State.withSlot`). -/
def slotEffect (g : Slot v → Effect v) : Option (Slot v) → Effect v
  | none => .report (errorResults .illegalCommand)
  | some x => g x

/-- The effect of a command that first passes the entry checks (`State.withReadySlot`). -/
def readyEffect (g : Slot v → Effect v) : Option (Slot v) → Effect v :=
  slotEffect fun x =>
    match x.entryCheck with
    | some e => .report (errorResults e)
    | none => g x

/-- The effect of a command with an operand, which may be refused. -/
def operandEffect {α : Type} (g : α → Effect v) : Except Status α → Effect v
  | .error e => .report (errorResults e)
  | .ok a => g a

/-- A command that looks at slot `c` and has an effect on slot `d` (they differ for `COPY` alone). -/
theorem State.withSlot_eq_applyEffect {s : State} (c d : SlotId) {k : Slot s.variant → State}
    {g : Slot s.variant → Effect s.variant} (hk : ∀ x, k x = s.applyEffect d (g x)) :
    s.withSlot c k = .next (s.applyEffect d (slotEffect g s.bank.slots[c.toNat]?)) := by
  rcases hx : s.bank.slots[c.toNat]? with _ | x
  · exact State.withSlot_none (List.getElem?_eq_none_iff.mp hx) k
  · rw [State.withSlot_some hx, hk]
    rfl

theorem State.withReadySlot_eq_applyEffect {s : State} (c d : SlotId) {k : Slot s.variant → State}
    {g : Slot s.variant → Effect s.variant} (hk : ∀ x, k x = s.applyEffect d (g x)) :
    s.withReadySlot c k = .next (s.applyEffect d (readyEffect g s.bank.slots[c.toNat]?)) := by
  refine State.withSlot_eq_applyEffect c d fun x => ?_
  cases x.entryCheck with
  | some e => rfl
  | none => exact hk x

/-- The effect of `COPY c, d` on slot `d`, from what the device of `n` slots holds in slot `c` (40_lifecycle R106). -/
def copyEffect (n : Nat) (c d : SlotId) : Option (Slot v) → Effect v :=
  if n ≤ d.toNat then fun _ => .report (errorResults .illegalCommand)
  else readyEffect fun x => if d ≠ c then .write x okResults else .report okResults

theorem execCopy_eq_applyEffect (s : State) (c d : SlotId) :
    execCopy c d s = .next (s.applyEffect d (copyEffect s.nctx c d s.bank.slots[c.toNat]?)) := by
  unfold execCopy copyEffect
  split
  · rfl
  · exact State.withReadySlot_eq_applyEffect c d fun x => by split <;> rfl

/-- The effect of each command, from what the device holds in the slot it names: a function of the variant, the
parameters and `SRC`, and for `COPY` of the number of slots. -/
def commandEffect (s : State) : Instr → Option (Slot s.variant) → Effect s.variant
  | .init _ nn => slotEffect fun x =>
      operandEffect (fun nn => .write (x.construct nn []) okResults) (s.digestLengthOperand nn)
  | .initk _ nn => slotEffect fun x =>
      operandEffect (fun K => .write (x.construct nn K) okResults) (s.keyOperand nn)
  | .upd1 _ b => readyEffect fun x => updateEffect (x.absorbByte s.guard b)
  | .upd _ => readyEffect fun x => operandEffect (fun D => updateEffect (x.absorb s.guard D)) s.wholeSource
  | .updr _ off len => readyEffect fun x =>
      operandEffect (fun D => updateEffect (x.absorb s.guard D)) (s.sourceWindow off len)
  | .dig _ => readyEffect fun x => digestEffect (x.finalize s.guard)
  | .digb _ => readyEffect fun x => operandEffect (fun D => digestEffect (x.absorbFinalize s.guard D)) s.wholeSource
  | .digr _ off len => readyEffect fun x =>
      operandEffect (fun D => digestEffect (x.absorbFinalize s.guard D)) (s.sourceWindow off len)
  | .rst _ => readyEffect fun x => .write x.resetCtx okResults
  | .burn _ => readyEffect fun x => .write x.burn okResults
  | .len _ => readyEffect fun x => .report (valueResults (x.nn.setWidth 32))
  | .copy c d => copyEffect s.nctx c d
  | .alg _ => readyEffect fun _ => .report (bytesResults (BitVec.ofNat 8 (Config.algorithmName s.variant).length)
      (Config.algorithmName s.variant))

/-- Every command ends with an effect on the slot it may write, a function of what stands in the slot it names
(20_memory R60). -/
theorem exec_eq_applyEffect (s : State) (i : Instr) :
    exec i s = .next (s.applyEffect (writtenSlot i) (commandEffect s i s.bank.slots[(slotOf i).toNat]?)) := by
  cases i with
  | init c nn => exact State.withSlot_eq_applyEffect c c fun x => by cases s.digestLengthOperand nn <;> rfl
  | initk c nn => exact State.withSlot_eq_applyEffect c c fun x => by cases s.keyOperand nn <;> rfl
  | upd c | digb c => exact State.withReadySlot_eq_applyEffect c c fun x => by cases s.wholeSource <;> rfl
  | updr c off len | digr c off len =>
    exact State.withReadySlot_eq_applyEffect c c fun x => by cases s.sourceWindow off len <;> rfl
  | upd1 c _ | dig c | rst c | burn c | len c | alg c =>
    exact State.withReadySlot_eq_applyEffect c c fun _ => rfl
  | copy c d => exact execCopy_eq_applyEffect s c d

/-- Of the slots themselves the effect of a command uses no more than how many they are. -/
theorem commandEffect_withBank_congr {s : State} {xs ys : List (Slot v)} (hlen : xs.length = ys.length) (i : Instr) :
    commandEffect (withBank s v xs) i = commandEffect (withBank s v ys) i := by
  cases i with
  | copy c d => exact congrArg (copyEffect · c d) hlen
  | _ => rfl

/-! ### What an effect reads and writes -/

/-- An effect on a slot leaves every other slot as before. -/
theorem State.slot?_applyEffect_ne (s : State) {c d : SlotId} (hd : d ≠ c) (e : Effect s.variant) :
    (s.applyEffect c e).slot? d = s.slot? d := by
  cases e with
  | write x r => exact State.slot?_setSlot_ne x hd
  | report r => rfl
  | guardTrip => exact State.slot?_setSlot_ne (Slot.unspecified s.variant true true s.freeDraws) hd

/-- The results of an effect do not depend on the slots. -/
theorem observe_applyEffect_withBank (s : State) (xs ys : List (Slot v)) (c : SlotId) (e : Effect v) :
    ((withBank s v xs).applyEffect c e).observe = ((withBank s v ys).applyEffect c e).observe := by
  cases e <;> rfl

/-- The slots of two devices of one variant are alike where their lists are. -/
theorem slot?_withBank_congr {s : State} {xs ys : List (Slot v)} {c : SlotId} (h : xs[c.toNat]? = ys[c.toNat]?) :
    (withBank s v xs).slot? c = (withBank s v ys).slot? c :=
  congrArg (Option.map (Sigma.mk v)) h

/-- A written slot is alike on two devices that both have it or both lack it. -/
theorem slot?_setSlot_withBank_congr {s : State} {xs ys : List (Slot v)} {c : SlotId} (x : Slot v)
    (h : xs[c.toNat]? = ys[c.toNat]?) :
    ((withBank s v xs).setSlot c x).slot? c = ((withBank s v ys).setSlot c x).slot? c := by
  have hset : (xs.set c.toNat x)[c.toNat]? = (ys.set c.toNat x)[c.toNat]? := by
    rw [List.getElem?_set_self', List.getElem?_set_self', h]
  exact slot?_withBank_congr hset

/-- One effect leaves its slot alike on two devices that agree in it, the free contents of a tripped guard included:
both devices draw the same number (60_exceptions R229). -/
theorem slot?_applyEffect_withBank_congr {s : State} {xs ys : List (Slot v)} {c : SlotId} (e : Effect v)
    (h : xs[c.toNat]? = ys[c.toNat]?) :
    ((withBank s v xs).applyEffect c e).slot? c = ((withBank s v ys).applyEffect c e).slot? c := by
  cases e with
  | write x r => exact slot?_setSlot_withBank_congr x h
  | report r => exact slot?_withBank_congr (s := s) h
  | guardTrip => exact slot?_setSlot_withBank_congr (Slot.unspecified v true true s.freeDraws) h

/-! ### The commands -/

/-- A command writes no slot but its own. -/
theorem exec_slot?_ne {s t : State} {i : Instr} (h : exec i s = .next t) {d : SlotId} (hd : d ≠ writtenSlot i) :
    t.slot? d = s.slot? d := by
  obtain rfl := Host.Outcome.next.inj ((exec_eq_applyEffect s i).symm.trans h)
  exact State.slot?_applyEffect_ne _ hd _

/-- Only `COPY` writes another slot than it names. -/
theorem writtenSlot_eq_or_copy (i : Instr) : writtenSlot i = slotOf i ∨ ∃ c d, i = .copy c d ∧ d ≠ c := by
  cases i with
  | copy c d => exact (eq_or_ne d c).imp id fun h => ⟨c, d, rfl, h⟩
  | _ => exact .inl rfl

/-- No error has the code of `OK` (60_exceptions R220). -/
theorem Status.code_ne_ok {e : Status} (h : e ≠ .ok) : e.code ≠ Status.ok.code := by
  cases e with
  | ok => exact absurd rfl h
  | _ => decide

/-- A `COPY` to another slot that completes has left its source's contents in its destination (40_lifecycle R106). -/
theorem execCopy_ok_cases {s t : State} {c d : SlotId} (h : execCopy c d s = .next t) (hdc : d ≠ c)
    (hok : t.status = Status.ok.code) : ∃ x, SlotIs s c x ∧ t.slot? d = some ⟨s.variant, x⟩ := by
  have hne : ∀ e : Status, e ≠ .ok → t ≠ s.reportError e := fun e he ht =>
    Status.code_ne_ok he ((congrArg State.status ht).symm.trans hok)
  by_cases hd : s.nctx ≤ d.toNat
  · rw [execCopy, if_pos hd] at h
    exact absurd (Host.Outcome.next.inj h).symm (hne .illegalCommand (by decide))
  · simp only [execCopy, if_neg hd, if_pos hdc] at h
    rcases State.withReadySlot_cases s c _ with ⟨-, he⟩ | ⟨x, -, -, he⟩ | ⟨x, -, -, -, he⟩ | ⟨x, ⟨hx, -⟩, he⟩ <;>
      have ht := Host.Outcome.next.inj (h.symm.trans he)
    · exact absurd ht (hne .illegalCommand (by decide))
    · exact absurd ht (hne .noInstance (by decide))
    · exact absurd ht (hne .illegalState (by decide))
    · subst ht
      exact ⟨x, hx, State.slot?_setSlot_self x (Nat.not_le.mp hd)⟩

section agree
variable {s t u : State} {i : Instr} {xs ys : List (Slot v)}

/-- On two devices that agree in the slot a command names, it gives the same results and leaves that slot alike. -/
theorem exec_withBank_agree (hlen : xs.length = ys.length)
    (hslot : xs[(slotOf i).toNat]? = ys[(slotOf i).toNat]?)
    (ht : exec i (withBank s v xs) = .next t) (hu : exec i (withBank s v ys) = .next u) :
    t.observe = u.observe ∧ t.slot? (slotOf i) = u.slot? (slotOf i) := by
  have heff : commandEffect (withBank s v xs) i xs[(slotOf i).toNat]? =
      commandEffect (withBank s v ys) i ys[(slotOf i).toNat]? :=
    congr (commandEffect_withBank_congr hlen i) hslot
  have hxs : exec i (withBank s v xs) = .next ((withBank s v xs).applyEffect (writtenSlot i)
      (commandEffect (withBank s v ys) i ys[(slotOf i).toNat]?)) :=
    heff ▸ exec_eq_applyEffect _ i
  obtain rfl := Host.Outcome.next.inj (hxs.symm.trans ht)
  obtain rfl := Host.Outcome.next.inj ((exec_eq_applyEffect _ i).symm.trans hu)
  refine ⟨observe_applyEffect_withBank s xs ys _ _, ?_⟩
  by_cases hw : slotOf i = writtenSlot i
  · rw [hw] at hslot ⊢
    exact slot?_applyEffect_withBank_congr _ hslot
  · calc
      _ = (withBank s v xs).slot? (slotOf i) := State.slot?_applyEffect_ne _ hw _
      _ = (withBank s v ys).slot? (slotOf i) := slot?_withBank_congr hslot
      _ = _ := (State.slot?_applyEffect_ne _ hw _).symm

/-- On two such devices a command that completes writes the same contents. -/
theorem exec_withBank_agree_written (hlen : xs.length = ys.length)
    (hslot : xs[(slotOf i).toNat]? = ys[(slotOf i).toNat]?)
    (ht : exec i (withBank s v xs) = .next t) (hu : exec i (withBank s v ys) = .next u)
    (hok : t.status = Status.ok.code) : t.slot? (writtenSlot i) = u.slot? (writtenSlot i) := by
  obtain ⟨hobs, hown⟩ := exec_withBank_agree hlen hslot ht hu
  obtain hw | ⟨c, d, rfl, hdc⟩ := writtenSlot_eq_or_copy i
  · rwa [hw]
  · have hstatus : t.status = u.status := congrArg Observation.status hobs
    obtain ⟨x, hx, htd⟩ := execCopy_ok_cases ht hdc hok
    obtain ⟨y, hy, hud⟩ := execCopy_ok_cases hu hdc (hstatus.symm.trans hok)
    obtain rfl : x = y := Option.some.inj (hx.symm.trans (hslot.trans hy))
    exact htd.trans hud.symm

end agree

/-- Settles O48: a command ends with an effect on the slot it may write, and the effect is a function of the slot it
names. -/
theorem slotIndependence : Obligations.SlotIndependence := by
  refine ⟨fun _ _ _ h _ hd => exec_slot?_ne h hd, fun _ _ _ _ _ _ _ hlen hslot ht hu => ?_⟩
  obtain ⟨hobs, hown⟩ := exec_withBank_agree hlen hslot ht hu
  exact ⟨hobs, hown, exec_withBank_agree_written hlen hslot ht hu⟩

end Sys2Proof.Machine
end

section
/-! PROOFS. Encoding and decoding (O1, O2, O4): the decoder inverts the encoder; a framed word that is legal by
30_encoding R80 is the encoding of a well-formed command; and the decoder rejects the illegal ones. -/

namespace Sys2Proof

open Sys2Proof.Claims Sys2Proof.Machine

/-! ### The fields of a command word as numbers (30_encoding R71) -/

section fields
variable (cw : CmdWord)

theorem opField_toNat : (opField cw).toNat = cw.toNat / 2 ^ 28 := by
  rw [opField, BitVec.extractLsb'_toNat, Nat.shiftRight_eq_div_pow]
  omega

theorem ctxField_toNat : (ctxField cw).toNat = cw.toNat / 2 ^ 24 % 16 := by
  rw [ctxField, BitVec.extractLsb'_toNat, Nat.shiftRight_eq_div_pow]

theorem rsvdField_toNat : (rsvdField cw).toNat = cw.toNat / 2 ^ 8 % 2 ^ 16 := by
  rw [rsvdField, BitVec.extractLsb'_toNat, Nat.shiftRight_eq_div_pow]

theorem imm8Field_toNat : (imm8Field cw).toNat = cw.toNat % 2 ^ 8 := by
  rw [imm8Field, BitVec.extractLsb'_toNat, Nat.shiftRight_zero]

/-- The low half of the immediate. -/
theorem dstField_toNat : (dstField cw).toNat = cw.toNat % 2 ^ 8 % 16 := by
  rw [dstField, BitVec.extractLsb'_toNat, Nat.shiftRight_zero]
  omega

/-- The high half of an immediate. -/
theorem highHalf_toNat (imm : Byte) : (imm.extractLsb' 4 4).toNat = imm.toNat / 16 := by
  rw [BitVec.extractLsb'_toNat, Nat.shiftRight_eq_div_pow]
  omega

end fields

/-- The four fields make up the whole word. -/
theorem eq_of_fields {a b : CmdWord} (hop : opField a = opField b) (hctx : ctxField a = ctxField b)
    (hrsvd : rsvdField a = rsvdField b) (himm : imm8Field a = imm8Field b) : a = b := by
  replace hop := congrArg BitVec.toNat hop
  replace hctx := congrArg BitVec.toNat hctx
  replace hrsvd := congrArg BitVec.toNat hrsvd
  replace himm := congrArg BitVec.toNat himm
  rw [opField_toNat, opField_toNat] at hop
  rw [ctxField_toNat, ctxField_toNat] at hctx
  rw [rsvdField_toNat, rsvdField_toNat] at hrsvd
  rw [imm8Field_toNat, imm8Field_toNat] at himm
  exact BitVec.eq_of_toNat_eq (by omega)

/-! ### The destination of `COPY` (30_encoding R76) -/

@[simp] theorem highHalf_setWidth (d : SlotId) : (d.setWidth 8).extractLsb' 4 4 = 0#4 := by
  apply BitVec.eq_of_toNat_eq
  rw [highHalf_toNat, BitVec.toNat_setWidth, BitVec.toNat_ofNat]
  omega

@[simp] theorem dstField_commandWord_setWidth (op : BitVec 4) (c d : SlotId) :
    dstField (commandWord op c (d.setWidth 8)) = d := by
  rw [dstField_eq, imm8Field_commandWord]
  apply BitVec.eq_of_toNat_eq
  rw [BitVec.extractLsb'_toNat, BitVec.toNat_setWidth, Nat.shiftRight_zero]
  omega

/-- An immediate whose high half is zero is its low half, widened. -/
theorem imm8Field_eq_setWidth_dstField {cw : CmdWord} (h : (imm8Field cw).extractLsb' 4 4 = 0#4) :
    imm8Field cw = (dstField cw).setWidth 8 := by
  replace h := congrArg BitVec.toNat h
  rw [highHalf_toNat, imm8Field_toNat, BitVec.toNat_ofNat] at h
  apply BitVec.eq_of_toNat_eq
  rw [BitVec.toNat_setWidth, dstField_toNat, imm8Field_toNat]
  omega

/-! ### The extension words (30_encoding R77) -/

/-- An operand of 32 signed bits is the number its extension word stands for. -/
theorem extensionWord_toInt {x : Int} (h : isSigned32 x = true) : (extensionWord x).toInt = x := by
  rw [isSigned32, decide_eq_true_eq] at h
  rw [extensionWord, BitVec.toInt_ofInt, Int.bmod_eq_of_le (by omega) (by omega)]

@[simp] theorem extensionWord_of_toInt (x : CmdWord) : extensionWord x.toInt = x := BitVec.ofInt_toInt

theorem isSigned32_toInt (x : CmdWord) : isSigned32 x.toInt = true := by
  have hlo := x.le_toInt
  have hhi := x.toInt_lt
  rw [isSigned32, decide_eq_true_eq]
  omega

/-! ### The parts of an encoding -/

/-- The immediate of a command (30_encoding R76). -/
def immOf : Instr → Byte
  | .init _ nn | .initk _ nn => nn
  | .upd1 _ b => b
  | .copy _ d => d.setWidth 8
  | _ => 0

/-- The extension words of a command (30_encoding R77). -/
def extensionsOf : Instr → List CmdWord
  | .updr _ off len | .digr _ off len => [extensionWord off, extensionWord len]
  | _ => []

/-- An encoding is one command word, made of the opcode, the slot and the immediate, and the extension words. -/
theorem encode_eq (i : Instr) : encode i = commandWord (opOf i) (slotOf i) (immOf i) :: extensionsOf i := by
  cases i <;> rfl

/-- The words whose fields are the parts of a command, the reserved bits zero, are its encoding. -/
theorem encode_eq_of_fields {i : Instr} {cw : CmdWord} {ext : List CmdWord} (hrsvd : rsvdField cw = 0)
    (hop : opField cw = opOf i) (hctx : ctxField cw = slotOf i) (himm : imm8Field cw = immOf i)
    (hext : ext = extensionsOf i) : encode i = cw :: ext := by
  have hcw : commandWord (opOf i) (slotOf i) (immOf i) = cw := by
    apply eq_of_fields <;> simp [hop, hctx, himm, hrsvd]
  rw [encode_eq, hcw, hext]

theorem opOf_not_reserved (i : Instr) : isReservedOp (opOf i) = false := by
  cases i <;> rfl

theorem slotOf_lt_of_wellFormed {nctx : Nat} {i : Instr} (h : wellFormed nctx i = true) :
    (slotOf i).toNat < nctx := by
  cases i with
  | updr c off len | digr c off len =>
    simp only [wellFormed, Bool.and_eq_true] at h
    obtain ⟨⟨hc, -⟩, -⟩ := h
    exact of_decide_eq_true hc
  | copy c d =>
    simp only [wellFormed, Bool.and_eq_true] at h
    obtain ⟨hc, -⟩ := h
    exact of_decide_eq_true hc
  | _ => exact of_decide_eq_true h

/-! ### The decoder inverts the encoder -/

/-- The opcode map finds each command from the parts of its encoding. -/
theorem decodeOp_parts {nctx : Nat} {i : Instr} (h : wellFormed nctx i = true) :
    decodeOp nctx (commandWord (opOf i) (slotOf i) (immOf i)) (extensionsOf i) = .ok i := by
  cases i with
  | init c imm | initk c imm | upd1 c imm => simp [decodeOp, opOf, slotOf, immOf]
  | upd c | dig c | digb c | rst c | burn c | len c | alg c =>
    simp [decodeOp, decodePlain, opOf, slotOf, immOf]
  | updr c off len | digr c off len =>
    simp only [wellFormed, Bool.and_eq_true] at h
    obtain ⟨⟨-, hoff⟩, hlen⟩ := h
    simp [decodeOp, decodeWindow, decodePlain, opOf, slotOf, immOf, extensionsOf, extensionWord_toInt hoff,
      extensionWord_toInt hlen]
  | copy c d =>
    simp only [wellFormed, slotExists, Bool.and_eq_true, decide_eq_true_eq] at h
    obtain ⟨-, hd⟩ := h
    simp [decodeOp, decodeCopy, opOf, slotOf, immOf, hd]

/-- Settles O1: the encoding passes the common checks, and the opcode map finds the command from its fields. -/
theorem decodeInvertsEncode : Obligations.DecodeInvertsEncode := by
  intro nctx i h
  calc decode nctx (encode i)
      = decode nctx (commandWord (opOf i) (slotOf i) (immOf i) :: extensionsOf i) := by rw [encode_eq]
    _ = decodeOp nctx (commandWord (opOf i) (slotOf i) (immOf i)) (extensionsOf i) :=
        decode_eq_decodeOp _ (by simp [opOf_not_reserved]) (by simp) (by simpa using slotOf_lt_of_wellFormed h)
    _ = .ok i := decodeOp_parts h

/-! ### Illegal words (30_encoding R80) -/

/-- R80 over the fields of the word. -/
theorem illegalWord_iff (nctx : Nat) (cw : CmdWord) :
    IllegalWord nctx cw ↔
      isReservedOp (opField cw) = true ∨ rsvdField cw ≠ 0 ∨ nctx ≤ (ctxField cw).toNat ∨
      (¬ takesImmediate (opField cw).toNat ∧ imm8Field cw ≠ 0) ∨
      (opField cw = 0xC#4 ∧ ((imm8Field cw).extractLsb' 4 4 ≠ 0 ∨ nctx ≤ (dstField cw).toNat)) := by
  simp only [IllegalWord, isReservedOp, Bool.or_eq_true, beq_iff_eq, or_assoc, ne_eq, ← BitVec.toNat_inj,
    highHalf_toNat, opField_toNat, ctxField_toNat, rsvdField_toNat, imm8Field_toNat, dstField_toNat]
  rfl

section illegal
variable {nctx : Nat} {cw : CmdWord}

theorem decodePlain_error {imm : Byte} (h : imm ≠ 0) (i : Instr) :
    decodePlain imm i = .error .immediateNotZero := if_pos h

theorem decodeWindow_error {imm : Byte} (h : imm ≠ 0) (ext : List CmdWord) (mk : Int → Int → Instr) :
    ∃ e, decodeWindow imm ext mk = .error e := by
  unfold decodeWindow
  split
  · exact ⟨_, decodePlain_error h _⟩
  · exact ⟨_, rfl⟩

theorem decodeCopy_error {c : SlotId}
    (h : (imm8Field cw).extractLsb' 4 4 ≠ 0 ∨ nctx ≤ (dstField cw).toNat) :
    ∃ e, decodeCopy nctx cw c = .error e := by
  by_cases himm : (imm8Field cw).extractLsb' 4 4 ≠ 0
  · exact ⟨_, if_pos himm⟩
  · exact ⟨_, (if_neg himm).trans (if_pos (h.resolve_left himm))⟩

/-- The opcode map rejects an immediate where the opcode takes none (30_encoding R75). -/
theorem decodeOp_error_of_immediate (hop : ¬ takesImmediate (opField cw).toNat) (himm : imm8Field cw ≠ 0)
    (ext : List CmdWord) : ∃ e, decodeOp nctx cw ext = .error e := by
  unfold takesImmediate at hop
  unfold decodeOp
  split
  case h_1 | h_2 | h_3 | h_12 => omega
  case h_5 | h_8 => exact decodeWindow_error himm ext _
  case h_14 => exact ⟨_, rfl⟩
  all_goals exact ⟨_, decodePlain_error himm _⟩

/-- The decoder rejects every illegal word. -/
theorem decode_error_of_illegalWord (h : IllegalWord nctx cw) (ext : List CmdWord) :
    ∃ e, decode nctx (cw :: ext) = .error e := by
  simp only [decode]
  split_ifs with hres hrsvd hctx
  · exact ⟨_, rfl⟩
  · exact ⟨_, rfl⟩
  · exact ⟨_, rfl⟩
  · obtain h | h | h | ⟨hop, himm⟩ | ⟨hop, hcopy⟩ := (illegalWord_iff nctx cw).mp h
    · exact absurd h hres
    · exact absurd h hrsvd
    · exact absurd h hctx
    · exact decodeOp_error_of_immediate hop himm ext
    · simpa [decodeOp, hop] using decodeCopy_error hcopy

end illegal

/-! ### Legal words -/

/-- The opcodes of operations (30_encoding R79): those with an immediate, with a destination slot, with a window, and
with neither. -/
theorem opcode_kinds (op : BitVec 4) (h : isReservedOp op = false) :
    (op = 0x1 ∨ op = 0x2 ∨ op = 0x3) ∨ op = 0xC ∨ (op = 0x5 ∨ op = 0x8) ∨
      (op = 0x4 ∨ op = 0x6 ∨ op = 0x7 ∨ op = 0x9 ∨ op = 0xA ∨ op = 0xB ∨ op = 0xD) := by
  decide +revert

section legal
variable {nctx : Nat} {cw : CmdWord} {ext : List CmdWord}

/-- A one-word command is framed with no extension words. -/
theorem extensions_nil (hlen : ext.length + 1 = commandWords cw)
    (hop : (opField cw).toNat ≠ 0x5 ∧ (opField cw).toNat ≠ 0x8) : ext = [] := by
  rw [commandWords] at hlen
  split at hlen
  · omega
  · omega
  · exact List.length_eq_zero_iff.mp (by omega)

/-- A three-word command is framed with two extension words, those of the operands they stand for. -/
theorem extensions_window (hlen : ext.length + 1 = commandWords cw) (hop : opField cw = 0x5 ∨ opField cw = 0x8) :
    ∃ off len : Int, isSigned32 off = true ∧ isSigned32 len = true ∧
      ext = [extensionWord off, extensionWord len] := by
  have hwords : commandWords cw = 3 := by rcases hop with hop | hop <;> simp [commandWords, hop]
  obtain ⟨x1, x2, rfl⟩ := List.length_eq_two.mp (show ext.length = 2 by omega)
  exact ⟨x1.toInt, x2.toInt, isSigned32_toInt x1, isSigned32_toInt x2, by simp⟩

section kinds
variable (hlen : ext.length + 1 = commandWords cw) (hrsvd : rsvdField cw = 0)
  (hslot : slotExists nctx (ctxField cw) = true)
include hlen hrsvd hslot

/-- Every word of `INIT`, `INITK` and `UPD1` on a slot that exists is legal. -/
theorem exists_encode_immediate (hop : opField cw = 0x1 ∨ opField cw = 0x2 ∨ opField cw = 0x3) :
    ∃ i, wellFormed nctx i = true ∧ encode i = cw :: ext := by
  have hext : ext = [] := extensions_nil hlen (by rcases hop with h | h | h <;> simp [h])
  obtain hop | hop | hop := hop
  · exact ⟨.init (ctxField cw) (imm8Field cw), hslot, encode_eq_of_fields hrsvd hop rfl rfl hext⟩
  · exact ⟨.initk (ctxField cw) (imm8Field cw), hslot, encode_eq_of_fields hrsvd hop rfl rfl hext⟩
  · exact ⟨.upd1 (ctxField cw) (imm8Field cw), hslot, encode_eq_of_fields hrsvd hop rfl rfl hext⟩

/-- Every word of `COPY` on a slot that exists is legal when its immediate is a slot that exists. -/
theorem exists_encode_copy (hop : opField cw = 0xC) (hhigh : (imm8Field cw).extractLsb' 4 4 = 0)
    (hdst : (dstField cw).toNat < nctx) : ∃ i, wellFormed nctx i = true ∧ encode i = cw :: ext := by
  have hext : ext = [] := extensions_nil hlen (by simp [hop])
  refine ⟨.copy (ctxField cw) (dstField cw), ?_, ?_⟩
  · rw [wellFormed, hslot, Bool.true_and]
    exact decide_eq_true hdst
  · exact encode_eq_of_fields hrsvd hop rfl (imm8Field_eq_setWidth_dstField hhigh) hext

/-- Every word of `UPDR` and `DIGR` on a slot that exists is legal when its immediate is zero, whatever the extension
words. -/
theorem exists_encode_window (hop : opField cw = 0x5 ∨ opField cw = 0x8) (himm : imm8Field cw = 0) :
    ∃ i, wellFormed nctx i = true ∧ encode i = cw :: ext := by
  obtain ⟨off, len, hoff, hwidth, hext⟩ := extensions_window hlen hop
  have hwf : (slotExists nctx (ctxField cw) && isSigned32 off && isSigned32 len) = true := by
    rw [hslot, hoff, hwidth]; rfl
  obtain hop | hop := hop
  · exact ⟨.updr (ctxField cw) off len, hwf, encode_eq_of_fields hrsvd hop rfl himm hext⟩
  · exact ⟨.digr (ctxField cw) off len, hwf, encode_eq_of_fields hrsvd hop rfl himm hext⟩

/-- Every word of another operation without immediate, on a slot that exists, is legal when its immediate is zero. -/
theorem exists_encode_plain (hop : opField cw = 0x4 ∨ opField cw = 0x6 ∨ opField cw = 0x7 ∨ opField cw = 0x9 ∨
      opField cw = 0xA ∨ opField cw = 0xB ∨ opField cw = 0xD) (himm : imm8Field cw = 0) :
    ∃ i, wellFormed nctx i = true ∧ encode i = cw :: ext := by
  have hext : ext = [] := extensions_nil hlen (by rcases hop with h | h | h | h | h | h | h <;> simp [h])
  obtain hop | hop | hop | hop | hop | hop | hop := hop
  · exact ⟨.upd (ctxField cw), hslot, encode_eq_of_fields hrsvd hop rfl himm hext⟩
  · exact ⟨.dig (ctxField cw), hslot, encode_eq_of_fields hrsvd hop rfl himm hext⟩
  · exact ⟨.digb (ctxField cw), hslot, encode_eq_of_fields hrsvd hop rfl himm hext⟩
  · exact ⟨.rst (ctxField cw), hslot, encode_eq_of_fields hrsvd hop rfl himm hext⟩
  · exact ⟨.burn (ctxField cw), hslot, encode_eq_of_fields hrsvd hop rfl himm hext⟩
  · exact ⟨.len (ctxField cw), hslot, encode_eq_of_fields hrsvd hop rfl himm hext⟩
  · exact ⟨.alg (ctxField cw), hslot, encode_eq_of_fields hrsvd hop rfl himm hext⟩

end kinds

/-- A framed word that is legal is, with its extension words, the encoding of a well-formed command. -/
theorem exists_encode_of_legal (hlen : ext.length + 1 = commandWords cw) (h : ¬ IllegalWord nctx cw) :
    ∃ i, wellFormed nctx i = true ∧ encode i = cw :: ext := by
  simp only [illegalWord_iff, not_or, not_and, ne_eq, not_not, not_le, Bool.not_eq_true] at h
  obtain ⟨hres, hrsvd, hctx, himm, hcopy⟩ := h
  have hslot : slotExists nctx (ctxField cw) = true := decide_eq_true hctx
  obtain hop | hop | hop | hop := opcode_kinds _ hres
  · exact exists_encode_immediate hlen hrsvd hslot hop
  · obtain ⟨hhigh, hdst⟩ := hcopy hop
    exact exists_encode_copy hlen hrsvd hslot hop hhigh hdst
  · have hnone : ¬ takesImmediate (opField cw).toNat := by rcases hop with h | h <;> simp [takesImmediate, h]
    exact exists_encode_window hlen hrsvd hslot hop (himm hnone)
  · have hnone : ¬ takesImmediate (opField cw).toNat := by
      rcases hop with h | h | h | h | h | h | h <;> simp [takesImmediate, h]
    exact exists_encode_plain hlen hrsvd hslot hop (himm hnone)

/-- The decoder rejects no framed word but the illegal ones (30_encoding R80). -/
theorem decode_error_iff_illegalWord (hlen : ext.length + 1 = commandWords cw) :
    (∃ e, decode nctx (cw :: ext) = .error e) ↔ IllegalWord nctx cw := by
  refine ⟨fun ⟨e, he⟩ => by_contra fun hlegal => ?_, fun h => decode_error_of_illegalWord h ext⟩
  obtain ⟨i, hi, henc⟩ := exists_encode_of_legal hlen hlegal
  have hok := decodeInvertsEncode nctx i hi
  rw [henc, he] at hok
  cases hok

end legal

/-- Settles O2: words that decode are legal, so they encode a well-formed command, and by O1 that is the command they
decode to. -/
theorem encodeInvertsDecode : Obligations.EncodeInvertsDecode := by
  intro nctx cw ext i hlen hi
  have hlegal : ¬ IllegalWord nctx cw := fun h => by
    obtain ⟨e, he⟩ := decode_error_of_illegalWord h ext
    cases hi.symm.trans he
  obtain ⟨j, hj, henc⟩ := exists_encode_of_legal hlen hlegal
  have hdec : decode nctx (cw :: ext) = .ok j := henc ▸ decodeInvertsEncode nctx j hj
  obtain rfl := Except.ok.inj (hi.symm.trans hdec)
  exact ⟨henc, hj⟩

/-- A step on an illegal word takes its words and reports it (60_exceptions R221). -/
theorem step_illegalWord {s : State} {cw : CmdWord} {ext rest : List CmdWord} (hlen : ext.length + 1 = commandWords cw)
    (hport : s.port = cw :: (ext ++ rest)) (h : IllegalWord s.nctx cw) :
    step s = .next (State.reportError { s with port := rest } .illegalCommand) := by
  obtain ⟨e, he⟩ := decode_error_of_illegalWord h ext
  have htake : takeCommand s.port = some (cw :: ext, rest) := hport ▸ takeCommand_whole cw ext rest hlen
  exact (step_command htake).trans (runCommand_illegal he)

/-- Settles O4: the decoder rejects exactly the illegal words, and a step on one only reports it. -/
theorem illegalWordsAreReported : Obligations.IllegalWordsAreReported :=
  ⟨fun _ _ _ hlen => decode_error_iff_illegalWord hlen,
   fun _ => .inl (.inl rfl),
   fun _ _ _ _ hlen hport h =>
    ⟨_, step_illegalWord hlen hport h, endedWith_reportError _ _, slotsKept_reportError _ _⟩⟩

end Sys2Proof
end

section
/-! PROOFS. The spec's worked examples (O3): each example's words are the encoding of its command, so the round trip of
O1 decodes them. -/

namespace Sys2Proof

open Sys2Proof.Claims Sys2Proof.Machine

/-- Words that encode a well-formed command decode to it (30_encoding R82). -/
theorem decode_of_encode_eq {nctx : Nat} {i : Instr} {ws : List CmdWord} (h : wellFormed nctx i = true)
    (hws : encode i = ws) : decode nctx ws = .ok i :=
  hws ▸ decodeInvertsEncode nctx i h

/-- Settles O3: the words of each example encode its command, which is well-formed on four slots. -/
theorem specExampleWordsDecode : Obligations.SpecExampleWordsDecode := by
  refine ⟨?init, ?initk, ?upd1, ?updr, ?digr, ?burn, ?copy⟩
  all_goals exact decode_of_encode_eq (by decide) (by decide)

end Sys2Proof
end

section
/-! PROOFS. The compression function (O59, O42, O41, O44, O60): what `G` makes of each word, the layout of the working
vector, and the same function written from the rules' tables. -/

namespace Sys2Proof.Machine

open Sys2Proof.Claims

variable {v : Variant}

/-! ### A round as eight applications of `G` (43_compression R178) -/

theorem mixRound_eq_foldl (M V : Vector (Word v) 16) (row : ScheduleRow) :
    mixRound M V row = (List.finRange 8).foldl
      (fun V j =>
        let (a, b, c, d) := mixCalls[j]
        mixG V a b c d M[row[2 * j.val]] M[row[2 * j.val + 1]]) V := rfl

/-- Settles O59: the eight lines of a round are the fold written out. -/
theorem roundIsColumnsThenDiagonals : Obligations.RoundIsColumnsThenDiagonals :=
  fun _ => mixRound_eq_foldl

/-! ### The words that `G` leaves (43_compression R176) -/

/-- What `G` must make of the words of `V` (43_compression R176): the four words of its eight lines, and the other
twelve as they were. -/
def IsQuarterRound (V : Vector (Word v) 16) (a b c d : Fin 16) (x y : Word v) (U : Vector (Word v) 16) : Prop :=
  let a1 := V[a] + V[b] + x
  let d1 := rotr (V[d] ^^^ a1) (rot v).r1
  let c1 := V[c] + d1
  let b1 := rotr (V[b] ^^^ c1) (rot v).r2
  let a2 := a1 + b1 + y
  let d2 := rotr (d1 ^^^ a2) (rot v).r3
  let c2 := c1 + d2
  let b2 := rotr (b1 ^^^ c2) (rot v).r4
  U[a] = a2 ∧ U[b] = b2 ∧ U[c] = c2 ∧ U[d] = d2 ∧ ∀ j : Fin 16, j ∉ [a, b, c, d] → U[j] = V[j]

theorem IsQuarterRound.unique {V U U' : Vector (Word v) 16} {a b c d : Fin 16} {x y : Word v}
    (h : IsQuarterRound V a b c d x y U) (h' : IsQuarterRound V a b c d x y U') : U = U' := by
  obtain ⟨ha, hb, hc, hd, hk⟩ := h
  obtain ⟨ha', hb', hc', hd', hk'⟩ := h'
  have hword (j : Fin 16) : U[j] = U'[j] := by
    by_cases hj : j ∈ [a, b, c, d]
    · simp only [List.mem_cons, List.not_mem_nil, or_false] at hj
      rcases hj with rfl | rfl | rfl | rfl
      · exact ha.trans ha'.symm
      · exact hb.trans hb'.symm
      · exact hc.trans hc'.symm
      · exact hd.trans hd'.symm
    · exact (hk j hj).trans (hk' j hj).symm
  exact Vector.ext fun j hj => hword ⟨j, hj⟩

/-- One half of `G`: its lines 1 to 4 with a message word and two rotation amounts; lines 5 to 8 are the same again. -/
def mixHalf (V : Vector (Word v) 16) (a b c d : Fin 16) (x : Word v) (m n : Nat) : Vector (Word v) 16 :=
  let V := V.set a (V[a] + V[b] + x)
  let V := V.set d (rotr (V[d] ^^^ V[a]) m)
  let V := V.set c (V[c] + V[d])
  V.set b (rotr (V[b] ^^^ V[c]) n)

theorem mixG_eq_mixHalf (V : Vector (Word v) 16) (a b c d : Fin 16) (x y : Word v) :
    mixG V a b c d x y =
      mixHalf (mixHalf V a b c d x (rot v).r1 (rot v).r2) a b c d y (rot v).r3 (rot v).r4 := rfl

/-- One half read word by word: the four indices differ, so what a line writes is what the later lines and the result
read there. -/
theorem mixHalf_spec (V : Vector (Word v) 16) {a b c d : Fin 16} (x : Word v) (m n : Nat) (h : [a, b, c, d].Nodup) :
    let a' := V[a] + V[b] + x
    let d' := rotr (V[d] ^^^ a') m
    let c' := V[c] + d'
    let b' := rotr (V[b] ^^^ c') n
    let U := mixHalf V a b c d x m n
    U[a] = a' ∧ U[b] = b' ∧ U[c] = c' ∧ U[d] = d' ∧ ∀ j : Fin 16, j ∉ [a, b, c, d] → U[j] = V[j] := by
  simp only [List.nodup_cons, List.mem_cons, List.not_mem_nil, or_false, not_or, Fin.ext_iff] at h
  obtain ⟨⟨hab, hac, had⟩, ⟨hbc, hbd⟩, hcd, -⟩ := h
  refine ⟨?_, ?_, ?_, ?_, fun j hj => ?_⟩
  all_goals simp_all [mixHalf, Fin.ext_iff, eq_comm]

theorem mixG_spec (V : Vector (Word v) 16) {a b c d : Fin 16} (x y : Word v) (h : [a, b, c, d].Nodup) :
    IsQuarterRound V a b c d x y (mixG V a b c d x y) := by
  obtain ⟨ha1, hb1, hc1, hd1, hk1⟩ := mixHalf_spec V x (rot v).r1 (rot v).r2 h
  have hsecond := mixHalf_spec (mixHalf V a b c d x (rot v).r1 (rot v).r2) y (rot v).r3 (rot v).r4 h
  rw [ha1, hb1, hc1, hd1] at hsecond
  obtain ⟨ha2, hb2, hc2, hd2, hk2⟩ := hsecond
  exact ⟨ha2, hb2, hc2, hd2, fun j hj => (hk2 j hj).trans (hk1 j hj)⟩

/-- Settles O42: `G` is its two halves, each read word by word. -/
theorem mixGIsQuarterRound : Obligations.MixGIsQuarterRound := by
  intro v V a b c d x y h
  cases v <;> exact mixG_spec V x y h

/-! ### The layout of the working vector (43_compression R174) -/

theorem append_iv_low (h : Vector (Word v) 8) (i : Fin 8) : (h ++ iv v)[i.val] = h[i] :=
  Vector.getElem_append_left i.isLt

theorem append_iv_high (h : Vector (Word v) 8) (i : Fin 8) : (h ++ iv v)[i.val + 8] = (iv v)[i] :=
  (Vector.getElem_append_right (by omega) (by omega)).trans (by simp)

theorem workingVector_low (h : Vector (Word v) 8) (t0 t1 : Word v) (f : Bool) (i : Fin 8) :
    (workingVector h t0 t1 f)[i.val] = h[i] := by
  have hi (k : Nat) (hk : 12 ≤ k) : k ≠ i.val := by omega
  rw [← append_iv_low h i]
  cases f <;> simp [workingVector, hi]

theorem workingVector_high (h : Vector (Word v) 8) (t0 t1 : Word v) (f : Bool) (i : Fin 8) :
    (workingVector h t0 t1 f)[i.val + 8] = (iv v)[i] ^^^
      (if i = 4 then t0 else if i = 5 then t1 else if i = 6 ∧ f = true then BitVec.allOnes _ else 0) := by
  rw [← append_iv_high h i]
  fin_cases i <;> cases f <;> simp [workingVector]

/-- Settles O41: the last eight words are those of the IV, four of them under a mask. -/
theorem workingVectorLayout : Obligations.WorkingVectorLayout := by
  intro v h t0 t1 f
  have high := workingVector_high h t0 t1 f
  refine ⟨workingVector_low h t0 t1 f, fun i => ?_, high 4, high 5, (high 6).trans ?_, (high 7).trans ?_⟩
  · refine (high ⟨i.val, by omega⟩).trans ?_
    fin_cases i <;> simp
  · cases f <;> simp
  · simp

/-! ### The fold back (43_compression R181) -/

theorem compressWords_getElem (h : Vector (Word v) 8) (t0 t1 : Word v) (f : Bool) (M : Vector (Word v) 16) (i : Fin 8) :
    let V := mixRounds M (rounds v) (workingVector h t0 t1 f)
    (compressWords h t0 t1 f M)[i] = h[i] ^^^ V[i.val] ^^^ V[i.val + 8] := by
  simp [compressWords]

theorem mixRounds_eq_foldl_sigmaRows (M V : Vector (Word v) 16) (n : Nat) :
    mixRounds M n V = (List.range n).foldl (fun V r => mixRound M V sigmaRows[r % 10]!) V := by
  have hrow (r : Nat) : sigmaRows[r % 10]! = sigma r := getElem!_pos ..
  simp only [hrow, mixRounds]

/-- Settles O44: a compression is the counter advance followed by the fold back, and fails with the advance alone. -/
theorem compressFoldsAndClears : Obligations.CompressFoldsAndClears := by
  intro v guard final x
  refine ⟨Option.map_eq_none_iff, fun y z hy hz => ?_⟩
  obtain ⟨z', hz', rfl⟩ := Slot.compress_cases hy
  obtain rfl := Option.some.inj (hz'.symm.trans hz)
  obtain rfl := Slot.advanceCounter_cases hz
  refine ⟨fun i => (compressWords_getElem ..).trans ?_, fun i => ?_, rfl, rfl⟩
  · rw [mixRounds_eq_foldl_sigmaRows]
    cases v <;> rfl
  · simp

/-! ### The same function from the rules' tables (43_compression R170 to R180) -/

theorem quarterRound_spec (V : Vector (Word v) 16) {a b c d : Fin 16} (x y : Word v) (h : [a, b, c, d].Nodup) :
    IsQuarterRound V a b c d x y (quarterRound v V a b c d x y) := by
  simp only [List.nodup_cons, List.mem_cons, List.not_mem_nil, or_false, not_or] at h
  obtain ⟨⟨hab, hac, had⟩, ⟨hbc, hbd⟩, hcd, -⟩ := h
  refine ⟨?a, ?b, ?c, ?d, fun j hj => ?kept⟩
  case kept =>
    simp only [List.mem_cons, List.not_mem_nil, or_false, not_or] at hj
    simp [quarterRound, hj]
  all_goals
    simp only [quarterRound, Fin.getElem_fin, Vector.getElem_ofFn, Fin.eta, if_true, if_neg (Ne.symm hab),
      if_neg (Ne.symm hac), if_neg (Ne.symm had), if_neg (Ne.symm hbc), if_neg (Ne.symm hbd), if_neg (Ne.symm hcd)]
    cases v <;> rfl

theorem mixG_eq_quarterRound (V : Vector (Word v) 16) {a b c d : Fin 16} (x y : Word v) (h : [a, b, c, d].Nodup) :
    mixG V a b c d x y = quarterRound v V a b c d x y :=
  (mixG_spec V x y h).unique (quarterRound_spec V x y h)

theorem roundWords_eq_foldl (M : Nat → Word v) (V : Vector (Word v) 16) (r : Nat) :
    roundWords v M V r = (List.finRange 8).foldl
      (fun V j =>
        let (a, b, c, d) := mixCalls[j]
        quarterRound v V a b c d (M (scheduleEntry r (2 * j.val))) (M (scheduleEntry r (2 * j.val + 1)))) V := rfl

theorem mixCalls_nodup (j : Fin 8) : let (a, b, c, d) := mixCalls[j]; [a, b, c, d].Nodup := by
  revert j; decide

theorem sigma_eq_scheduleEntry (r : Nat) (j : Fin 16) : (sigma r)[j].val = scheduleEntry r j := by
  have h : ∀ (r : Fin 10) (j : Fin 16), (sigmaRows[r])[j].val = scheduleEntry r j := by decide
  have hmod : scheduleEntry r j = scheduleEntry (r % 10) j := by simp only [scheduleEntry, Nat.mod_mod]
  exact (h ⟨r % 10, Nat.mod_lt r (by decide)⟩ j).trans hmod.symm

theorem iv_eq_ivWord (i : Fin 8) : (iv v)[i] = ivWord v i := by
  cases v <;> revert i <;> decide

/-- The message word that an entry of the tables' schedule selects is the one the machine's row selects. -/
theorem getD_scheduleEntry (M : Vector (Word v) 16) (r : Nat) (j : Fin 16) :
    M.toList.getD (scheduleEntry r j) 0 = M[(sigma r)[j]] := by
  rw [← sigma_eq_scheduleEntry]
  simp [List.getD]

theorem mixRound_sigma_eq_roundWords (M V : Vector (Word v) 16) (r : Nat) :
    mixRound M V (sigma r) = roundWords v (fun j => M.toList.getD j 0) V r := by
  rw [mixRound_eq_foldl, roundWords_eq_foldl]
  refine List.foldl_ext _ _ _ fun V j _ => ?_
  have hx := getD_scheduleEntry M r ⟨2 * j.val, by omega⟩
  have hy := getD_scheduleEntry M r ⟨2 * j.val + 1, by omega⟩
  refine (mixG_eq_quarterRound V _ _ (mixCalls_nodup j)).trans ?_
  simp only [hx, hy]
  rfl

theorem workingVector_eq_startWords (h : Vector (Word v) 8) (t0 t1 : Word v) (f : Bool) :
    workingVector h t0 t1 f = startWords v h t0 t1 f := by
  have hlow (i : Fin 8) : (workingVector h t0 t1 f)[i.val] = (startWords v h t0 t1 f)[i.val] := by
    simp [workingVector_low, startWords]
  have hhigh (i : Fin 8) : (workingVector h t0 t1 f)[i.val + 8] = (startWords v h t0 t1 f)[i.val + 8] := by
    rw [workingVector_high, iv_eq_ivWord]
    simp [startWords, Fin.ext_iff]
  ext i hi : 1
  by_cases h8 : i < 8
  · exact hlow ⟨i, h8⟩
  · obtain ⟨k, rfl⟩ := Nat.exists_eq_add_of_le' (Nat.not_lt.mp h8)
    exact hhigh ⟨k, by omega⟩

theorem mixRounds_eq_finalWords (h : Vector (Word v) 8) (t0 t1 : Word v) (f : Bool) (M : Vector (Word v) 16) :
    mixRounds M (rounds v) (workingVector h t0 t1 f) = finalWords v h t0 t1 f fun j => M.toList.getD j 0 := by
  have hstep : (fun V r => mixRound M V (sigma r)) = roundWords v fun j => M.toList.getD j 0 :=
    funext₂ fun V r => mixRound_sigma_eq_roundWords M V r
  rw [mixRounds, hstep, workingVector_eq_startWords]
  cases v <;> rfl

/-- Settles O60: the machine's rounds are the rounds of the tables, and the fold back is the same. -/
theorem compressionFollowsRulesTables : Obligations.CompressionFollowsRulesTables := by
  intro v h t0 t1 f M i
  rw [← mixRounds_eq_finalWords]
  exact compressWords_getElem h t0 t1 f M i

end Sys2Proof.Machine
end

section
/-! PROOFS. The byte counter and its guard (O39, O58, O57): the advance as numbers, the bytes a slot has taken in, where
the guard trips in a procedure on a slot, and what the command then does. -/

namespace Sys2Proof.Machine

open Sys2Proof.Claims

variable {v : Variant}

/-! ### The counter advance -/

/-- The carry test of R171 as numbers. -/
theorem counterCarry_iff (t : Word v) (n : Nat) :
    counterCarry (t + BitVec.ofNat v.wordBits n) n = true ↔ (t.toNat + n) % 2 ^ v.wordBits = 0 ∧ 0 < n := by
  simp [counterCarry, BitVec.toNat_eq]

theorem Slot.advanceCounter_eq_none_iff (guard : Bool) (n : Nat) (x : Slot v) :
    x.advanceCounter guard n = none ↔
      ((x.t0.toNat + n) % 2 ^ v.wordBits = 0 ∧ 0 < n) ∧ guard = true ∧ x.t1.toNat = 2 ^ v.wordBits - 1 := by
  rw [← counterCarry_iff, ← BitVec.toNat_allOnes, ← BitVec.toNat_eq]
  simp [Slot.advanceCounter, and_assoc]

theorem Slot.advanceCounter_t0 {guard : Bool} {n : Nat} {x y : Slot v} (h : x.advanceCounter guard n = some y) :
    y.t0.toNat = (x.t0.toNat + n) % 2 ^ v.wordBits := by
  obtain rfl := Slot.advanceCounter_cases h
  simp

theorem Slot.advanceCounter_t1 {guard : Bool} {n : Nat} {x y : Slot v} (h : x.advanceCounter guard n = some y) :
    y.t1 = if (x.t0.toNat + n) % 2 ^ v.wordBits = 0 ∧ 0 < n then x.t1 + 1 else x.t1 := by
  obtain rfl := Slot.advanceCounter_cases h
  simp only [counterCarry_iff]

/-- Settles O39: the carry test as numbers decides both where the advance fails and what it does to `T1`. -/
theorem counterAdvanceRule : Obligations.CounterAdvanceRule := by
  refine ⟨fun s => ?_, fun v guard n x _ => ⟨x.advanceCounter_eq_none_iff guard n, fun y hy => ?_⟩⟩
  · unfold State.guard
    constructor <;> intro h <;> rw [h] <;> rfl
  · have ht1 := Slot.advanceCounter_t1 hy
    refine ⟨?_, Slot.advanceCounter_t0 hy, fun hw => ?_, fun hw => ?_⟩
    · obtain rfl := Slot.advanceCounter_cases hy
      rfl
    · simp [ht1, hw]
    · rw [ht1, if_neg hw]

/-! ### The logical counter of a slot whose low word is a multiple of the block size (10_state R31) -/

/-- The sizes of the variants as numerals (00_scope R2). -/
theorem Variant.sizes (v : Variant) :
    (v.blockBytes = 128 ∧ 2 ^ v.wordBits = 2 ^ 64 ∧ 2 ^ (2 * v.wordBits) = 2 ^ 128) ∨
    (v.blockBytes = 64 ∧ 2 ^ v.wordBits = 2 ^ 32 ∧ 2 ^ (2 * v.wordBits) = 2 ^ 64) := by
  cases v
  · exact .inl ⟨rfl, rfl, rfl⟩
  · exact .inr ⟨rfl, rfl, rfl⟩

theorem Slot.counter_add_blockBytes_le {x : Slot v} (hx : x.t0.toNat % v.blockBytes = 0) :
    x.counter + v.blockBytes ≤ 2 ^ (2 * v.wordBits) := by
  have h0 := x.t0.isLt
  have h1 := x.t1.isLt
  unfold Slot.counter
  rcases Variant.sizes v with ⟨hB, hW, hL⟩ | ⟨hB, hW, hL⟩ <;> simp only [hB, hW, hL] at * <;> omega

theorem Slot.advanceCounter_eq_none_iff_counter {guard : Bool} {n : Nat} {x : Slot v}
    (hx : x.t0.toNat % v.blockBytes = 0) (hn : n ≤ v.blockBytes) :
    x.advanceCounter guard n = none ↔ guard = true ∧ 2 ^ (2 * v.wordBits) ≤ x.counter + n := by
  have h0 := x.t0.isLt
  have h1 := x.t1.isLt
  rw [Slot.advanceCounter_eq_none_iff, and_left_comm, Slot.counter]
  refine and_congr_right fun _ => ?_
  rcases Variant.sizes v with ⟨hB, hW, hL⟩ | ⟨hB, hW, hL⟩ <;> simp only [hB, hW, hL] at * <;> omega

theorem Slot.advanceCounter_counter {guard : Bool} {n : Nat} {x y : Slot v}
    (hx : x.t0.toNat % v.blockBytes = 0) (hn : n ≤ v.blockBytes) (h : x.advanceCounter guard n = some y) :
    y.counter = (x.counter + n) % 2 ^ (2 * v.wordBits) := by
  have h0 := x.t0.isLt
  have h1 := x.t1.isLt
  have ht1 : y.t1.toNat = if (x.t0.toNat + n) % 2 ^ v.wordBits = 0 ∧ 0 < n then (x.t1.toNat + 1) % 2 ^ v.wordBits
      else x.t1.toNat := by
    rw [Slot.advanceCounter_t1 h]
    split <;> simp
  rw [Slot.counter, Slot.counter, Slot.advanceCounter_t0 h, ht1]
  rcases Variant.sizes v with ⟨hB, hW, hL⟩ | ⟨hB, hW, hL⟩ <;> simp only [hB, hW, hL] at * <;> split <;> omega

/-! ### The bytes a slot has taken in -/

/-- The bytes counted and those still in the buffer. -/
def Slot.bytesIn (x : Slot v) : Nat := x.counter + x.filled.val

theorem Slot.bytesIn_le {x : Slot v} (hx : x.t0.toNat % v.blockBytes = 0) : x.bytesIn ≤ 2 ^ (2 * v.wordBits) := by
  have hc := Slot.counter_add_blockBytes_le hx
  have hf := x.filled.isLt
  unfold Slot.bytesIn
  omega

theorem Slot.bytesIn_append {x : Slot v} {D : List Byte} (h : x.filled.val + D.length ≤ v.blockBytes) :
    (x.append D).bytesIn = x.bytesIn + D.length := by
  obtain ⟨hf, -⟩ := x.append_spec D h
  have hc : (x.append D).counter = x.counter := rfl
  rw [Slot.bytesIn, Slot.bytesIn, hf, hc, Nat.add_assoc]

theorem Slot.compress_eq_none_iff {guard final : Bool} {x : Slot v} (hx : x.t0.toNat % v.blockBytes = 0) :
    x.compress guard final = none ↔ guard = true ∧ 2 ^ (2 * v.wordBits) ≤ x.bytesIn :=
  Option.map_eq_none_iff.trans (Slot.advanceCounter_eq_none_iff_counter hx (Nat.lt_succ_iff.mp x.filled.isLt))

/-- A guarded compression that completes moves the buffered bytes into the counter, without a wrap. -/
theorem Slot.compress_bytesIn {final : Bool} {x y : Slot v} (hx : x.t0.toNat % v.blockBytes = 0)
    (h : x.compress true final = some y) : y.bytesIn = x.bytesIn := by
  have hlt : ¬ 2 ^ (2 * v.wordBits) ≤ x.bytesIn := fun hle => by
    rw [(Slot.compress_eq_none_iff hx).mpr ⟨rfl, hle⟩] at h
    cases h
  obtain ⟨z, hz, rfl⟩ := Slot.compress_cases h
  have hc := Slot.advanceCounter_counter hx (Nat.lt_succ_iff.mp x.filled.isLt) hz
  exact hc.trans (Nat.mod_eq_of_lt (Nat.not_le.mp hlt))

theorem Slot.compress_aligned {guard final : Bool} {x y : Slot v} (hx : x.t0.toNat % v.blockBytes = 0)
    (hf : x.filled.val = v.blockBytes) (h : x.compress guard final = some y) : y.t0.toNat % v.blockBytes = 0 := by
  obtain ⟨z, hz, rfl⟩ := Slot.compress_cases h
  obtain rfl := Slot.advanceCounter_cases hz
  rw [hf]
  exact mod_blockBytes_add hx

theorem Slot.makeRoom_eq_none {guard : Bool} {x : Slot v} (hx : x.t0.toNat % v.blockBytes = 0)
    (h : x.makeRoom guard = none) : guard = true ∧ 2 ^ (2 * v.wordBits) ≤ x.bytesIn := by
  by_cases hf : x.filled.val = v.blockBytes
  · rw [Slot.makeRoom_full hf] at h
    exact (Slot.compress_eq_none_iff hx).mp h
  · rw [Slot.makeRoom_not_full hf] at h
    cases h

theorem Slot.makeRoom_aligned {guard : Bool} {x y : Slot v} (hx : x.t0.toNat % v.blockBytes = 0)
    (h : x.makeRoom guard = some y) : y.t0.toNat % v.blockBytes = 0 := by
  rcases Slot.makeRoom_cases h with ⟨-, rfl⟩ | ⟨hf, hc⟩
  · exact hx
  · exact Slot.compress_aligned hx hf hc

theorem Slot.makeRoom_bytesIn {x y : Slot v} (hx : x.t0.toNat % v.blockBytes = 0) (h : x.makeRoom true = some y) :
    y.bytesIn = x.bytesIn := by
  rcases Slot.makeRoom_cases h with ⟨-, rfl⟩ | ⟨-, hc⟩
  · rfl
  · exact Slot.compress_bytesIn hx hc

/-! ### What is left of a slot that takes in bytes -/

/-- What may be left of a slot that has been given `n` bytes in all: a tripped guard, only where the guard is on and the
bytes exceed `2^(2W)`; or a slot whose low counter word is a multiple of the block size, and which with the guard on has
taken in exactly `n` bytes. -/
inductive Accounts (guard : Bool) (n : Nat) : Option (Slot v) → Prop
  | tripped (hg : guard = true) (hn : 2 ^ (2 * v.wordBits) < n) : Accounts guard n none
  | taken {y : Slot v} (hy : y.t0.toNat % v.blockBytes = 0) (hn : guard = true → y.bytesIn = n) :
      Accounts guard n (some y)

theorem Accounts.congr {guard : Bool} {n m : Nat} {o : Option (Slot v)} (h : Accounts guard n o)
    (hnm : guard = true → n = m) : Accounts guard m o := by
  cases h with
  | tripped hg hn => exact .tripped hg (hnm hg ▸ hn)
  | taken hy hn => exact .taken hy fun hg => (hn hg).trans (hnm hg)

/-- A slot cannot have taken in more than `2^(2W)` bytes, so an account says exactly where the guard trips. -/
theorem Accounts.eq_none_iff {guard : Bool} {n : Nat} {o : Option (Slot v)} (h : Accounts guard n o) :
    o = none ↔ guard = true ∧ 2 ^ (2 * v.wordBits) < n := by
  cases h with
  | tripped hg hn => simp [hg, hn]
  | taken hy hn =>
    have hle := Slot.bytesIn_le hy
    refine iff_of_false nofun fun ⟨hg, hlt⟩ => ?_
    rw [hn hg] at hle
    omega

theorem Slot.absorbLoop_accounts {guard : Bool} (fuel : Nat) : ∀ {D : List Byte} {x : Slot v}, D.length ≤ fuel →
    x.t0.toNat % v.blockBytes = 0 → Accounts guard (x.bytesIn + D.length) (Slot.absorbLoop guard fuel D x) := by
  induction fuel with
  | zero =>
    intro D x hD hx
    obtain rfl := List.eq_nil_of_length_eq_zero (Nat.le_zero.mp hD)
    exact .taken hx fun _ => rfl
  | succ fuel ih =>
    intro D x hD hx
    cases D with
    | nil => exact .taken hx fun _ => rfl
    | cons b D =>
      rw [Slot.absorbLoop_succ]
      cases hr : x.makeRoom guard with
      | none =>
        obtain ⟨hg, hle⟩ := Slot.makeRoom_eq_none hx hr
        exact .tripped hg (by simp only [List.length_cons]; omega)
      | some y =>
        have hlt := Slot.makeRoom_lt hr
        have hy := Slot.makeRoom_aligned hx hr
        refine (ih (x := y.append _) ?_ hy).congr fun hg => ?_
        · simp only [List.length_drop, List.length_cons] at hD ⊢
          omega
        · subst hg
          rw [Slot.bytesIn_append, Slot.makeRoom_bytesIn hx hr]
          · simp only [List.length_take, List.length_drop]
            omega
          · simp only [List.length_take]
            omega

theorem Slot.absorb_accounts {guard : Bool} {x : Slot v} (hx : x.t0.toNat % v.blockBytes = 0) (D : List Byte) :
    Accounts guard (x.bytesIn + D.length) (x.absorb guard D) :=
  Slot.absorbLoop_accounts _ le_rfl hx

theorem Slot.absorbByte_eq_absorb (guard : Bool) (b : Byte) (x : Slot v) :
    x.absorbByte guard b = x.absorb guard [b] := by
  rw [Slot.absorb, List.length_singleton, Slot.absorbLoop_succ, Slot.absorbByte]
  cases hr : x.makeRoom guard with
  | none => rfl
  | some y =>
    have hlt := Slot.makeRoom_lt hr
    have hk : min (v.blockBytes - y.filled.val) [b].length = 1 := by simp only [List.length_singleton]; omega
    simp only [Option.map_some, Option.bind_some, hk]
    rfl

theorem Slot.finalize_eq_none_iff {guard : Bool} {x : Slot v} (hx : x.t0.toNat % v.blockBytes = 0) :
    x.finalize guard = none ↔ guard = true ∧ 2 ^ (2 * v.wordBits) ≤ x.bytesIn :=
  Option.map_eq_none_iff.trans (Slot.compress_eq_none_iff (x := x.padBuffer) hx)

theorem Slot.absorbFinalize_eq_none_iff {guard : Bool} {x : Slot v} (hx : x.t0.toNat % v.blockBytes = 0)
    (D : List Byte) :
    x.absorbFinalize guard D = none ↔ guard = true ∧ 2 ^ (2 * v.wordBits) ≤ x.bytesIn + D.length := by
  have h := Slot.absorb_accounts (guard := guard) hx D
  unfold Slot.absorbFinalize
  generalize x.absorb guard D = o at h
  cases h with
  | tripped hg hn => simp [hg, hn.le]
  | taken hy hn =>
    refine (Slot.finalize_eq_none_iff hy).trans (and_congr_right fun hg => ?_)
    rw [hn hg]

/-- Settles O58: `Accounts` for the updates, and for a digest the final compression of what they leave. -/
theorem counterGuardTripsExactlyAtLimit : Obligations.CounterGuardTripsExactlyAtLimit := by
  intro v guard x hx
  refine ⟨fun b => ?_, fun D => ?_, ?_, fun D => ?_⟩
  · rw [Slot.absorbByte_eq_absorb]
    exact (Slot.absorb_accounts hx [b]).eq_none_iff
  · exact (Slot.absorb_accounts hx D).eq_none_iff
  · exact Slot.finalize_eq_none_iff hx
  · exact Slot.absorbFinalize_eq_none_iff hx D

/-! ### The command in which the guard trips -/

theorem readyEffect_ready {x : Slot v} (h : x.live = true ∧ x.poison = false) (g : Slot v → Effect v) :
    readyEffect g (some x) = g x := by
  simp [readyEffect, slotEffect, x.entryCheck_none_iff.mpr h]

/-- A command whose effect on its slot is a tripped guard ends as R229 says. -/
theorem guardTrips_of_commandEffect {s : State} {i : Instr} {x : Slot s.variant} (hw : writtenSlot i = slotOf i)
    (hx : SlotIs s (slotOf i) x) (he : commandEffect s i (some x) = .guardTrip) : GuardTrips s (slotOf i) i := by
  obtain ⟨hslot, hkept⟩ := othersKept_poisonSlot hx.lt
  have hexec : exec i s = .next ((s.poisonSlot (slotOf i)).reportError .illegalState) := by
    rw [exec_eq_applyEffect, hx, he, hw]
    rfl
  exact ⟨_, _, hexec, endedWith_reportError _ _, hkept, hslot, rfl, rfl⟩

/-- Settles O57: in each command the tripped guard is the command's effect on its slot. -/
theorem counterGuardTripsInAnyBlock : Obligations.CounterGuardTripsInAnyBlock := by
  intro s c x ⟨hx, hr⟩
  have hready := readyEffect_ready hr
  refine ⟨fun b h => ?upd1, fun h => ?dig, fun D hD => ?operand⟩
  case upd1 =>
    exact guardTrips_of_commandEffect (i := .upd1 c b) rfl hx (by simp [commandEffect, hready, h, updateEffect])
  case dig =>
    exact guardTrips_of_commandEffect (i := .dig c) rfl hx (by simp [commandEffect, hready, h, digestEffect])
  case operand =>
    have hsrc := State.wholeSource_present hD
    refine ⟨fun h => ?upd, fun h => ?digb, fun off len hw => ?window⟩
    case upd =>
      exact guardTrips_of_commandEffect (i := .upd c) rfl hx
        (by simp [commandEffect, hready, hsrc, operandEffect, h, updateEffect])
    case digb =>
      exact guardTrips_of_commandEffect (i := .digb c) rfl hx
        (by simp [commandEffect, hready, hsrc, operandEffect, h, digestEffect])
    case window =>
      have hwin := State.sourceWindow_inside hD hw
      refine ⟨fun h => ?updr, fun h => ?digr⟩
      case updr =>
        exact guardTrips_of_commandEffect (i := .updr c off len) rfl hx
          (by simp [commandEffect, hready, hwin, operandEffect, h, updateEffect])
      case digr =>
        exact guardTrips_of_commandEffect (i := .digr c off len) rfl hx
          (by simp [commandEffect, hready, hwin, operandEffect, h, digestEffect])

end Sys2Proof.Machine
end

section
/-! PROOFS. The word codec (O45): decoding puts each byte below the word made of the bytes after it, and encoding lists
the bytes of a word. -/

namespace Sys2Proof.Machine

variable {v : Variant}

/-- `W` is `8 * NB` in both variants (00_scope R2). -/
theorem wordBits_eq_mul_wordBytes (v : Variant) : v.wordBits = 8 * v.wordBytes := by
  cases v <;> rfl

/-! ### Decoding (44_codec R200) -/

section decoding
variable {w : Nat}

/-- Bytes placed from `k` on are the bytes placed from 0 on, shifted by `k` places. -/
theorem leSum_eq_shiftLeft (bs : List Byte) : ∀ k, leSum w k bs = leSum w 0 bs <<< (8 * k) := by
  induction bs with
  | nil => simp [leSum]
  | cons b bs ih =>
    intro k
    calc leSum w k (b :: bs)
        = b.setWidth w <<< (8 * k) + leSum w 0 bs <<< (8 * (k + 1)) := by rw [leSum, ih]
      _ = (b.setWidth w + leSum w 0 bs <<< 8) <<< (8 * k) := by
          rw [BitVec.shiftLeft_add_distrib, ← BitVec.shiftLeft_add, Nat.mul_succ, Nat.add_comm]
      _ = leSum w 0 (b :: bs) <<< (8 * k) := by simp [leSum, ih 1]

/-- The first byte and the bytes after it take disjoint places, so the sum of R200 is a bitwise or. -/
theorem leSum_zero_cons (b : Byte) (bs : List Byte) :
    leSum w 0 (b :: bs) = b.setWidth w ||| leSum w 0 bs <<< 8 := by
  have hdisjoint : b.setWidth w &&& leSum w 0 bs <<< 8 = 0#w := by
    ext j hj
    by_cases h : j < 8
    · simp [h]
    · simp [BitVec.getLsbD_of_ge b j (Nat.not_lt.mp h)]
  rw [leSum, leSum_eq_shiftLeft, Nat.mul_zero, BitVec.shiftLeft_zero, Nat.zero_add, Nat.mul_one,
    BitVec.add_eq_or_of_and_eq_zero _ _ hdisjoint]

theorem extractLsb'_zero_or_shiftLeft (b : Byte) (x : BitVec w) (hw : 8 ≤ w) :
    (b.setWidth w ||| x <<< 8).extractLsb' 0 8 = b := by
  ext j hj
  simp [hj, Nat.lt_of_lt_of_le hj hw]

theorem extractLsb'_succ_or_shiftLeft (b : Byte) (x : BitVec w) {k : Nat} (hw : 8 * (k + 1) + 8 ≤ w) :
    (b.setWidth w ||| x <<< 8).extractLsb' (8 * (k + 1)) 8 = x.extractLsb' (8 * k) 8 := by
  ext j hj
  have hge : 8 ≤ 8 * (k + 1) + j := by omega
  have hlt : 8 * (k + 1) + j < w := by omega
  have hsub : 8 * (k + 1) + j - 8 = 8 * k + j := by omega
  simp [hge, hlt, hsub, x.getLsbD_eq_getElem (i := 8 * k + j) (by omega)]

theorem extractLsb'_leSum {b : Byte} (bs : List Byte) : ∀ {k : Nat}, bs[k]? = some b → 8 * k + 8 ≤ w →
    (leSum w 0 bs).extractLsb' (8 * k) 8 = b := by
  induction bs with
  | nil => exact nofun
  | cons a bs ih =>
    intro k hk hw
    rw [leSum_zero_cons]
    cases k with
    | zero =>
      obtain rfl := Option.some.inj hk
      exact extractLsb'_zero_or_shiftLeft a _ hw
    | succ k => exact (extractLsb'_succ_or_shiftLeft a _ hw).trans (ih hk (by omega))

end decoding

theorem extractLsb'_leDecode {D : List Byte} {k : Nat} {b : Byte} (hD : D.length ≤ v.wordBytes) (hk : D[k]? = some b) :
    (leDecode v D).extractLsb' (8 * k) 8 = b := by
  have hw := wordBits_eq_mul_wordBytes v
  obtain ⟨hlt, -⟩ := List.getElem?_eq_some_iff.mp hk
  exact extractLsb'_leSum D hk (by omega)

/-! ### Encoding (44_codec R201) -/

@[simp] theorem leEncode_length (x : Word v) : (leEncode v x).length = v.wordBytes := by
  rw [leEncode, List.length_map, List.length_range]

theorem leEncode_getElem? (x : Word v) {k : Nat} (hk : k < v.wordBytes) :
    (leEncode v x)[k]? = some (x.extractLsb' (8 * k) 8) := by
  rw [leEncode, List.getElem?_map, List.getElem?_range hk, Option.map_some]

/-- Settles O45: the bytes that are decoded are the bytes of the word, and the bytes of a word are its encoding. A partial
encoding is a prefix by definition (R202). -/
theorem codecIsLittleEndian : Obligations.CodecIsLittleEndian :=
  ⟨fun _ _ _ _ hD hk => extractLsb'_leDecode hD.le hk,
    fun _ x => ⟨leEncode_length x, fun _ hk => leEncode_getElem? x hk⟩,
    fun _ _ _ _ => rfl⟩

end Sys2Proof.Machine
end

section
/-! PROOFS. The exceptions (O34, O35, O36, O13, O38, O52): what a command does to its slot is settled by the first check
of 60_exceptions R226 that fails, and each statement is read off from that. -/

namespace Sys2Proof.Machine

open Sys2Proof.Claims

variable {v : Variant}

/-! ### Without the guard no procedure fails (60_exceptions R230) -/

theorem Slot.guard_of_compress_eq_none {guard final : Bool} {x : Slot v} (h : x.compress guard final = none) :
    guard = true := by
  obtain ⟨-, hg, -⟩ := (x.advanceCounter_eq_none_iff guard _).mp (Option.map_eq_none_iff.mp h)
  exact hg

theorem Slot.guard_of_makeRoom_eq_none {guard : Bool} {x : Slot v} (h : x.makeRoom guard = none) : guard = true := by
  by_cases hf : x.filled.val = v.blockBytes
  · rw [Slot.makeRoom_full hf] at h
    exact Slot.guard_of_compress_eq_none h
  · rw [Slot.makeRoom_not_full hf] at h
    cases h

theorem Slot.guard_of_absorbLoop_eq_none {guard : Bool} (fuel : Nat) : ∀ (D : List Byte) {x : Slot v},
    Slot.absorbLoop guard fuel D x = none → guard = true := by
  induction fuel with
  | zero => exact fun D x h => nomatch h
  | succ fuel ih =>
    intro D x h
    cases D with
    | nil => cases h
    | cons b D =>
      rw [Slot.absorbLoop_succ] at h
      cases hr : x.makeRoom guard with
      | none => exact Slot.guard_of_makeRoom_eq_none hr
      | some y =>
        rw [hr] at h
        exact ih _ h

theorem Slot.guard_of_absorb_eq_none {guard : Bool} {D : List Byte} {x : Slot v} (h : x.absorb guard D = none) :
    guard = true :=
  Slot.guard_of_absorbLoop_eq_none _ D h

theorem Slot.guard_of_absorbByte_eq_none {guard : Bool} {b : Byte} {x : Slot v} (h : x.absorbByte guard b = none) :
    guard = true :=
  Slot.guard_of_makeRoom_eq_none (Option.map_eq_none_iff.mp h)

theorem Slot.guard_of_finalize_eq_none {guard : Bool} {x : Slot v} (h : x.finalize guard = none) : guard = true :=
  Slot.guard_of_compress_eq_none (Option.map_eq_none_iff.mp h)

theorem Slot.guard_of_absorbFinalize_eq_none {guard : Bool} {D : List Byte} {x : Slot v}
    (h : x.absorbFinalize guard D = none) : guard = true := by
  cases ha : x.absorb guard D with
  | none => exact Slot.guard_of_absorb_eq_none ha
  | some y =>
    rw [Slot.absorbFinalize, ha] at h
    exact Slot.guard_of_finalize_eq_none h

/-! ### The entry checks (60_exceptions R226 step 2) -/

section entry
variable {s : State} {i : Instr} {x : Slot s.variant}

theorem firstError_construction (hc : constructs i = true) : firstError i s x = argumentError i s := if_pos hc

theorem firstError_not_live (hc : constructs i = false) (hl : x.live = false) :
    firstError i s x = some .noInstance := by
  simp [firstError, hc, hl]

theorem firstError_poisoned (hc : constructs i = false) (hl : x.live = true) (hp : x.poison = true) :
    firstError i s x = some .illegalState := by
  simp [firstError, hc, hl, hp]

theorem firstError_ready (h : x.live = true ∧ x.poison = false) : firstError i s x = argumentError i s := by
  simp [firstError, h]

/-- Which check a first error comes from. -/
theorem firstError_cases {e : Status} (h : firstError i s x = some e) :
    (x.live = false ∧ e = .noInstance) ∨ (x.poison = true ∧ e = .illegalState) ∨ argumentError i s = some e := by
  cases hc : constructs i with
  | true => exact .inr (.inr (firstError_construction hc ▸ h))
  | false =>
    cases hl : x.live with
    | false => exact .inl ⟨rfl, Option.some.inj (h.symm.trans (firstError_not_live hc hl))⟩
    | true =>
      cases hp : x.poison with
      | true => exact .inr (.inl ⟨rfl, Option.some.inj (h.symm.trans (firstError_poisoned hc hl hp))⟩)
      | false => exact .inr (.inr (firstError_ready ⟨hl, hp⟩ ▸ h))

end entry

theorem readyEffect_not_live {x : Slot v} (h : x.live = false) (g : Slot v → Effect v) :
    readyEffect g (some x) = .report (errorResults .noInstance) := by
  simp [readyEffect, slotEffect, Slot.entryCheck_not_live h]

theorem readyEffect_poisoned {x : Slot v} (hl : x.live = true) (hp : x.poison = true) (g : Slot v → Effect v) :
    readyEffect g (some x) = .report (errorResults .illegalState) := by
  simp [readyEffect, slotEffect, Slot.entryCheck_poisoned hl hp]

/-! ### The effect that the checks of R226 leave open -/

/-- The effects a command may have once the checks are done, from the first check that has failed: that status is
reported; or, with none, the command completes with `OK`, or the guard trips, if it is on and the command can
compress. -/
inductive Checked (guard : Bool) (i : Instr) : Option Status → Effect v → Prop
  | refused (e : Status) : Checked guard i (some e) (.report (errorResults e))
  | written (y : Slot v) {r : Results} (hr : r.status = .ok) : Checked guard i none (.write y r)
  | reported {r : Results} (hr : r.status = .ok) : Checked guard i none (.report r)
  | tripped (hg : guard = true) (hm : mayCompress i = true) : Checked guard i none .guardTrip

/-- The check of an operand, by the status it fails with. -/
def operandError {α : Type} : Except Status α → Option Status
  | .error e => some e
  | .ok _ => none

section checked
variable {guard : Bool} {i : Instr}

theorem Checked.eq_report {e : Status} {f : Effect v} (h : Checked guard i (some e) f) :
    f = .report (errorResults e) := by
  cases h
  rfl

theorem Checked.operand {α : Type} {g : α → Effect v} (o : Except Status α) (h : ∀ a, Checked guard i none (g a)) :
    Checked guard i (operandError o) (operandEffect g o) := by
  cases o with
  | error e => exact .refused e
  | ok a => exact h a

theorem Checked.update {o : Option (Slot v)} (hm : mayCompress i = true) (h : o = none → guard = true) :
    Checked guard i none (updateEffect o) := by
  cases o with
  | none => exact .tripped (h rfl) hm
  | some y => exact .written y rfl

theorem Checked.digest {o : Option (List Byte × Slot v)} (hm : mayCompress i = true) (h : o = none → guard = true) :
    Checked guard i none (digestEffect o) := by
  cases o with
  | none => exact .tripped (h rfl) hm
  | some p => exact .written p.2 rfl

/-- Construction has no entry checks (60_exceptions R226). -/
theorem Checked.construction {s : State} {x : Slot s.variant} {f : Effect s.variant} (hc : constructs i = true)
    (h : Checked guard i (argumentError i s) f) : Checked guard i (firstError i s x) f := by
  rwa [firstError_construction hc]

/-- The entry checks of the machine are step 2 of R226. -/
theorem Checked.ready {s : State} {x : Slot s.variant} {g : Slot s.variant → Effect s.variant}
    (hc : constructs i = false) (h : Checked guard i (argumentError i s) (g x)) :
    Checked guard i (firstError i s x) (readyEffect g (some x)) := by
  cases hl : x.live with
  | false =>
    rw [firstError_not_live hc hl, readyEffect_not_live hl]
    exact .refused _
  | true =>
    cases hp : x.poison with
    | true =>
      rw [firstError_poisoned hc hl hp, readyEffect_poisoned hl hp]
      exact .refused _
    | false => rwa [firstError_ready ⟨hl, hp⟩, readyEffect_ready ⟨hl, hp⟩]

end checked

/-! ### The argument checks of R226 as the machine's operands -/

section operands
variable (s : State) (c : SlotId) (nn : Byte) (off len : Int)

theorem argumentError_init : argumentError (.init c nn) s = operandError (s.digestLengthOperand nn) := by
  by_cases hn : 1 ≤ nn.toNat ∧ nn.toNat ≤ s.variant.maxDigest
  · simp [argumentError, State.digestLengthOperand_ok hn, operandError, hn]
  · simp [argumentError, State.digestLengthOperand_bad hn, operandError, hn]

theorem argumentError_initk : argumentError (.initk c nn) s = operandError (s.keyOperand nn) := by
  cases hsrc : s.src with
  | none => simp [argumentError, State.keyOperand_absent nn hsrc, operandError, hsrc]
  | some K =>
    by_cases hn : 1 ≤ nn.toNat ∧ nn.toNat ≤ s.variant.maxDigest
    · by_cases hk : K.length ≤ s.variant.maxKey
      · simp [argumentError, State.keyOperand_ok hsrc hn hk, operandError, hsrc, hn, hk]
      · simp [argumentError, State.keyOperand_bad hsrc (.inr (Nat.not_le.mp hk)), operandError, hsrc, hk]
    · have hn' : ¬ (1 ≤ nn.toNat ∧ nn.toNat ≤ s.variant.maxDigest ∧ K.length ≤ s.variant.maxKey) :=
        fun ⟨h1, h2, _⟩ => hn ⟨h1, h2⟩
      simp [argumentError, State.keyOperand_bad hsrc (.inl hn), operandError, hsrc, hn']

theorem argumentError_upd : argumentError (.upd c) s = operandError s.wholeSource := by
  cases hsrc : s.src with
  | none => simp [argumentError, State.wholeSource_absent hsrc, operandError, hsrc]
  | some D => simp [argumentError, State.wholeSource_present hsrc, operandError, hsrc]

theorem argumentError_updr : argumentError (.updr c off len) s = operandError (s.sourceWindow off len) := by
  cases hsrc : s.src with
  | none => simp [argumentError, State.sourceWindow_absent off len hsrc, operandError, hsrc]
  | some D =>
    have hiff := windowInside_iff off len D.length
    by_cases hw : off < 0 ∨ len < 0 ∨ off + len > D.length
    · have hout := State.sourceWindow_outside (off := off) (len := len) hsrc (by omega)
      simp only [argumentError, hsrc, if_pos hw, hout, operandError]
    · have hin := hiff.mpr (by omega)
      simp only [argumentError, hsrc, if_neg hw, State.sourceWindow, hin, if_true, operandError]

theorem argumentError_digb : argumentError (.digb c) s = operandError s.wholeSource := by
  rw [← argumentError_upd s c]
  cases hsrc : s.src <;> simp [argumentError, hsrc]

theorem argumentError_digr : argumentError (.digr c off len) s = operandError (s.sourceWindow off len) := by
  rw [← argumentError_updr s c]
  cases hsrc : s.src <;> simp [argumentError, hsrc]

variable {s c nn off len} {e : Status}

theorem digestLengthOperand_error (h : operandError (s.digestLengthOperand nn) = some e) : e = .invalidArgument := by
  unfold State.digestLengthOperand at h
  split at h
  · cases h
  · exact (Option.some.inj h).symm

theorem keyOperand_error (h : operandError (s.keyOperand nn) = some e) : e = .nullInput ∨ e = .invalidArgument := by
  unfold State.keyOperand at h
  split at h
  · exact .inl (Option.some.inj h).symm
  · split at h
    · exact .inr (Option.some.inj h).symm
    · split at h
      · exact .inr (Option.some.inj h).symm
      · cases h

theorem wholeSource_error (h : operandError s.wholeSource = some e) : e = .nullInput := by
  unfold State.wholeSource at h
  split at h
  · exact (Option.some.inj h).symm
  · cases h

theorem sourceWindow_error (h : operandError (s.sourceWindow off len) = some e) :
    e = .nullInput ∨ e = .outOfRange := by
  unfold State.sourceWindow at h
  split at h
  · exact .inl (Option.some.inj h).symm
  · split at h
    · cases h
    · exact .inr (Option.some.inj h).symm

end operands

/-! ### Every command follows the checks -/

/-- On existing slots the effect of a command is one that the first failing check of R226 leaves open. -/
theorem commandEffect_checked {s : State} {i : Instr} (x : Slot s.variant) (hd : (writtenSlot i).toNat < s.nctx) :
    Checked s.guard i (firstError i s x) (commandEffect s i (some x)) := by
  cases i with
  | init c nn => exact .construction rfl (argumentError_init s c nn ▸ .operand _ fun _ => .written _ rfl)
  | initk c nn => exact .construction rfl (argumentError_initk s c nn ▸ .operand _ fun _ => .written _ rfl)
  | upd1 c b => exact .ready rfl (.update rfl Slot.guard_of_absorbByte_eq_none)
  | upd c =>
    exact .ready rfl (argumentError_upd s c ▸ .operand _ fun _ => .update rfl Slot.guard_of_absorb_eq_none)
  | updr c off len =>
    exact .ready rfl (argumentError_updr s c off len ▸ .operand _ fun _ => .update rfl Slot.guard_of_absorb_eq_none)
  | dig c => exact .ready rfl (.digest rfl Slot.guard_of_finalize_eq_none)
  | digb c =>
    exact .ready rfl (argumentError_digb s c ▸ .operand _ fun _ => .digest rfl Slot.guard_of_absorbFinalize_eq_none)
  | digr c off len =>
    exact .ready rfl
      (argumentError_digr s c off len ▸ .operand _ fun _ => .digest rfl Slot.guard_of_absorbFinalize_eq_none)
  | rst c | burn c => exact .ready rfl (.written _ rfl)
  | len c | alg c => exact .ready rfl (.reported rfl)
  | copy c d =>
    have hd : ¬ s.nctx ≤ d.toNat := Nat.not_le.mpr hd
    simp only [commandEffect, copyEffect, if_neg hd]
    refine .ready rfl ?_
    by_cases hdc : d ≠ c
    · simpa only [if_pos hdc] using .written _ rfl
    · simpa only [if_neg hdc] using .reported rfl

/-- A slot that the device lacks is refused: the one that the command names, or the destination of `COPY`. -/
theorem commandEffect_absent {s : State} {i : Instr} (h : s.nctx ≤ (slotOf i).toNat ∨ s.nctx ≤ (writtenSlot i).toNat) :
    commandEffect s i s.bank.slots[(slotOf i).toNat]? = .report (errorResults .illegalCommand) := by
  by_cases hn : s.nctx ≤ (slotOf i).toNat
  · rw [List.getElem?_eq_none hn]
    cases i with
    | copy c d =>
      simp only [commandEffect, copyEffect]
      split <;> rfl
    | _ => rfl
  · have hw := h.resolve_left hn
    cases i with
    | copy c d => simp only [commandEffect, copyEffect, if_pos (show s.nctx ≤ d.toNat from hw)]
    | _ => exact absurd hw hn

/-- All that a command can do: a slot that the device lacks is refused, and otherwise it has an effect that the first
failing check leaves open. -/
theorem exec_checked (s : State) (i : Instr) :
    exec i s = .next (s.reportError .illegalCommand) ∨
    ∃ x e, SlotIs s (slotOf i) x ∧ Checked s.guard i (firstError i s x) e ∧
      exec i s = .next (s.applyEffect (writtenSlot i) e) := by
  by_cases h : s.nctx ≤ (slotOf i).toNat ∨ s.nctx ≤ (writtenSlot i).toNat
  · left
    rw [exec_eq_applyEffect, commandEffect_absent h]
    rfl
  · obtain ⟨hc, hd⟩ := not_or.mp h
    have hx := List.getElem?_eq_getElem (Nat.not_le.mp hc)
    refine .inr ⟨_, _, hx, commandEffect_checked _ (Nat.not_le.mp hd), ?_⟩
    rw [exec_eq_applyEffect, hx]

/-- The first check that fails is reported (60_exceptions R226). -/
theorem exec_of_firstError {s : State} {i : Instr} {x : Slot s.variant} {e : Status}
    (hd : (writtenSlot i).toNat < s.nctx) (hx : SlotIs s (slotOf i) x) (h : firstError i s x = some e) :
    exec i s = .next (s.reportError e) := by
  have heffect : commandEffect s i (some x) = .report (errorResults e) :=
    Checked.eq_report (h ▸ commandEffect_checked x hd)
  rw [exec_eq_applyEffect, hx, heffect]
  rfl

/-- A refused command ends with its status and changes no slot (60_exceptions R231). -/
theorem refused_of_firstError {s : State} {i : Instr} {x : Slot s.variant} {e : Status}
    (hd : (writtenSlot i).toNat < s.nctx) (hx : SlotIs s (slotOf i) x) (h : firstError i s x = some e) :
    ∃ t, exec i s = .next t ∧ EndedWith t e ∧ SlotsKept s t :=
  ⟨_, exec_of_firstError hd hx h, endedWith_reportError s e, slotsKept_reportError s e⟩

theorem writtenSlot_lt_of_wellFormed {nctx : Nat} {i : Instr} (h : wellFormed nctx i = true) :
    (writtenSlot i).toNat < nctx := by
  cases i with
  | copy c d =>
    simp only [wellFormed, Bool.and_eq_true] at h
    obtain ⟨-, hd⟩ := h
    exact of_decide_eq_true hd
  | _ => exact slotOf_lt_of_wellFormed h

theorem writtenSlot_of_mayCompress {i : Instr} (h : mayCompress i = true) : writtenSlot i = slotOf i := by
  cases i with
  | copy c d => cases h
  | _ => rfl

/-- Settles O34: illegal words are reported by the decoder's rule, the first failing check by `exec_of_firstError`, and
past the checks a command completes with `OK` or ends as a tripped guard does. -/
theorem checksInOrder : Obligations.ChecksInOrder := by
  refine ⟨fun s ws e h => ?decoder, fun s i x e hw hx h => ?failing, fun s i x hw hx h => ?passing⟩
  case decoder => exact ⟨_, runCommand_illegal h, endedWith_reportError _ _, slotsKept_reportError _ _⟩
  case failing => exact refused_of_firstError (writtenSlot_lt_of_wellFormed hw) hx h
  case passing =>
    have hchecked := commandEffect_checked x (writtenSlot_lt_of_wellFormed hw)
    have hexec := exec_eq_applyEffect s i
    rw [h] at hchecked
    rw [hx] at hexec
    generalize hf : commandEffect s i (some x) = f at hchecked hexec
    cases hchecked with
    | written y hr => exact ⟨_, hexec, .inl (congrArg Status.code hr)⟩
    | reported hr => exact ⟨_, hexec, .inl (congrArg Status.code hr)⟩
    | tripped _ hm =>
      obtain ⟨t, y, ht, hend, hkept, hy⟩ := guardTrips_of_commandEffect (writtenSlot_of_mayCompress hm) hx hf
      exact ⟨t, ht, .inr ⟨hm, hend, hkept, y, hy⟩⟩

/-! ### Slots that are not live, and poisoned ones (60_exceptions R227, R228) -/

/-- Construction whose arguments pass writes the slot anew, whatever the slot held (40_lifecycle R100, R101). -/
theorem commandEffect_construction {s : State} {i : Instr} {x : Slot s.variant} (hc : constructs i = true)
    (h : firstError i s x = none) :
    ∃ nn K, commandEffect s i (some x) = .write (x.construct nn K) okResults := by
  cases i with
  | init c nn =>
    have h : operandError (s.digestLengthOperand nn) = none := argumentError_init s c nn ▸ h
    cases ho : s.digestLengthOperand nn with
    | error e => simp [ho, operandError] at h
    | ok m => exact ⟨m, [], by simp [commandEffect, slotEffect, operandEffect, ho]⟩
  | initk c nn =>
    have h : operandError (s.keyOperand nn) = none := argumentError_initk s c nn ▸ h
    cases ho : s.keyOperand nn with
    | error e => simp [ho, operandError] at h
    | ok K => exact ⟨nn, K, by simp [commandEffect, slotEffect, operandEffect, ho]⟩
  | _ => cases hc

theorem writtenSlot_of_construction {i : Instr} (hc : constructs i = true) : writtenSlot i = slotOf i := by
  cases i with
  | copy c d => cases hc
  | _ => rfl

/-- Settles O35: on a slot that is not live the first failing check is that one. -/
theorem noInstanceOnUnconstructedSlot : Obligations.NoInstanceOnUnconstructedSlot :=
  fun _ _ _ hw hc hx hl => refused_of_firstError (writtenSlot_lt_of_wellFormed hw) hx (firstError_not_live hc hl)

/-- Settles O36: on a live poisoned slot the first failing check is the second of the entry checks, which construction
does not have. -/
theorem poisonedSlotRefused : Obligations.PoisonedSlotRefused := by
  refine ⟨fun s i x hw hc hx hl hp => ?refused, fun s i x hc hx _ h => ?constructed⟩
  case refused => exact refused_of_firstError (writtenSlot_lt_of_wellFormed hw) hx (firstError_poisoned hc hl hp)
  case constructed =>
    obtain ⟨nn, K, heffect⟩ := commandEffect_construction hc h
    have hexec := exec_eq_applyEffect s i
    rw [hx, heffect, writtenSlot_of_construction hc] at hexec
    exact ⟨_, x.construct nn K, hexec, resultsAre_complete _ okResults, onlySlotBecomes_write _ _ hx.lt, rfl, rfl⟩

/-! ### How a command ends -/

/-- The status codes are distinct (60_exceptions R220). -/
theorem Status.code_injective : Function.Injective Status.code := by
  intro a b h
  cases a <;> cases b <;> simp [Status.code] at h ⊢

/-- The argument checks report the source operand (60_exceptions R223, R224), and those of construction also the lengths
(R222). -/
theorem argumentError_cases {i : Instr} {s : State} {e : Status} (h : argumentError i s = some e) :
    e = .nullInput ∨ e = .outOfRange ∨ (constructs i = true ∧ e = .invalidArgument) := by
  cases i with
  | init c nn =>
    rw [argumentError_init] at h
    exact .inr (.inr ⟨rfl, digestLengthOperand_error h⟩)
  | initk c nn =>
    rw [argumentError_initk] at h
    exact (keyOperand_error h).imp id fun he => .inr ⟨rfl, he⟩
  | upd c =>
    rw [argumentError_upd] at h
    exact .inl (wholeSource_error h)
  | digb c =>
    rw [argumentError_digb] at h
    exact .inl (wholeSource_error h)
  | updr c off len =>
    rw [argumentError_updr] at h
    exact (sourceWindow_error h).imp id .inl
  | digr c off len =>
    rw [argumentError_digr] at h
    exact (sourceWindow_error h).imp id .inl
  | upd1 | dig | rst | burn | len | copy | alg => cases h

/-- A command completes with `OK`, or ends with an error and zero results (60_exceptions R232): a slot that the device
lacks, the first failing check, or the counter guard. -/
theorem exec_ends {s t : State} {i : Instr} (h : exec i s = .next t) :
    t.status = Status.ok.code ∨
    ∃ e, EndedWith t e ∧ (e = .illegalCommand ∨ (∃ x, SlotIs s (slotOf i) x ∧ firstError i s x = some e) ∨
      (e = .illegalState ∧ s.guard = true)) := by
  rcases exec_checked s i with hexec | ⟨x, f, hx, hf, hexec⟩ <;>
    obtain rfl := Host.Outcome.next.inj (hexec.symm.trans h)
  · exact .inr ⟨_, endedWith_reportError _ _, .inl rfl⟩
  · generalize he : firstError i s x = o at hf
    cases hf with
    | refused e => exact .inr ⟨e, endedWith_reportError _ _, .inr (.inl ⟨x, hx, he⟩)⟩
    | written y hr => exact .inl (congrArg Status.code hr)
    | reported hr => exact .inl (congrArg Status.code hr)
    | tripped hg _ => exact .inr ⟨_, endedWith_reportError _ _, .inr (.inr ⟨rfl, hg⟩)⟩

/-- A command that ends with the code of an error ends as that error does. -/
theorem exec_ends_of_status {s t : State} {i : Instr} {e : Status} (h : exec i s = .next t) (he : e ≠ .ok)
    (hst : t.status = e.code) :
    e = .illegalCommand ∨ (∃ x, SlotIs s (slotOf i) x ∧ firstError i s x = some e) ∨
      (e = .illegalState ∧ s.guard = true) := by
  rcases exec_ends h with hok | ⟨f, ⟨hf, -⟩, hcase⟩
  · exact absurd (Status.code_injective (hst.symm.trans hok)) he
  · obtain rfl := Status.code_injective (hst.symm.trans hf)
    exact hcase

theorem exists_slotIs {s : State} {c : SlotId} (h : c.toNat < s.nctx) : ∃ x, SlotIs s c x :=
  ⟨_, List.getElem?_eq_getElem h⟩

/-- Construction whose argument check fails is refused on any slot. -/
theorem construction_refused {s : State} {i : Instr} {e : Status} (hc : constructs i = true)
    (hlt : (slotOf i).toNat < s.nctx) (h : argumentError i s = some e) :
    ∃ t, exec i s = .next t ∧ EndedWith t e ∧ SlotsKept s t := by
  obtain ⟨x, hx⟩ := exists_slotIs hlt
  exact refused_of_firstError (writtenSlot_of_construction hc ▸ hlt) hx ((firstError_construction hc).trans h)

/-- Settles O13: a bad length is the argument check of construction that fails, and no other check has that status. -/
theorem invalidArgumentOnlyFromConstruction : Obligations.InvalidArgumentOnlyFromConstruction := by
  refine ⟨fun s c nn hc hn => ?init, fun s c nn K hc hK hn => ?initk, fun i s t hi h hst => ?others⟩
  case init =>
    have hbad : ¬ (1 ≤ nn.toNat ∧ nn.toNat ≤ s.variant.maxDigest) := by omega
    refine construction_refused (i := .init c nn) rfl hc ?_
    rw [argumentError_init, State.digestLengthOperand_bad hbad]
    rfl
  case initk =>
    have hbad : ¬ (1 ≤ nn.toNat ∧ nn.toNat ≤ s.variant.maxDigest) ∨ s.variant.maxKey < K.length := by omega
    refine construction_refused (i := .initk c nn) rfl hc ?_
    rw [argumentError_initk, State.keyOperand_bad hK hbad]
    rfl
  case others =>
    rcases exec_ends_of_status h (by decide) hst with he | ⟨x, -, hx⟩ | ⟨he, -⟩
    · cases he
    · rcases firstError_cases hx with ⟨-, he⟩ | ⟨-, he⟩ | harg
      · cases he
      · cases he
      · rcases argumentError_cases harg with he | he | ⟨hc, -⟩
        · cases he
        · cases he
        · simp [hi] at hc
    · cases he

/-- Settles O38: `ILLEGAL_STATE` has two sources, a poisoned slot and the guard; and without the guard the advance
wraps. -/
theorem wideUnguardedNeverFails : Obligations.WideUnguardedNeverFails := by
  refine ⟨fun s t i x hv hw hx hp h hst => ?status, fun n x ht1 hn ht0 => ?wrap⟩
  case status =>
    obtain ⟨-, hguard⟩ := counterAdvanceRule.1 s
    rcases exec_ends_of_status h (by decide) hst with he | ⟨y, hy, herr⟩ | ⟨-, hg⟩
    · cases he
    · obtain rfl := Option.some.inj (hx.symm.trans hy)
      rcases firstError_cases herr with ⟨-, he⟩ | ⟨hpoison, -⟩ | harg
      · cases he
      · simp [hp] at hpoison
      · obtain he | he | ⟨-, he⟩ := argumentError_cases harg <;> cases he
    · simp [hguard hv, hw] at hg
  case wrap =>
    have hwraps : (x.t0.toNat + n) % 2 ^ Variant.b64.wordBits = 0 ∧ 0 < n :=
      ⟨by rw [ht0]; exact Nat.mod_self _, hn⟩
    cases hy : x.advanceCounter (guardOn .b64 false) n with
    | none =>
      obtain ⟨-, hg, -⟩ := (x.advanceCounter_eq_none_iff _ n).mp hy
      cases hg
    | some y =>
      refine ⟨y, rfl, BitVec.eq_of_toNat_eq ?_, ?_⟩
      · rw [Slot.advanceCounter_t0 hy, hwraps.1]
        rfl
      · rw [Slot.advanceCounter_t1 hy, if_pos hwraps, ht1]
        rfl

/-- A command that ends with an error has one of the codes of R220, and zero results (60_exceptions R232). -/
theorem zeroResults_of_endedWith {t : State} {e : Status} (h : EndedWith t e) : t.status.toNat ≤ 6 ∧
    t.resValue = 0 ∧ t.resDlen = 0 ∧ ∀ i : Fin Config.resMax, t.resData[i] = 0 := by
  obtain ⟨hst, hvalue, hdlen, hdata⟩ := h
  exact ⟨hst ▸ e.code_le, hvalue, hdlen, hdata⟩

/-- Settles O52: a command with any status but `OK` has ended with an error, whose results are zero. -/
theorem errorsZeroResults : Obligations.ErrorsZeroResults := by
  refine ⟨rfl, fun s ws => ?_⟩
  cases hd : decode s.nctx ws with
  | error e =>
    obtain ⟨hcode, hzero⟩ := zeroResults_of_endedWith (endedWith_reportError s .illegalCommand)
    exact ⟨_, runCommand_illegal hd, hcode, fun _ => hzero⟩
  | ok i =>
    have hexec := exec_eq_applyEffect s i
    refine ⟨_, (runCommand_legal hd).trans hexec, ?_⟩
    rcases exec_ends hexec with hok | ⟨e, he, -⟩
    · exact ⟨hok ▸ Status.code_le .ok, fun hne => absurd hok hne⟩
    · obtain ⟨hcode, hzero⟩ := zeroResults_of_endedWith he
      exact ⟨hcode, fun _ => hzero⟩

end Sys2Proof.Machine
end

section
/-! PROOFS. The step and the host (O5, O6, O7, O8, O9, O10, O56): an encoded command is taken whole, its words gather in
the port until the last is written, and what each action of the host does. -/

namespace Sys2Proof.Machine

open Sys2Proof.Claims

/-! ### The words of a command in the port (30_encoding R70, R79) -/

/-- The first word of an encoding frames the whole of it (30_encoding R79). -/
theorem encodedLength_statement (i : Instr) : Laws.EncodedLength.Statement i := by
  cases i with
  | init c nn => exact Laws.EncodedLength.init c nn
  | initk c nn => exact Laws.EncodedLength.initk c nn
  | upd1 c b => exact Laws.EncodedLength.upd1 c b
  | upd c => exact Laws.EncodedLength.upd c
  | updr c off len => exact Laws.EncodedLength.updr c off len
  | dig c => exact Laws.EncodedLength.dig c
  | digb c => exact Laws.EncodedLength.digb c
  | digr c off len => exact Laws.EncodedLength.digr c off len
  | rst c => exact Laws.EncodedLength.rst c
  | burn c => exact Laws.EncodedLength.burn c
  | len c => exact Laws.EncodedLength.len c
  | copy c d => exact Laws.EncodedLength.copy c d
  | alg c => exact Laws.EncodedLength.alg c

theorem takeCommand_encode (i : Instr) (rest : List CmdWord) :
    takeCommand (encode i ++ rest) = some (encode i, rest) := by
  obtain ⟨cw, ext, henc, hlen⟩ := encodedLength_statement i
  rw [henc] at hlen ⊢
  exact takeCommand_whole cw ext rest hlen

/-- While only some of a command's words have been written there is no command to take. -/
theorem takeCommand_take_encode {i : Instr} {k : Nat} (hk : k < (encode i).length) :
    takeCommand ((encode i).take k) = none := by
  obtain ⟨cw, ext, henc, hlen⟩ := encodedLength_statement i
  rw [takeCommand_none_iff]
  intro cw' tail htake
  have hcw : cw' = cw := by
    cases k with
    | zero => simp at htake
    | succ k =>
      rw [henc, List.take_succ_cons] at htake
      obtain ⟨h, -⟩ := List.cons.inj htake
      exact h.symm
  rw [hcw, ← hlen, List.length_take]
  omega

theorem step_encode {s : State} {rest : List CmdWord} {i : Instr} (h : wellFormed s.nctx i = true)
    (hport : s.port = encode i ++ rest) : step s = exec i { s with port := rest } :=
  (step_command (hport ▸ takeCommand_encode i rest)).trans (runCommand_legal (decodeInvertsEncode s.nctx i h))

/-- Settles O5: a whole command at the head of the port is decoded and executed, and the words of an encoding are one. -/
theorem stepRunsDecodedCommand : Obligations.StepRunsDecodedCommand :=
  ⟨fun _ _ _ _ htake hdecode => (step_command htake).trans (runCommand_legal hdecode),
   fun _ _ _ h hport => step_encode h hport⟩

/-! ### The host's words (30_encoding R70) -/

theorem step_hostWord {s : State} {w : CmdWord} {rest : List HostAction} (hport : takeCommand s.port = none)
    (hhost : s.host = .word w :: rest) : step s = .next { s with port := s.port ++ [w], host := rest } := by
  rw [step_host hport, State.hostStep, hhost]

/-- Settles O7: without a whole command the step is the host's, which waits or writes its word. -/
theorem waitingStepTakesHostWord : Obligations.WaitingStepTakesHostWord := by
  refine ⟨fun s hport hhost => ?_, fun _ _ _ => step_hostWord⟩
  rw [step_host hport, State.hostStep, hhost]

theorem coreRun_succ (M : Host.Core) {s t : M.State} (h : M.step s = .next t) (k : Nat) :
    M.run (k + 1) s = M.run k t := by
  rw [Host.Core.run, h]

theorem coreRun_one (M : Host.Core) (s : M.State) : M.run 1 s = M.step s := by
  rw [Host.Core.run]
  cases M.step s <;> rfl

/-- The words that a host writes gather in the port, as long as no whole command stands there before the last. -/
theorem run_hostWords {rest : List HostAction} (ws : List CmdWord) : ∀ {s : State} (k : Nat),
    s.host = ws.map .word ++ rest → (∀ n < ws.length, takeCommand (s.port ++ ws.take n) = none) →
    Sys2Proof.core.run (ws.length + k) s = Sys2Proof.core.run k { s with port := s.port ++ ws, host := rest } := by
  induction ws with
  | nil =>
    rintro s k hhost -
    have hs : { s with port := s.port ++ [], host := rest } = s := by
      rw [List.append_nil]
      exact congrArg (fun host => { s with host := host }) hhost.symm
    rw [hs, List.length_nil, Nat.zero_add]
  | cons w ws ih =>
    intro s k hhost hnone
    have hfirst : takeCommand s.port = none := by simpa using hnone 0 (Nat.succ_pos _)
    have hlater : ∀ n < ws.length, takeCommand ((s.port ++ [w]) ++ ws.take n) = none := fun n hn => by
      simpa using hnone (n + 1) (Nat.succ_lt_succ hn)
    calc Sys2Proof.core.run ((w :: ws).length + k) s
        = Sys2Proof.core.run (ws.length + k + 1) s := by rw [List.length_cons, Nat.succ_add]
      _ = Sys2Proof.core.run (ws.length + k) { s with port := s.port ++ [w], host := ws.map .word ++ rest } :=
          coreRun_succ Sys2Proof.core (step_hostWord hfirst hhost) _
      _ = Sys2Proof.core.run k { s with port := s.port ++ [w] ++ ws, host := rest } := ih k rfl hlater
      _ = Sys2Proof.core.run k { s with port := s.port ++ w :: ws, host := rest } := by
          rw [List.append_assoc, List.singleton_append]

/-- Settles O6: the words of an encoding gather in the empty port, and the step after the last executes it. -/
theorem hostWordsRunAsCommand : Obligations.HostWordsRunAsCommand := by
  intro s i rest h hport hhost
  have hnone : ∀ n < (encode i).length, takeCommand (s.port ++ (encode i).take n) = none := fun n hn => by
    rw [hport]
    exact takeCommand_take_encode hn
  refine (run_hostWords (encode i) 1 hhost hnone).trans ((coreRun_one Sys2Proof.core _).trans ?_)
  exact step_encode h (by rw [hport, List.nil_append, List.append_nil])

/-! ### The source operand port and the external reset (70_reset_and_hazards R250, R253) -/

theorem step_hostSource {s : State} {b : Option (List Byte)} {rest : List HostAction}
    (hport : takeCommand s.port = none) (hhost : s.host = .source b :: rest) :
    step s = State.setSource { s with host := rest } b := by
  rw [step_host hport, State.hostStep, hhost]

theorem State.portReadsSource_of_port_nil {s : State} (h : s.port = []) : s.portReadsSource = false := by
  rw [State.portReadsSource, h]

/-- The legality of a command does not depend on its extension words (30_encoding R82): the first word of a window
command, followed by zeros, is the encoding of the command on the empty window. -/
theorem State.portReadsSource_of_window {s : State} {i : Instr} {cw x1 x2 : CmdWord} {held : List CmdWord}
    (h : wellFormed s.nctx i = true) (henc : encode i = [cw, x1, x2]) (hport : s.port = cw :: held) :
    s.portReadsSource = true := by
  have hzeros : ∃ j, readsSource j = true ∧ wellFormed s.nctx j = true ∧ encode j = [cw, 0, 0] := by
    have hslot := slotOf_lt_of_wellFormed h
    have hzero : isSigned32 0 = true := by decide
    have hlegal : (slotExists s.nctx (slotOf i) && isSigned32 0 && isSigned32 0) = true := by
      simpa [slotExists, hzero] using hslot
    cases i with
    | updr c off len =>
      obtain ⟨rfl, -⟩ := List.cons.inj henc
      exact ⟨.updr c 0 0, rfl, hlegal, rfl⟩
    | digr c off len =>
      obtain ⟨rfl, -⟩ := List.cons.inj henc
      exact ⟨.digr c 0 0, rfl, hlegal, rfl⟩
    | _ => simp [encode] at henc
  obtain ⟨j, hreads, hj, hencj⟩ := hzeros
  have hdecode : decode s.nctx [cw, 0, 0] = .ok j := hencj ▸ decodeInvertsEncode s.nctx j hj
  rw [State.portReadsSource, hport]
  simp only [hdecode, hreads]

theorem State.setSource_refused {s : State} {b : Option (List Byte)} (h : s.portReadsSource = true) (hb : b ≠ s.src) :
    s.setSource b = .refused .sourceChangedDuringCommand := by
  simp [State.setSource, h, hb]

theorem State.setSource_fits {s : State} {b : Option (List Byte)} (h : s.portReadsSource = false)
    (hb : sourceFits b = true) : s.setSource b = .next { s with src := b } := by
  simp [State.setSource, h, hb]

theorem State.setSource_too_long {s : State} {b : Option (List Byte)} (h : s.portReadsSource = false)
    (hb : sourceFits b = false) : s.setSource b = .refused .sourceTooLong := by
  simp [State.setSource, h, hb]

/-- Settles O8: an empty port holds no command that reads `SRC`, and the first words of a window command do. -/
theorem sourceSetBetweenCommandsOnly : Obligations.SourceSetBetweenCommandsOnly := by
  refine ⟨fun s b rest hport hhost => ?between, fun s b rest i cw x1 x2 held h henc hheld hport hhost hb => ?inside⟩
  case between =>
    have hstep := step_hostSource (by rw [hport]; rfl) hhost
    have hreads := State.portReadsSource_of_port_nil (s := { s with host := rest }) hport
    exact ⟨fun hfits => hstep.trans (State.setSource_fits hreads hfits),
      fun hlong => hstep.trans (State.setSource_too_long hreads hlong)⟩
  case inside =>
    obtain ⟨k, hk, hcut, tail, htail⟩ :
        ∃ k < (encode i).length, held = (encode i).take k ∧ ∃ tail, held = cw :: tail := by
      rw [henc]
      rcases hheld with rfl | rfl
      · exact ⟨1, by simp, rfl, _, rfl⟩
      · exact ⟨2, by simp, rfl, _, rfl⟩
    have hstep := step_hostSource (by rw [hport, hcut]; exact takeCommand_take_encode hk) hhost
    have hreads := State.portReadsSource_of_window (s := { s with host := rest }) h henc (hport.trans htail)
    exact hstep.trans (State.setSource_refused hreads hb)

/-- Settles O9: the reset makes every slot one that is neither live nor poisoned, and zero result registers. -/
theorem externalResetClearsDevice : Obligations.ExternalResetClearsDevice := by
  intro s rest hport hhost
  refine ⟨State.deviceReset { s with host := rest }, by rw [step_host hport, State.hostStep, hhost],
    ⟨rfl, ?nctx, rfl⟩, fun x hx => ?slots, ⟨rfl, rfl, rfl, fun i => ?data⟩, rfl, rfl, rfl⟩
  case nctx => simp [State.nctx, State.deviceReset]
  case slots =>
    obtain ⟨n, -, rfl⟩ := List.mem_map.mp hx
    exact ⟨rfl, rfl⟩
  case data => simp [State.deviceReset]

/-! ### The state after power-on (10_state R39) -/

theorem eq_reset_of_mem_reset_slots {x : Slot State.reset.variant} (h : x ∈ State.reset.bank.slots) :
    x = Slot.reset State.reset.variant :=
  List.eq_of_mem_replicate h

/-- Settles O10: every slot is the slot after power-on, and the registers are zero by definition. -/
theorem resetStateIsAsTheSpecSays : Obligations.ResetStateIsAsTheSpecSays := by
  refine ⟨fun x hx => ?slots, ⟨rfl, rfl, rfl, fun i => ?data⟩, rfl, rfl, rfl, rfl⟩
  case slots =>
    obtain rfl := eq_reset_of_mem_reset_slots hx
    exact ⟨rfl, rfl⟩
  case data => simp [State.reset, State.resetWith]

/-- Settles O56: no slot is live, and the registers, `SRC` and the port are empty. -/
theorem resetIsSound : Obligations.ResetIsSound := by
  have hslots : ∀ x ∈ State.reset.bank.slots, x.Sound := fun x hx => by
    obtain rfl := eq_reset_of_mem_reset_slots hx
    exact ⟨nofun, nofun⟩
  exact ⟨by decide, hslots, rfl, by decide, by decide, fun i _ => by simp [State.reset, State.resetWith], rfl⟩

end Sys2Proof.Machine
end

section
/-! PROOFS. The lifecycle commands (O11, O12, O14 to O21): a context reset and a construction field by field, how a command
that completes leaves the device, and each command's effect on its slot. -/

namespace Sys2Proof.Machine

open Sys2Proof.Claims

variable {v : Variant}

/-! ### The parameter word (40_lifecycle R102) -/

/-- The three parts of the parameter word take disjoint bits. -/
theorem paramBits_eq_append (nn kk : Byte) :
    (0x01010000#32 ^^^ (kk.setWidth 32 <<< 8)) ^^^ nn.setWidth 32 = 0x0101#16 ++ kk ++ nn := by
  apply BitVec.eq_of_getLsbD_eq
  intro i hi
  simp only [BitVec.getLsbD_append]
  interval_cases i <;> simp

theorem paramBytes_toNat (nn kk : Byte) :
    (0x0101#16 ++ kk ++ nn).toNat = 0x01010000 + kk.toNat * 2 ^ 8 + nn.toNat := by
  rw [BitVec.toNat_append, BitVec.toNat_append, ← Nat.shiftLeft_add_eq_or_of_lt nn.isLt,
    ← Nat.shiftLeft_add_eq_or_of_lt kk.isLt, Nat.shiftLeft_eq, Nat.shiftLeft_eq]
  simp only [BitVec.toNat_ofNat]
  omega

theorem paramWord_eq_ofNat (nn kk : Byte) :
    paramWord v nn kk = BitVec.ofNat v.wordBits (0x01010000 + kk.toNat * 2 ^ 8 + nn.toNat) := by
  rw [paramWord, paramBits_eq_append]
  apply BitVec.eq_of_toNat_eq
  rw [BitVec.toNat_setWidth, paramBytes_toNat, BitVec.toNat_ofNat]

/-! ### Slots field by field (40_lifecycle R100 to R105) -/

theorem Slot.resetCtx_h_eq_initialH (x : Slot v) : x.resetCtx.h = initialH v x.nn x.kk.toNat := by
  rw [Slot.resetCtx_h, paramWord_eq_ofNat]
  rfl

theorem Slot.keyed_iff_pos (x : Slot v) : x.keyed = true ↔ 0 < x.kk.toNat := decide_eq_true_iff

theorem Slot.resetCtx_buf_getElem (x : Slot v) (i : Fin v.blockBytes) :
    x.resetCtx.buf[i] = if i.val < x.kk.toNat then x.key.toList[i.val]?.getD 0 else 0 := by
  rw [Slot.resetCtx_buf]
  cases hx : x.keyed with
  | true => by_cases hi : i.val < x.kk.toNat <;> simp [hi]
  | false =>
    have hk : ¬ 0 < x.kk.toNat := fun h => by simp [(x.keyed_iff_pos).mpr h] at hx
    have hi : ¬ i.val < x.kk.toNat := by omega
    simp [hi]

theorem Slot.resetCtx_eq (x : Slot v) :
    x.resetCtx = { x with
      t0 := 0, t1 := 0, h := initialH v x.nn x.kk.toNat
      buf := Vector.ofFn fun i => if i.val < x.kk.toNat then x.key.toList[i.val]?.getD 0 else 0
      filled := if 0 < x.kk.toNat then Fin.last _ else 0 } := by
  have hbuf : x.resetCtx.buf =
      Vector.ofFn fun i => if i.val < x.kk.toNat then x.key.toList[i.val]?.getD 0 else 0 := by
    ext i hi : 1
    rw [Vector.getElem_ofFn]
    exact x.resetCtx_buf_getElem ⟨i, hi⟩
  have hfilled : x.resetCtx.filled = if 0 < x.kk.toNat then Fin.last _ else 0 := by
    simp only [Slot.resetCtx_filled, Slot.keyed_iff_pos]
  rw [← x.resetCtx_h_eq_initialH, ← hbuf, ← hfilled]
  rfl

theorem maxKey_le_blockBytes (v : Variant) : v.maxKey ≤ v.blockBytes := by cases v <;> decide

/-- The key register holds the key, zero after it (10_state R25). -/
theorem padTo_toList_getElem? {n : Nat} (K : List Byte) {i : Nat} (h : i < n) :
    (padTo n K).toList[i]? = some (K[i]?.getD 0) := by
  simp [padTo, h]

/-- A constructed slot, its key block as bytes of the key. -/
theorem Slot.construct_eq (w : Slot v) (nn : Byte) {K : List Byte} (hK : K.length ≤ v.maxKey) :
    w.construct nn K =
      { live := true, poison := false, nn := nn, kk := BitVec.ofNat 8 K.length
        key := Vector.ofFn fun i => K[i.val]?.getD 0
        h := initialH v nn K.length, t0 := 0, t1 := 0
        buf := Vector.ofFn fun i => K[i.val]?.getD 0
        filled := if K = [] then 0 else Fin.last _ } := by
  have hlen := toNat_ofNat_keyLength hK
  have hbyte (i : Fin v.blockBytes) :
      (if i.val < K.length then (padTo v.maxKey K).toList[i.val]?.getD 0 else 0) = K[i.val]?.getD 0 := by
    by_cases hi : i.val < K.length
    · rw [if_pos hi, padTo_toList_getElem? K (by omega), Option.getD_some]
    · rw [if_neg hi, List.getElem?_eq_none (Nat.not_lt.mp hi), Option.getD_none]
  have hfilled : (if 0 < K.length then Fin.last v.blockBytes else 0) = if K = [] then 0 else Fin.last _ := by
    cases K <;> simp
  rw [Slot.construct, Slot.resetCtx_eq]
  simp only [hlen, hbyte, hfilled]
  rfl

/-- A slot constructed without a key. -/
theorem Slot.construct_nil_eq (w : Slot v) (nn : Byte) :
    w.construct nn [] =
      { live := true, poison := false, nn := nn, kk := 0, key := Vector.replicate _ 0,
        h := initialH v nn 0, t0 := 0, t1 := 0, buf := Vector.replicate _ 0, filled := 0 } := by
  rw [Slot.construct_eq w nn (Nat.zero_le _)]
  simp [Vector.ext_iff]

/-- What `BURN` leaves depends on the flags and the digest length alone (40_lifecycle R105). -/
theorem Slot.burn_congr {x y : Slot v} (hl : x.live = y.live) (hp : x.poison = y.poison) (hn : x.nn = y.nn) :
    x.burn = y.burn :=
  Slot.resetCtx_congr hl hp hn rfl rfl

/-! ### How a command that completes leaves the device -/

section completes
variable {s : State} {i : Instr} {x : Slot s.variant}

theorem exec_of_commandEffect {e : Effect s.variant} (hx : SlotIs s (slotOf i) x)
    (he : commandEffect s i (some x) = e) : exec i s = .next (s.applyEffect (writtenSlot i) e) := by
  rw [exec_eq_applyEffect, hx, he]

/-- A command whose effect is to write its slot. -/
theorem exec_write {y : Slot s.variant} (r : Results) (hx : SlotIs s (slotOf i) x)
    (hd : (writtenSlot i).toNat < s.nctx) (he : commandEffect s i (some x) = .write y r) :
    ∃ t, exec i s = .next t ∧ ResultsAre t r.status r.value r.dlen r.data ∧ OnlySlotBecomes s t (writtenSlot i) y :=
  ⟨_, exec_of_commandEffect hx he, resultsAre_complete _ r, onlySlotBecomes_write y r hd⟩

/-- A command whose effect is to report. -/
theorem exec_report (r : Results) (hx : SlotIs s (slotOf i) x) (he : commandEffect s i (some x) = .report r) :
    ∃ t, exec i s = .next t ∧ ResultsAre t r.status r.value r.dlen r.data ∧ SlotsKept s t :=
  ⟨_, exec_of_commandEffect hx he, resultsAre_complete s r, slotsKept_complete s r⟩

end completes

/-! ### Construction (40_lifecycle R100, R101, R109) -/

/-- Settles O11: an accepted `INIT` writes the unkeyed constructed slot. -/
theorem initConstructsUnkeyed : Obligations.InitConstructsUnkeyed := by
  intro s c x nn hx h1 hmax
  refine exec_write okResults (i := .init c nn) hx hx.lt ?_
  rw [← x.construct_nil_eq nn]
  simp [commandEffect, slotEffect, State.digestLengthOperand_ok ⟨h1, hmax⟩, operandEffect]

/-- Settles O12: an accepted `INITK` writes the constructed slot with its key. -/
theorem initkConstructsKeyed : Obligations.InitkConstructsKeyed := by
  intro s c x nn K hx h1 hmax hsrc hK
  refine exec_write okResults (i := .initk c nn) hx hx.lt ?_
  rw [← x.construct_eq nn hK]
  simp [commandEffect, slotEffect, State.keyOperand_ok hsrc ⟨h1, hmax⟩ hK, operandEffect]

/-- With an empty key `INITK` checks the digest length alone, as `INIT` does. -/
theorem State.keyOperand_empty {s : State} (h : s.src = some []) (nn : Byte) :
    s.keyOperand nn = (s.digestLengthOperand nn).map fun _ => [] := by
  by_cases hn : 1 ≤ nn.toNat ∧ nn.toNat ≤ s.variant.maxDigest
  · rw [State.keyOperand_ok h hn (Nat.zero_le _), State.digestLengthOperand_ok hn]
    rfl
  · rw [State.keyOperand_bad h (.inl hn), State.digestLengthOperand_bad hn]
    rfl

/-- Settles O14: the two commands have one effect, whatever their slot holds. -/
theorem emptyKeyConstructsUnkeyed : Obligations.EmptyKeyConstructsUnkeyed := by
  intro s c nn hsrc
  have heffect : commandEffect s (.initk c nn) = commandEffect s (.init c nn) := by
    refine congrArg slotEffect (funext fun x => ?_)
    rw [State.keyOperand_empty hsrc]
    cases ho : s.digestLengthOperand nn with
    | error e => rfl
    | ok m =>
      obtain ⟨rfl, -⟩ := State.digestLengthOperand_cases ho
      rfl
  rw [exec_eq_applyEffect, exec_eq_applyEffect, heffect]
  rfl

/-! ### Reset and burn (40_lifecycle R103 to R105, R110) -/

/-- Settles O15: on a ready slot `RST` writes the context reset, field by field. -/
theorem rstReinitializesContext : Obligations.RstReinitializesContext := by
  intro s c x ⟨hx, hr⟩
  refine exec_write okResults (i := .rst c) hx hx.lt ?_
  rw [← x.resetCtx_eq]
  exact readyEffect_ready hr _

theorem commandEffect_burn {s : State} {x : Slot s.variant} (c : SlotId) (h : x.live = true ∧ x.poison = false) :
    commandEffect s (.burn c) (some x) = .write (x.construct x.nn []) okResults := by
  obtain ⟨hl, hp⟩ := h
  rw [← Slot.burn_eq_construct hl hp]
  exact readyEffect_ready ⟨hl, hp⟩ _

/-- Settles O16: `BURN` writes the unkeyed slot constructed with the same digest length. -/
theorem burnErasesKeyAndBuffer : Obligations.BurnErasesKeyAndBuffer := by
  intro s c x ⟨hx, hr⟩
  refine exec_write okResults (i := .burn c) hx hx.lt ?_
  rw [← x.construct_nil_eq x.nn]
  exact commandEffect_burn c hr

/-- Settles O17: `BURN` and `INIT` of the same digest length have the same effect. -/
theorem burnEqualsFreshConstruction : Obligations.BurnEqualsFreshConstruction := by
  intro s c x ⟨hx, hr⟩ h1 hmax
  have hinit : commandEffect s (.init c x.nn) (some x) = .write (x.construct x.nn []) okResults := by
    simp [commandEffect, slotEffect, State.digestLengthOperand_ok ⟨h1, hmax⟩, operandEffect]
  exact (exec_of_commandEffect (i := .burn c) hx (commandEffect_burn c hr)).trans
    (exec_of_commandEffect (i := .init c x.nn) hx hinit).symm

/-- Settles O18: what is written does not depend on what the slot held beyond its flags and digest length, and the write
leaves nothing of it. -/
theorem burnLeavesNoTraceOfKey : Obligations.BurnLeavesNoTraceOfKey := by
  intro s c x y ⟨hx, hl, hp⟩ ⟨hlive, hpoison, hnn⟩
  have hy : SlotIs (s.setSlot c y) c y := List.getElem?_set_self hx.lt
  have hry : y.live = true ∧ y.poison = false := ⟨hlive ▸ hl, hpoison ▸ hp⟩
  refine ⟨(s.setSlot c x.burn).complete okResults,
    exec_of_commandEffect (i := .burn c) hx (readyEffect_ready ⟨hl, hp⟩ _), ?_⟩
  rw [exec_of_commandEffect (s := s.setSlot c y) (i := .burn c) hy (readyEffect_ready hry _),
    Slot.burn_congr hlive hpoison hnn]
  exact congrArg (fun t => Host.Outcome.next (State.complete t okResults)) (State.setSlot_setSlot s c y y.burn)

/-! ### Copy, length and identity (40_lifecycle R106 to R108) -/

/-- Settles O19: `COPY` to another slot writes it, and to the same slot changes nothing. -/
theorem copyClonesSlot : Obligations.CopyClonesSlot := by
  intro s c d x ⟨hx, hr⟩ hd
  have heffect : commandEffect s (.copy c d) (some x) =
      if d ≠ c then .write x okResults else .report okResults := by
    simp only [commandEffect, copyEffect, if_neg (Nat.not_le.mpr hd)]
    exact readyEffect_ready hr _
  by_cases hdc : d = c
  · subst hdc
    rw [if_neg (not_not.mpr rfl)] at heffect
    obtain ⟨t, hexec, hres, hslots, hkept, hdraws⟩ := exec_report okResults (i := .copy d d) hx heffect
    exact ⟨t, hexec, hres, ⟨(hslots d).trans (State.slot?_eq hx), ⟨hkept, fun e _ => hslots e⟩, hdraws⟩, hslots d⟩
  · rw [if_pos hdc] at heffect
    obtain ⟨t, hexec, hres, hslot, ⟨hkept, hothers⟩, hdraws⟩ := exec_write okResults (i := .copy c d) hx hd heffect
    exact ⟨t, hexec, hres, ⟨hslot, ⟨hkept, hothers⟩, hdraws⟩, hothers c (Ne.symm hdc)⟩

/-- Settles O20: on a ready slot `LEN` reports its digest length. -/
theorem lenReportsDigestLength : Obligations.LenReportsDigestLength := by
  intro s c x ⟨hx, hr⟩
  rw [BitVec.ofNat_toNat]
  exact exec_report (valueResults _) (i := .len c) hx (readyEffect_ready hr _)

/-- Clearing the top bit of a byte makes it ASCII. -/
theorem toNat_and_0x7F_lt (b : Byte) : (b &&& 0x7F#8).toNat < 128 := by
  rw [BitVec.toNat_and]
  exact Nat.lt_succ_of_le Nat.and_le_right

/-- Settles O21: the name is cut to 64 bytes and to ASCII, and on a ready slot `ALG` reports it. -/
theorem algReportsName : Obligations.AlgReportsName := by
  refine ⟨fun v => ⟨?length, fun b hb => ?ascii⟩, fun s c x ⟨hx, hr⟩ => ?command⟩
  case length => simp [Config.algorithmName]
  case ascii =>
    obtain ⟨a, -, rfl⟩ := List.mem_map.mp hb
    exact toNat_and_0x7F_lt a
  case command => exact exec_report (bytesResults _ _) (i := .alg c) hx (readyEffect_ready hr _)

end Sys2Proof.Machine
end

section
/-! PROOFS. Absorbing input (O25, O26, O27, O22, O23, O24): the block loop as one byte after another, where the counter
guard leaves room for it, and what the update commands then do. -/

namespace Sys2Proof.Machine

open Sys2Proof.Claims

variable {v : Variant}

/-! ### Byte by byte (41_update R130, R132) -/

theorem Slot.append_filled (x : Slot v) (D : List Byte) :
    (x.append D).filled.val = min (x.filled.val + D.length) v.blockBytes := rfl

theorem Slot.append_buf_getElem (x : Slot v) (D : List Byte) {i : Nat} (hi : i < v.blockBytes) :
    (x.append D).buf[i] = if i < x.filled.val then x.buf[i] else D[i - x.filled.val]?.getD x.buf[i] := by
  simp [Slot.append]

theorem Slot.append_append (x : Slot v) (A B : List Byte) : (x.append A).append B = x.append (A ++ B) := by
  have hbyte (i : Nat) (hi : i < v.blockBytes) : ((x.append A).append B).buf[i] = (x.append (A ++ B)).buf[i] := by
    rw [Slot.append_buf_getElem _ _ hi, Slot.append_buf_getElem _ _ hi, Slot.append_buf_getElem _ _ hi,
      Slot.append_filled]
    by_cases hx : i < x.filled.val
    · have hlt : i < min (x.filled.val + A.length) v.blockBytes := by omega
      rw [if_pos hlt, if_pos hx, if_pos hx]
    · by_cases hA : i - x.filled.val < A.length
      · have hlt : i < min (x.filled.val + A.length) v.blockBytes := by omega
        rw [if_pos hlt, if_neg hx, if_neg hx, List.getElem?_append_left hA]
      · have hge : ¬ i < min (x.filled.val + A.length) v.blockBytes := by omega
        have hsub : i - min (x.filled.val + A.length) v.blockBytes = i - x.filled.val - A.length := by omega
        rw [if_neg hge, if_neg hx, if_neg hx, hsub, List.getElem?_append_right (Nat.not_lt.mp hA),
          List.getElem?_eq_none (Nat.not_lt.mp hA), Option.getD_none]
  have hbuf : ((x.append A).append B).buf = (x.append (A ++ B)).buf := Vector.ext hbyte
  have hfilled : ((x.append A).append B).filled = (x.append (A ++ B)).filled := by
    apply Fin.ext
    simp only [Slot.append_filled, List.length_append]
    omega
  rw [Slot.append_keeps (x.append A), Slot.append_keeps x (A ++ B), hbuf, hfilled]
  rfl

theorem Slot.absorbByte_not_full {guard : Bool} {x : Slot v} (b : Byte) (h : x.filled.val ≠ v.blockBytes) :
    x.absorbByte guard b = some (x.append [b]) := by
  rw [Slot.absorbByte, Slot.makeRoom_not_full h, Option.map_some]

/-- Bytes that fit behind the valid ones enter the buffer one by one without a compression. -/
theorem Slot.foldlM_absorbByte_fits {guard : Bool} (D : List Byte) : ∀ {x : Slot v},
    x.filled.val + D.length ≤ v.blockBytes →
    D.foldlM (fun y b => Slot.absorbByte guard b y) x = some (x.append D) := by
  induction D with
  | nil => simp
  | cons b D ih =>
    intro x h
    rw [List.length_cons] at h
    have hfits : (x.append [b]).filled.val + D.length ≤ v.blockBytes := by
      rw [Slot.append_filled, List.length_singleton]
      omega
    calc (b :: D).foldlM (fun y b => Slot.absorbByte guard b y) x
        = (x.absorbByte guard b).bind (D.foldlM fun y b => Slot.absorbByte guard b y) := List.foldlM_cons
      _ = D.foldlM (fun y b => Slot.absorbByte guard b y) (x.append [b]) := by
          rw [Slot.absorbByte_not_full b (by omega), Option.bind_some]
      _ = some ((x.append [b]).append D) := ih hfits
      _ = some (x.append (b :: D)) := by rw [Slot.append_append, List.singleton_append]

/-- Making room first changes nothing of what the bytes do: the first of them would do it. -/
theorem Slot.foldlM_absorbByte_makeRoom (guard : Bool) (b : Byte) (D : List Byte) (x : Slot v) :
    (b :: D).foldlM (fun y b => Slot.absorbByte guard b y) x =
      (x.makeRoom guard).bind ((b :: D).foldlM fun y b => Slot.absorbByte guard b y) := by
  have hfirst : x.absorbByte guard b = (x.makeRoom guard).bind fun y => y.absorbByte guard b := by
    rw [Slot.absorbByte]
    cases hr : x.makeRoom guard with
    | none => rfl
    | some y => exact (Slot.absorbByte_not_full b (Slot.makeRoom_lt hr).ne).symm
  calc (b :: D).foldlM (fun y b => Slot.absorbByte guard b y) x
      = (x.absorbByte guard b).bind (D.foldlM fun y b => Slot.absorbByte guard b y) := List.foldlM_cons
    _ = _ := by
        rw [hfirst, Option.bind_assoc]
        rfl

theorem Slot.absorbLoop_eq_foldlM {guard : Bool} (fuel : Nat) : ∀ {D : List Byte} {x : Slot v}, D.length ≤ fuel →
    Slot.absorbLoop guard fuel D x = D.foldlM (fun y b => Slot.absorbByte guard b y) x := by
  induction fuel with
  | zero =>
    intro D x hD
    obtain rfl := List.eq_nil_of_length_eq_zero (Nat.le_zero.mp hD)
    rfl
  | succ fuel ih =>
    intro D x hD
    cases D with
    | nil => rfl
    | cons b D =>
      rw [Slot.absorbLoop_succ, Slot.foldlM_absorbByte_makeRoom]
      refine Option.bind_congr fun y hy => ?_
      have hlt := Slot.makeRoom_lt hy
      generalize hk : min (v.blockBytes - y.filled.val) (b :: D).length = k
      have hfits : y.filled.val + ((b :: D).take k).length ≤ v.blockBytes := by
        rw [List.length_take]
        omega
      have hfuel : ((b :: D).drop k).length ≤ fuel := by
        rw [List.length_cons] at hD hk
        rw [List.length_drop, List.length_cons]
        omega
      calc Slot.absorbLoop guard fuel ((b :: D).drop k) (y.append ((b :: D).take k))
          = ((b :: D).drop k).foldlM (fun y b => Slot.absorbByte guard b y) (y.append ((b :: D).take k)) := ih hfuel
        _ = (((b :: D).take k).foldlM (fun y b => Slot.absorbByte guard b y) y).bind
              (((b :: D).drop k).foldlM fun y b => Slot.absorbByte guard b y) := by
            rw [Slot.foldlM_absorbByte_fits _ hfits, Option.bind_some]
        _ = ((b :: D).take k ++ (b :: D).drop k).foldlM (fun y b => Slot.absorbByte guard b y) y := by
            rw [List.foldlM_append]
            rfl
        _ = (b :: D).foldlM (fun y b => Slot.absorbByte guard b y) y := by rw [List.take_append_drop]

/-- Settles O25: a turn of the loop is the bytes it takes, one by one, and `|D|` turns take them all. -/
theorem absorbIsByteByByte : Obligations.AbsorbIsByteByByte :=
  fun _ _ _ _ => Slot.absorbLoop_eq_foldlM _ le_rfl

theorem Slot.absorb_cons (guard : Bool) (b : Byte) (D : List Byte) (x : Slot v) :
    x.absorb guard (b :: D) = (x.absorbByte guard b).bind fun y => y.absorb guard D := by
  simp only [absorbIsByteByByte v guard]
  exact List.foldlM_cons

theorem Slot.absorb_append (guard : Bool) (A B : List Byte) (x : Slot v) :
    x.absorb guard (A ++ B) = (x.absorb guard A).bind fun y => y.absorb guard B := by
  simp only [absorbIsByteByByte v guard]
  exact List.foldlM_append

/-! ### How full the buffer is (41_update R131) -/

theorem Slot.absorbByte_filled {guard : Bool} {b : Byte} {x y : Slot v} (h : x.absorbByte guard b = some y) :
    y.filled.val = if x.filled.val = v.blockBytes then 1 else x.filled.val + 1 := by
  have hf := x.filled.isLt
  have hB := Variant.sizes v
  obtain ⟨z, hz, rfl⟩ := Slot.absorbByte_cases h
  rw [Slot.append_filled, List.length_singleton]
  rcases Slot.makeRoom_cases hz with ⟨hne, rfl⟩ | ⟨hfull, hc⟩
  · rw [if_neg hne]
    omega
  · obtain ⟨-, -, -, -, -, -, h0⟩ := Slot.compress_keeps hc
    rw [if_pos hfull, h0, Fin.val_zero]
    omega

theorem Slot.absorb_filled {guard : Bool} (D : List Byte) : ∀ {x y : Slot v}, x.absorb guard D = some y →
    (D ≠ [] → 1 ≤ y.filled.val) ∧ y.filled.val % v.blockBytes = (x.filled.val + D.length) % v.blockBytes := by
  induction D with
  | nil =>
    intro x y h
    obtain rfl := Option.some.inj h
    exact ⟨fun h => absurd rfl h, rfl⟩
  | cons b D ih =>
    intro x y h
    rw [Slot.absorb_cons] at h
    obtain ⟨z, hz, hy⟩ := Option.bind_eq_some_iff.mp h
    obtain ⟨hpos, hmod⟩ := ih hy
    have hfilled := Slot.absorbByte_filled hz
    constructor
    · intro _
      cases D with
      | nil =>
        obtain rfl := Option.some.inj hy
        split at hfilled <;> omega
      | cons => exact hpos (List.cons_ne_nil _ _)
    · rw [hmod, hfilled, List.length_cons]
      split
      · next hfull => rw [hfull, Nat.add_mod_left, Nat.add_comm]
      · rw [Nat.add_right_comm, Nat.add_assoc]

/-- Settles O26: every byte that enters leaves the buffer with at least one byte and the congruence, and 1 to `BB` bytes
are `BB` exactly where they are 0 modulo `BB`. -/
theorem lazyCompressionFill : Obligations.LazyCompressionFill := by
  intro v guard D x y hD h
  obtain ⟨hpos, hmod⟩ := Slot.absorb_filled D h
  have h1 := hpos hD
  have hle : y.filled.val ≤ v.blockBytes := Nat.lt_succ_iff.mp y.filled.isLt
  refine ⟨h1, hle, ?_, hmod⟩
  rw [← hmod]
  constructor
  · intro hfull
    rw [hfull, Nat.mod_self]
  · intro hzero
    by_contra hne
    rw [Nat.mod_eq_of_lt (by omega)] at hzero
    omega

/-! ### Room below the counter guard (43_compression R171) -/

theorem Slot.limit_le_of_advanceCounter_eq_none {guard : Bool} {n : Nat} {x : Slot v}
    (h : x.advanceCounter guard n = none) : 2 ^ (2 * v.wordBits) ≤ x.counter + n := by
  obtain ⟨⟨hwrap, hn⟩, -, ht1⟩ := (x.advanceCounter_eq_none_iff guard n).mp h
  have h0 := x.t0.isLt
  rw [Slot.counter, ht1]
  rcases Variant.sizes v with ⟨hB, hW, hL⟩ | ⟨hB, hW, hL⟩ <;> simp only [hB, hW, hL] at * <;> omega

/-- With the guard on, an advance counts no byte twice, whatever the counter's low word was. -/
theorem Slot.advanceCounter_counter_le {n : Nat} {x y : Slot v} (hn : n ≤ v.blockBytes)
    (h : x.advanceCounter true n = some y) : y.counter ≤ x.counter + n := by
  have h0 := x.t0.isLt
  have h1 := x.t1.isLt
  have ht1 : y.t1.toNat = if (x.t0.toNat + n) % 2 ^ v.wordBits = 0 ∧ 0 < n then (x.t1.toNat + 1) % 2 ^ v.wordBits
      else x.t1.toNat := by
    rw [Slot.advanceCounter_t1 h]
    split <;> simp
  rw [Slot.counter, Slot.counter, Slot.advanceCounter_t0 h, ht1]
  rcases Variant.sizes v with ⟨hB, hW, hL⟩ | ⟨hB, hW, hL⟩ <;> simp only [hB, hW, hL] at * <;> split <;> omega

theorem Slot.limit_le_of_compress_eq_none {guard final : Bool} {x : Slot v} (h : x.compress guard final = none) :
    2 ^ (2 * v.wordBits) ≤ x.bytesIn :=
  Slot.limit_le_of_advanceCounter_eq_none (Option.map_eq_none_iff.mp h)

theorem Slot.compress_bytesIn_le {final : Bool} {x y : Slot v} (h : x.compress true final = some y) :
    y.bytesIn ≤ x.bytesIn := by
  obtain ⟨z, hz, rfl⟩ := Slot.compress_cases h
  have hle := Slot.advanceCounter_counter_le (Nat.lt_succ_iff.mp x.filled.isLt) hz
  exact hle

theorem Slot.limit_lt_of_absorbByte_eq_none {guard : Bool} {b : Byte} {x : Slot v}
    (h : x.absorbByte guard b = none) : 2 ^ (2 * v.wordBits) < x.bytesIn + 1 := by
  have hroom : x.makeRoom guard = none := Option.map_eq_none_iff.mp h
  by_cases hf : x.filled.val = v.blockBytes
  · rw [Slot.makeRoom_full hf] at hroom
    exact Nat.lt_succ_of_le (Slot.limit_le_of_compress_eq_none hroom)
  · rw [Slot.makeRoom_not_full hf] at hroom
    cases hroom

theorem Slot.absorbByte_bytesIn_le {b : Byte} {x y : Slot v} (h : x.absorbByte true b = some y) :
    y.bytesIn ≤ x.bytesIn + 1 := by
  obtain ⟨z, hz, rfl⟩ := Slot.absorbByte_cases h
  have hlt := Slot.makeRoom_lt hz
  rw [Slot.bytesIn_append (D := [b]) hlt, List.length_singleton]
  rcases Slot.makeRoom_cases hz with ⟨-, rfl⟩ | ⟨-, hc⟩
  · exact le_rfl
  · exact Nat.succ_le_succ (Slot.compress_bytesIn_le hc)

theorem Slot.absorb_bytesIn_le (D : List Byte) : ∀ {x y : Slot v}, x.absorb true D = some y →
    y.bytesIn ≤ x.bytesIn + D.length := by
  induction D with
  | nil =>
    intro x y h
    obtain rfl := Option.some.inj h
    exact le_rfl
  | cons b D ih =>
    intro x y h
    rw [Slot.absorb_cons] at h
    obtain ⟨z, hz, hy⟩ := Option.bind_eq_some_iff.mp h
    have h1 := Slot.absorbByte_bytesIn_le hz
    have h2 := ih hy
    rw [List.length_cons]
    omega

theorem Slot.limit_lt_of_absorb_eq_none (D : List Byte) : ∀ {x : Slot v}, x.absorb true D = none →
    2 ^ (2 * v.wordBits) < x.bytesIn + D.length := by
  induction D with
  | nil => exact fun h => nomatch h
  | cons b D ih =>
    intro x h
    rw [List.length_cons]
    cases hz : x.absorbByte true b with
    | none =>
      have hlt := Slot.limit_lt_of_absorbByte_eq_none hz
      omega
    | some z =>
      rw [Slot.absorb_cons, hz] at h
      have h1 := Slot.absorbByte_bytesIn_le hz
      have h2 := ih h
      omega

theorem Slot.exists_compress {guard : Bool} (final : Bool) {x : Slot v} (h : Headroom guard x 0) :
    ∃ y, x.compress guard final = some y := by
  cases hc : x.compress guard final with
  | some y => exact ⟨y, rfl⟩
  | none =>
    have hle := Slot.limit_le_of_compress_eq_none hc
    have hguard := Slot.guard_of_compress_eq_none hc
    unfold Slot.bytesIn at hle
    rcases h with hoff | hlt
    · simp [hguard] at hoff
    · omega

theorem Slot.exists_absorb {guard : Bool} {D : List Byte} {x : Slot v} (h : UpdateHeadroom guard x D.length) :
    ∃ y, x.absorb guard D = some y := by
  cases ha : x.absorb guard D with
  | some y => exact ⟨y, rfl⟩
  | none =>
    obtain rfl := Slot.guard_of_absorb_eq_none ha
    have hlt := Slot.limit_lt_of_absorb_eq_none D ha
    unfold Slot.bytesIn at hlt
    rcases h with hoff | hempty | hle
    · cases hoff
    · obtain rfl := List.eq_nil_of_length_eq_zero hempty
      cases ha
    · omega

/-! ### The update commands (41_update R132 to R134) -/

section commands
variable {s : State} {x : Slot s.variant}

theorem commandEffect_upd1 (c : SlotId) (b : Byte) (hr : x.live = true ∧ x.poison = false) :
    commandEffect s (.upd1 c b) (some x) = updateEffect (x.absorbByte s.guard b) :=
  readyEffect_ready hr _

theorem commandEffect_upd (c : SlotId) {D : List Byte} (hr : x.live = true ∧ x.poison = false) (hD : s.src = some D) :
    commandEffect s (.upd c) (some x) = updateEffect (x.absorb s.guard D) := by
  refine (readyEffect_ready hr _).trans ?_
  rw [State.wholeSource_present hD]
  rfl

theorem commandEffect_updr (c : SlotId) {D : List Byte} {off len : Nat} (hr : x.live = true ∧ x.poison = false)
    (hD : s.src = some D) (hw : off + len ≤ D.length) :
    commandEffect s (.updr c off len) (some x) = updateEffect (x.absorb s.guard ((D.drop off).take len)) := by
  refine (readyEffect_ready hr _).trans ?_
  rw [State.sourceWindow_inside hD hw]
  rfl

end commands

/-- One appended byte stands at `BUF[FILLED]`, and every other byte of the buffer stays (41_update R132). -/
theorem Slot.append_byte_getElem {v : Variant} (x : Slot v) (b : Byte) (i : Fin v.blockBytes) :
    (x.append [b]).buf[i] = if i.val = x.filled.val then b else x.buf[i] := by
  refine (x.append_buf_getElem [b] i.isLt).trans ?_
  rcases Nat.lt_trichotomy i.val x.filled.val with hlt | heq | hgt
  · rw [if_pos hlt, if_neg hlt.ne]
    rfl
  · have hsub : i.val - x.filled.val = 0 := Nat.sub_eq_zero_of_le heq.le
    rw [if_neg heq.not_lt, if_pos heq, hsub]
    rfl
  · rw [if_neg hgt.not_gt, if_neg hgt.ne', List.getElem?_eq_none (Nat.sub_pos_of_lt hgt), Option.getD_none]
    rfl

/-- Settles O22: a byte that fits is appended; a full buffer is compressed first, which leaves it empty and zero. -/
theorem upd1AbsorbsOneByte : Obligations.Upd1AbsorbsOneByte := by
  refine ⟨fun s c x b ⟨hx, hr⟩ hlt => ?fits, fun s c x b ⟨hx, hr⟩ hfull hroom => ?full⟩
  case fits =>
    have heffect : commandEffect s (.upd1 c b) (some x) = .write (x.append [b]) okResults := by
      rw [commandEffect_upd1 c b hr, Slot.absorbByte_not_full b hlt.ne]
      rfl
    obtain ⟨t, hexec, hres, honly⟩ := exec_write okResults (i := .upd1 c b) hx hx.lt heffect
    obtain ⟨hfilled, -⟩ := x.append_spec [b] hlt
    exact ⟨t, _, hexec, hres, honly, x.append_keeps [b], hfilled, x.append_byte_getElem b⟩
  case full =>
    obtain ⟨z, hz⟩ := Slot.exists_compress false hroom
    have heffect : commandEffect s (.upd1 c b) (some x) = .write (z.append [b]) okResults := by
      rw [commandEffect_upd1 c b hr, Slot.absorbByte, Slot.makeRoom_full hfull, hz]
      rfl
    obtain ⟨t, hexec, hres, honly⟩ := exec_write okResults (i := .upd1 c b) hx hx.lt heffect
    obtain ⟨-, -, -, -, -, hzbuf, hzfilled⟩ := Slot.compress_keeps hz
    have hzero : z.filled.val = 0 := by rw [hzfilled, Fin.val_zero]
    have hB : 1 ≤ s.variant.blockBytes := by rcases Variant.sizes s.variant with ⟨hB, -⟩ | ⟨hB, -⟩ <;> omega
    obtain ⟨hfilled, -⟩ := z.append_spec [b] (by rw [hzero]; exact hB)
    refine ⟨t, _, z, hz, hexec, hres, honly, z.append_keeps [b], by rw [hfilled, hzero]; rfl, fun i => ?_⟩
    rw [z.append_byte_getElem b i, hzero, hzbuf]
    simp

/-- Settles O23: with room the absorption completes, and is what `UPD` writes. -/
theorem updAbsorbsWholeSource : Obligations.UpdAbsorbsWholeSource := by
  intro s c x D ⟨hx, hr⟩ hD hroom
  obtain ⟨y, hy⟩ := Slot.exists_absorb hroom
  obtain ⟨t, h⟩ := exec_write okResults (i := .upd c) (y := y) hx hx.lt (by rw [commandEffect_upd c hr hD, hy]; rfl)
  exact ⟨t, y, hy, h⟩

theorem length_take_drop {D : List Byte} {off len : Nat} (h : off + len ≤ D.length) :
    ((D.drop off).take len).length = len := by
  rw [List.length_take, List.length_drop]
  omega

/-- Settles O24: with room the absorption of the window completes, and is what `UPDR` writes. -/
theorem updrAbsorbsWindow : Obligations.UpdrAbsorbsWindow := by
  intro s c x D off len ⟨hx, hr⟩ hD hw hroom
  obtain ⟨y, hy⟩ := Slot.exists_absorb (D := (D.drop off).take len) (by rwa [length_take_drop hw])
  obtain ⟨t, h⟩ := exec_write okResults (i := .updr c off len) (y := y) hx hx.lt
    (by rw [commandEffect_updr c hr hD hw, hy]; rfl)
  exact ⟨t, y, hy, h⟩

/-! ### Two commands in a row (41_update R135, 30_encoding R86) -/

/-- A command with entry checks that ends with `OK` found its slot ready. -/
theorem ready_of_exec_ok {s t : State} {i : Instr} {g : Slot s.variant → Effect s.variant}
    (hg : commandEffect s i = readyEffect g) (h : exec i s = .next t) (hok : t.status = Status.ok.code) :
    ∃ x, Ready s (slotOf i) x ∧ t = s.applyEffect (writtenSlot i) (g x) := by
  have hreported : ∀ e : Status, e ≠ .ok → t ≠ s.applyEffect (writtenSlot i) (.report (errorResults e)) :=
    fun e he ht => Status.code_ne_ok he ((congrArg State.status ht).symm.trans hok)
  obtain rfl := Host.Outcome.next.inj ((exec_eq_applyEffect s i).symm.trans h)
  rw [hg] at hreported ⊢
  rcases hx : s.bank.slots[(slotOf i).toNat]? with _ | x <;> rw [hx] at hreported
  · exact absurd rfl (hreported .illegalCommand (by decide))
  · cases hl : x.live with
    | false =>
      rw [readyEffect_not_live hl] at hreported
      exact absurd rfl (hreported .noInstance (by decide))
    | true =>
      cases hp : x.poison with
      | true =>
        rw [readyEffect_poisoned hl hp] at hreported
        exact absurd rfl (hreported .illegalState (by decide))
      | false => exact ⟨x, ⟨hx, hl, hp⟩, by rw [readyEffect_ready ⟨hl, hp⟩]⟩

/-- An update of slot `c` that ends with `OK` has absorbed its operand and written the slot. -/
theorem absorbed_of_update_ok {s t : State} {c : SlotId} {i : Instr} {o : Except Status (List Byte)}
    (hi : writtenSlot i = c ∧ slotOf i = c) (ho : operandError o ≠ some .ok)
    (hg : commandEffect s i = readyEffect fun x => operandEffect (fun D => updateEffect (x.absorb s.guard D)) o)
    (h : exec i s = .next t) (hok : t.status = Status.ok.code) :
    ∃ x D y, Ready s c x ∧ o = .ok D ∧ x.absorb s.guard D = some y ∧ t = (s.setSlot c y).complete okResults := by
  obtain ⟨hw, hc⟩ := hi
  obtain ⟨x, hready, ht⟩ := ready_of_exec_ok hg h hok
  rw [hw] at ht
  rw [hc] at hready
  have hne : ∀ e : Status, e ≠ .ok → t.status ≠ e.code := fun e he hst => Status.code_ne_ok he (hst.symm.trans hok)
  cases o with
  | error e =>
    subst ht
    exact absurd rfl (hne e fun he => ho (congrArg some he))
  | ok D =>
    cases hy : x.absorb s.guard D with
    | none =>
      simp only [operandEffect, hy, updateEffect] at ht
      subst ht
      exact absurd rfl (hne .illegalState (by decide))
    | some y =>
      simp only [operandEffect, hy, updateEffect] at ht
      exact ⟨x, D, y, hready, rfl, hy, ht⟩

theorem State.setSlot_after_write {s : State} {c : SlotId} (y x : Slot s.variant) (r : Results) :
    State.setSlot ((s.setSlot c y).complete r) c x = (s.setSlot c x).complete r :=
  congrArg (State.complete · r) (State.setSlot_setSlot s c y x)

/-- A command that writes its slot, or poisons it, leaves no trace of the write before it. -/
theorem State.applyEffect_after_write {s : State} {c : SlotId} (y : Slot s.variant) (r : Results)
    {e : Effect s.variant} (he : ∀ r, e ≠ .report r) :
    State.applyEffect ((s.setSlot c y).complete r) c e = s.applyEffect c e := by
  cases e with
  | write x r' =>
    have h := congrArg (State.complete · r') (State.setSlot_after_write y x r (c := c))
    exact h
  | report r' => exact absurd rfl (he r')
  | guardTrip =>
    let x := Slot.unspecified s.variant true true s.freeDraws
    have h := congrArg (fun u : State => State.reportError { u with freeDraws := s.freeDraws + 1 } .illegalState)
      (State.setSlot_after_write y x r (c := c))
    exact h

theorem updateEffect_ne_report (o : Option (Slot v)) (r : Results) : updateEffect o ≠ .report r := by
  cases o <;> nofun

theorem ready_after_write {s : State} {c : SlotId} {x y : Slot s.variant} {r : Results} (h : Ready s c x)
    (hl : y.live = x.live) (hp : y.poison = x.poison) : Ready ((s.setSlot c y).complete r) c y := by
  obtain ⟨hx, hlive, hpoison⟩ := h
  exact ⟨List.getElem?_set_self hx.lt, hl.trans hlive, hp.trans hpoison⟩

theorem absorbed_of_updr_ok {s t : State} {c : SlotId} {off len : Int} (h : exec (.updr c off len) s = .next t)
    (hok : t.status = Status.ok.code) :
    ∃ x D y, Ready s c x ∧ s.sourceWindow off len = .ok D ∧ x.absorb s.guard D = some y ∧
      t = (s.setSlot c y).complete okResults :=
  absorbed_of_update_ok (i := .updr c off len) ⟨rfl, rfl⟩
    (fun he => by rcases sourceWindow_error he with he | he <;> cases he) rfl h hok

theorem absorbed_of_upd_ok {s t : State} {c : SlotId} (h : exec (.upd c) s = .next t)
    (hok : t.status = Status.ok.code) :
    ∃ x D y, Ready s c x ∧ s.wholeSource = .ok D ∧ x.absorb s.guard D = some y ∧
      t = (s.setSlot c y).complete okResults :=
  absorbed_of_update_ok (i := .upd c) ⟨rfl, rfl⟩ (fun he => by cases wholeSource_error he) rfl h hok

theorem take_drop_append_take_drop (D : List Byte) (off m n : Nat) :
    (D.drop off).take m ++ (D.drop (off + m)).take n = (D.drop off).take (m + n) := by
  rw [List.take_add, List.drop_drop]

/-- Settles O27: absorption goes byte by byte; and the second of two adjacent windows is absorbed into what the first
has left, its write covering the first one's. -/
theorem chunkingInvariance : Obligations.ChunkingInvariance := by
  refine ⟨fun v guard A B x => Slot.absorb_append guard A B x, fun s t c D off m n hD hw h hok => ?_⟩
  obtain ⟨x, A, y, hx, hA, hy, rfl⟩ := absorbed_of_updr_ok h hok
  obtain rfl : (D.drop off).take m = A :=
    Except.ok.inj ((State.sourceWindow_inside hD (by omega)).symm.trans hA)
  obtain ⟨hl, hp, -⟩ := Slot.absorb_keeps hy
  obtain ⟨hslot, hr⟩ := hx
  obtain ⟨hslot', hr'⟩ := ready_after_write (r := okResults) ⟨hslot, hr⟩ hl hp
  have hwhole : x.absorb s.guard ((D.drop off).take (m + n)) = y.absorb s.guard ((D.drop (off + m)).take n) := by
    rw [← take_drop_append_take_drop, Slot.absorb_append, hy, Option.bind_some]
  calc exec (.updr c (off + m : Nat) n) ((s.setSlot c y).complete okResults)
      = .next (State.applyEffect ((s.setSlot c y).complete okResults) c
          (updateEffect (y.absorb s.guard ((D.drop (off + m)).take n)))) :=
        exec_of_commandEffect (s := (s.setSlot c y).complete okResults) (i := .updr c (off + m : Nat) n) hslot'
          (commandEffect_updr c hr' hD hw)
    _ = .next (s.applyEffect c (updateEffect (y.absorb s.guard ((D.drop (off + m)).take n)))) :=
        congrArg _ (State.applyEffect_after_write y okResults (updateEffect_ne_report _))
    _ = exec (.updr c off (m + n : Nat)) s := by
        rw [← hwhole]
        exact (exec_of_commandEffect (i := .updr c off (m + n : Nat)) hslot
          (commandEffect_updr c hr hD (by omega))).symm

end Sys2Proof.Machine
end

section
/-! PROOFS. What a slot holds after absorbing a message (O28): the counter, the buffer and the chaining
value as functions of the bytes taken in, as 42_digest R157 writes them. -/

namespace Sys2Proof.Machine

open Sys2Proof.Claims

variable {v : Variant}

/-! ### Blocks of a message (42_digest R157) -/

/-- The chaining value after the first `n` blocks of `S`, each at its end offset (42_digest R157). -/
def chainBlocks (h0 : Vector (Word v) 8) (S : List Byte) (n : Nat) : Vector (Word v) 8 :=
  (List.range n).foldl (fun h i => chain v h (v.blockBytes * (i + 1)) false (block v S i)) h0

theorem chainBlocks_zero (h0 : Vector (Word v) 8) (S : List Byte) : chainBlocks h0 S 0 = h0 := rfl

theorem chainBlocks_succ (h0 : Vector (Word v) 8) (S : List Byte) (n : Nat) :
    chainBlocks h0 S (n + 1) = chain v (chainBlocks h0 S n) (v.blockBytes * (n + 1)) false (block v S n) := by
  rw [chainBlocks, List.range_succ, List.foldl_append]
  rfl

theorem block_getElem (S : List Byte) (i : Nat) {j : Nat} (hj : j < v.blockBytes) :
    (block v S i)[j] = S[v.blockBytes * i + j]?.getD 0 := by
  simp [block]

/-- A block is not changed by bytes that come after it. -/
theorem block_append {S : List Byte} (B : List Byte) {i : Nat} (h : v.blockBytes * (i + 1) ≤ S.length) :
    block v (S ++ B) i = block v S i := by
  ext j hj : 1
  have hlt : v.blockBytes * i + j < S.length := by
    rw [Nat.mul_succ] at h
    omega
  rw [block_getElem _ _ hj, block_getElem _ _ hj, List.getElem?_append_left hlt]

theorem chainBlocks_append (h0 : Vector (Word v) 8) {S : List Byte} (B : List Byte) {n : Nat}
    (h : v.blockBytes * n ≤ S.length) : chainBlocks h0 (S ++ B) n = chainBlocks h0 S n := by
  induction n with
  | zero => rw [chainBlocks_zero, chainBlocks_zero]
  | succ n ih =>
    have hn : v.blockBytes * n ≤ S.length := (Nat.mul_le_mul_left _ (Nat.le_succ n)).trans h
    rw [chainBlocks_succ, chainBlocks_succ, ih hn, block_append B h]

theorem blockCount_sub_one (S : List Byte) : blockCount v S - 1 = lazyBlocks v S.length := by
  unfold blockCount lazyBlocks
  omega

/-- `n` whole blocks and 1 to `BB` bytes after them: the last block waits in the buffer (41_update R131, R136). -/
theorem lazyBlocks_eq {n f : Nat} (h1 : 1 ≤ f) (hf : f ≤ v.blockBytes) :
    lazyBlocks v (v.blockBytes * n + f) = n := by
  have hnum : v.blockBytes * n + f + v.blockBytes - 1 = v.blockBytes * (n + 1) + (f - 1) := by
    rw [Nat.mul_succ]
    omega
  rw [lazyBlocks, hnum, Nat.mul_add_div (by omega), Nat.div_eq_of_lt (by omega)]
  rfl

theorem lazyBlocks_zero : lazyBlocks v 0 = 0 := by
  cases v <;> rfl

/-! ### A compression at a byte offset (43_compression R171, R180) -/

/-- The counter words hold the byte offset `n` (10_state R27). -/
def Slot.AtOffset (x : Slot v) (n : Nat) : Prop :=
  x.t0 = BitVec.ofNat _ n ∧ x.t1 = BitVec.ofNat _ (n / 2 ^ v.wordBits)

theorem Slot.AtOffset.advance {guard : Bool} {n m : Nat} {x y : Slot v} (hx : x.AtOffset n)
    (hn : n % v.blockBytes = 0) (hm : m ≤ v.blockBytes) (h : x.advanceCounter guard m = some y) :
    y.AtOffset (n + m) := by
  obtain ⟨h0, h1⟩ := hx
  have ht0 : x.t0.toNat = n % 2 ^ v.wordBits := by rw [h0, BitVec.toNat_ofNat]
  have hhigh : (n + m) / 2 ^ v.wordBits =
      if (x.t0.toNat + m) % 2 ^ v.wordBits = 0 ∧ 0 < m then n / 2 ^ v.wordBits + 1 else n / 2 ^ v.wordBits := by
    rw [ht0]
    rcases Variant.sizes v with ⟨hB, hW, hL⟩ | ⟨hB, hW, hL⟩ <;> simp only [hB, hW] at * <;> split <;> omega
  constructor
  · apply BitVec.eq_of_toNat_eq
    rw [Slot.advanceCounter_t0 h, ht0, BitVec.toNat_ofNat, Nat.mod_add_mod]
  · rw [Slot.advanceCounter_t1 h, hhigh, h1]
    split
    · rw [BitVec.ofNat_add]
      rfl
    · rfl

/-- A compression is the chaining of the block at its end offset, and moves the counter there. -/
theorem Slot.AtOffset.compress {guard final : Bool} {n : Nat} {x y : Slot v} (hx : x.AtOffset n)
    (hn : n % v.blockBytes = 0) (h : x.compress guard final = some y) :
    y.AtOffset (n + x.filled.val) ∧ y.h = chain v x.h (n + x.filled.val) final x.buf := by
  obtain ⟨z, hz, rfl⟩ := Slot.compress_cases h
  obtain ⟨h0, h1⟩ := hx.advance hn (Nat.lt_succ_iff.mp x.filled.isLt) hz
  have hzx := Slot.advanceCounter_cases hz
  have hh : z.h = x.h := by rw [hzx]
  have hbuf : z.buf = x.buf := by rw [hzx]
  refine ⟨⟨h0, h1⟩, ?_⟩
  simp only [hh, hbuf, h0, h1]
  rfl

/-! ### What a slot holds after the bytes `S` -/

/-- The slot has taken in the bytes `S`, from the chaining value `h0`: `n` blocks compressed, the rest in the buffer. -/
structure Absorbed (h0 : Vector (Word v) 8) (S : List Byte) (n : Nat) (x : Slot v) : Prop where
  offset : x.AtOffset (v.blockBytes * n)
  length : v.blockBytes * n + x.filled.val = S.length
  buf : x.buf = block v S n
  h : x.h = chainBlocks h0 S n

/-- A slot with a zero counter has taken in the bytes in its buffer. -/
theorem Absorbed.start {h0 : Vector (Word v) 8} {S : List Byte} {x : Slot v} (hh : x.h = h0) (ht0 : x.t0 = 0)
    (ht1 : x.t1 = 0) (hf : x.filled.val = S.length) (hbuf : x.buf = block v S 0) : Absorbed h0 S 0 x where
  offset := ⟨ht0, by rw [ht1, Nat.mul_zero, Nat.zero_div]; rfl⟩
  length := by rw [Nat.mul_zero, Nat.zero_add, hf]
  buf := hbuf
  h := hh

section absorbed
variable {h0 : Vector (Word v) 8} {S : List Byte} {n : Nat} {x y : Slot v} {guard : Bool}

theorem Absorbed.append (hx : Absorbed h0 S n x) (b : Byte) (hlt : x.filled.val < v.blockBytes) :
    Absorbed h0 (S ++ [b]) n (x.append [b]) where
  offset := hx.offset
  length := by
    have hl := hx.length
    rw [Slot.append_filled, List.length_append, List.length_singleton]
    omega
  buf := by
    have hl := hx.length
    ext j hj : 1
    rw [Slot.append_buf_getElem x [b] hj, hx.buf, block_getElem _ _ hj, block_getElem _ _ hj]
    by_cases hjf : j < x.filled.val
    · rw [if_pos hjf, List.getElem?_append_left (by omega)]
    · have hsub : v.blockBytes * n + j - S.length = j - x.filled.val := by omega
      rw [if_neg hjf, List.getElem?_append_right (by omega), hsub, List.getElem?_eq_none (by omega : S.length ≤ _),
        Option.getD_none]
  h := by
    rw [chainBlocks_append h0 [b] (by have hl := hx.length; omega)]
    exact hx.h

theorem Absorbed.compress (hx : Absorbed h0 S n x) (hfull : x.filled.val = v.blockBytes)
    (h : x.compress guard false = some y) : Absorbed h0 S (n + 1) y := by
  obtain ⟨hoffset, hh⟩ := hx.offset.compress (Nat.mul_mod_right _ _) h
  obtain ⟨-, -, -, -, -, hbuf, hfilled⟩ := Slot.compress_keeps h
  have hend : v.blockBytes * (n + 1) = v.blockBytes * n + x.filled.val := by rw [Nat.mul_succ, hfull]
  have hl : v.blockBytes * (n + 1) = S.length := hend.trans hx.length
  rw [← hend] at hoffset hh
  refine ⟨hoffset, by rw [hfilled]; exact hl, ?_, by rw [hh, hx.h, hx.buf, chainBlocks_succ]⟩
  ext j hj : 1
  rw [hbuf, block_getElem _ _ hj, List.getElem?_eq_none (by omega), Vector.getElem_replicate, Option.getD_none]

theorem Absorbed.absorbByte {b : Byte} (hx : Absorbed h0 S n x) (h : x.absorbByte guard b = some y) :
    ∃ m, Absorbed h0 (S ++ [b]) m y := by
  obtain ⟨z, hz, rfl⟩ := Slot.absorbByte_cases h
  have hlt := Slot.makeRoom_lt hz
  rcases Slot.makeRoom_cases hz with ⟨-, rfl⟩ | ⟨hfull, hc⟩
  · exact ⟨n, hx.append b hlt⟩
  · exact ⟨n + 1, (hx.compress hfull hc).append b hlt⟩

theorem Absorbed.absorb (D : List Byte) : ∀ {S : List Byte} {n : Nat} {x : Slot v}, Absorbed h0 S n x →
    x.absorb guard D = some y → ∃ m, Absorbed h0 (S ++ D) m y := by
  induction D with
  | nil =>
    intro S n x hx h
    obtain rfl := Option.some.inj h
    exact ⟨n, by rwa [List.append_nil]⟩
  | cons b D ih =>
    intro S n x hx h
    rw [Slot.absorb_cons] at h
    obtain ⟨z, hz, hy⟩ := Option.bind_eq_some_iff.mp h
    obtain ⟨m, hm⟩ := hx.absorbByte hz
    obtain ⟨k, hk⟩ := ih hm hy
    exact ⟨k, by rwa [List.append_assoc, List.singleton_append] at hk⟩

/-- With at least one byte in the buffer, or none taken in at all, the blocks compressed are those of R136. -/
theorem Absorbed.blocks_eq (hx : Absorbed h0 S n x) (h : 1 ≤ x.filled.val ∨ n = 0 ∧ S = []) :
    n = lazyBlocks v S.length := by
  rcases h with h1 | ⟨rfl, rfl⟩
  · rw [← hx.length, lazyBlocks_eq h1 (Nat.lt_succ_iff.mp x.filled.isLt)]
  · exact lazyBlocks_zero.symm

/-- From a start whose buffer is not compressed yet, absorption compresses the blocks of R136. -/
theorem Absorbed.absorb_start {D : List Byte} (hx : Absorbed h0 S 0 x) (h : x.absorb guard D = some y) :
    Absorbed h0 (S ++ D) (lazyBlocks v (S ++ D).length) y := by
  cases D with
  | nil =>
    obtain rfl := Option.some.inj h
    have hblocks : 0 = lazyBlocks v S.length := by
      refine hx.blocks_eq ((Nat.eq_zero_or_pos x.filled.val).symm.imp id fun hf => ⟨rfl, ?_⟩)
      have hl := hx.length
      exact List.eq_nil_of_length_eq_zero (by omega)
    rwa [List.append_nil, ← hblocks]
  | cons b D =>
    obtain ⟨m, hm⟩ := hx.absorb (b :: D) h
    obtain ⟨hpos, -⟩ := Slot.absorb_filled (b :: D) h
    rwa [← hm.blocks_eq (.inl (hpos (List.cons_ne_nil b D)))]

/-- The bytes beyond the valid ones are zero already. -/
theorem Absorbed.padBuffer_eq (hx : Absorbed h0 S n x) : x.padBuffer = x := by
  have hl := hx.length
  have hbuf : x.padBuffer.buf = x.buf := by
    ext j hj : 1
    by_cases hjf : j < x.filled.val
    · simp [Slot.padBuffer, hjf]
    · rw [hx.buf, block_getElem _ _ hj, List.getElem?_eq_none (by omega)]
      simp [Slot.padBuffer, hjf]
  have hpad : x.padBuffer = { x with buf := x.padBuffer.buf } := rfl
  rw [hpad, hbuf]

/-- The final compression: the last block at the length of `S` (42_digest R157). -/
theorem Absorbed.finalize {out : List Byte} {z : Slot v} (hx : Absorbed h0 S n x)
    (h : x.finalize guard = some (out, z)) :
    out = ((chain v (chainBlocks h0 S n) S.length true (block v S n)).toList.flatMap (leEncode v)).take
      x.nn.toNat := by
  obtain ⟨u, hu, rfl, -⟩ := Slot.finalize_cases h
  rw [hx.padBuffer_eq] at hu
  obtain ⟨-, hh⟩ := hx.offset.compress (Nat.mul_mod_right _ _) hu
  obtain ⟨-, -, hnn, -⟩ := Slot.compress_keeps hu
  rw [hx.length, hx.h, hx.buf] at hh
  rw [Slot.extract, hh, hnn]

end absorbed

/-! ### Block accounting (41_update R136) -/

/-- The bytes with which a context reset primes the slot: the key block, if there is one (40_lifecycle R103). -/
def Slot.primedBytes (x : Slot v) : List Byte := if x.keyed then x.resetCtx.buf.toList else []

theorem Slot.primedBytes_length (x : Slot v) :
    x.primedBytes.length = if x.keyed then v.blockBytes else 0 := by
  unfold Slot.primedBytes
  split <;> simp

theorem Absorbed.resetCtx (x : Slot v) : Absorbed x.resetCtx.h x.primedBytes 0 x.resetCtx := by
  refine .start rfl rfl rfl ?_ ?_
  · rw [Slot.primedBytes_length, Slot.resetCtx_filled]
    split <;> simp
  · ext j hj : 1
    rw [block_getElem _ _ hj, Nat.mul_zero, Nat.zero_add, Slot.primedBytes]
    cases hk : x.keyed with
    | true => simp [hj]
    | false => simp [hk]

/-- Settles O28: absorption from a reset compresses the blocks of R136, and the counter words hold their bytes. -/
theorem blockAccounting : Obligations.BlockAccounting := by
  intro v guard m x y L hL hlt h
  have hy := (Absorbed.resetCtx x).absorb_start h
  have hlen : (x.primedBytes ++ m).length = L := by
    rw [List.length_append, Slot.primedBytes_length, hL, Nat.add_comm]
  rw [hlen] at hy
  obtain ⟨⟨h0, h1⟩, hl, -, -⟩ := hy
  refine ⟨?_, ?_, ?_⟩
  · rw [h0, BitVec.toNat_ofNat, Nat.mod_eq_of_lt hlt]
  · rw [h1, Nat.div_eq_of_lt hlt]
    rfl
  · omega

end Sys2Proof.Machine
end

section
/-! PROOFS. Finalization (O29, O30, O31, O32, O33): where the digest commands complete, what they report and leave, and
that it is the BLAKE2 function of the key and the bytes absorbed. -/

namespace Sys2Proof.Machine

open Sys2Proof.Claims

variable {v : Variant}

/-! ### Where a digest completes (43_compression R171) -/

theorem Slot.finalize_eq_some {guard : Bool} {x z : Slot v} (h : x.padBuffer.compress guard true = some z) :
    x.finalize guard = some (z.extract, z.resetCtx) := by
  rw [Slot.finalize, h, Option.map_some]

theorem Slot.absorbFinalize_of_absorb {guard : Bool} {D : List Byte} {x y : Slot v} (h : x.absorb guard D = some y) :
    x.absorbFinalize guard D = y.finalize guard := by
  rw [Slot.absorbFinalize, h, Option.bind_some]

/-- Padding changes neither the counter nor `FILLED`, so the final compression has the room of any other. -/
theorem Slot.exists_compress_padBuffer {guard : Bool} {x : Slot v} (h : Headroom guard x 0) :
    ∃ z, x.padBuffer.compress guard true = some z :=
  Slot.exists_compress (x := x.padBuffer) true h

/-- Room for a digest of `D` is room for absorbing it and for the final compression. -/
theorem Slot.exists_absorb_headroom {guard : Bool} {D : List Byte} {x : Slot v} (h : Headroom guard x D.length) :
    ∃ y, x.absorb guard D = some y ∧ Headroom guard y 0 := by
  obtain ⟨y, hy⟩ := Slot.exists_absorb (h.imp id fun hlt => .inr hlt.le)
  refine ⟨y, hy, ?_⟩
  cases guard with
  | false => exact .inl rfl
  | true =>
    have hle := Slot.absorb_bytesIn_le D hy
    unfold Slot.bytesIn at hle
    exact .inr (by have hlt := h.resolve_left nofun; omega)

/-! ### The digest commands (42_digest R152 to R154) -/

section commands
variable {s : State} {x : Slot s.variant}

theorem commandEffect_dig (c : SlotId) (hr : x.live = true ∧ x.poison = false) :
    commandEffect s (.dig c) (some x) = digestEffect (x.finalize s.guard) :=
  readyEffect_ready hr _

theorem commandEffect_digb (c : SlotId) {D : List Byte} (hr : x.live = true ∧ x.poison = false)
    (hD : s.wholeSource = .ok D) :
    commandEffect s (.digb c) (some x) = digestEffect (x.absorbFinalize s.guard D) := by
  refine (readyEffect_ready hr _).trans ?_
  rw [hD]
  rfl

theorem commandEffect_digr (c : SlotId) {D : List Byte} {off len : Int} (hr : x.live = true ∧ x.poison = false)
    (hD : s.sourceWindow off len = .ok D) :
    commandEffect s (.digr c off len) (some x) = digestEffect (x.absorbFinalize s.guard D) := by
  refine (readyEffect_ready hr _).trans ?_
  rw [hD]
  rfl

/-- A command that finalizes the slot `y`, which has the digest length of its own slot. -/
theorem exec_finalize {i : Instr} {y z : Slot s.variant} (hx : SlotIs s (slotOf i) x) (hw : writtenSlot i = slotOf i)
    (he : commandEffect s i (some x) = digestEffect (y.finalize s.guard)) (hnn : y.nn = x.nn)
    (hz : y.padBuffer.compress s.guard true = some z) :
    ∃ t, exec i s = .next t ∧ OnlySlotBecomes s t (slotOf i) z.resetCtx ∧
      ResultsAre t .ok 0 x.nn ((digestBytes z.h).take x.nn.toNat) := by
  obtain ⟨-, -, hznn, -⟩ := Slot.compress_keeps hz
  have hnn' : z.nn = x.nn := hznn.trans hnn
  rw [Slot.finalize_eq_some hz] at he
  obtain ⟨t, hexec, hres, honly⟩ := exec_write (bytesResults z.nn z.extract) hx (hw ▸ hx.lt) he
  rw [hw] at honly
  rw [← hnn']
  exact ⟨t, hexec, honly, hres⟩

/-- A command that absorbs `D` and then finalizes, with room for both. -/
theorem exec_absorbFinalize {i : Instr} {D : List Byte} (hx : SlotIs s (slotOf i) x) (hw : writtenSlot i = slotOf i)
    (he : commandEffect s i (some x) = digestEffect (x.absorbFinalize s.guard D))
    (hroom : Headroom s.guard x D.length) :
    ∃ t y z, x.absorb s.guard D = some y ∧ y.padBuffer.compress s.guard true = some z ∧ exec i s = .next t ∧
      OnlySlotBecomes s t (slotOf i) z.resetCtx ∧ ResultsAre t .ok 0 x.nn ((digestBytes z.h).take x.nn.toNat) := by
  obtain ⟨y, hy, hroom'⟩ := Slot.exists_absorb_headroom hroom
  obtain ⟨z, hz⟩ := Slot.exists_compress_padBuffer hroom'
  obtain ⟨-, -, hnn, -⟩ := Slot.absorb_keeps hy
  rw [Slot.absorbFinalize_of_absorb hy] at he
  obtain ⟨t, h⟩ := exec_finalize hx hw he hnn hz
  exact ⟨t, y, z, hy, hz, h⟩

end commands

/-- Settles O29: with room the final compression completes, and `DIG` reports and resets. -/
theorem digReturnsDigest : Obligations.DigReturnsDigest := by
  intro s c x ⟨hx, hr⟩ hroom
  obtain ⟨z, hz⟩ := Slot.exists_compress_padBuffer hroom
  obtain ⟨t, h⟩ := exec_finalize (i := .dig c) hx rfl (commandEffect_dig c hr) rfl hz
  exact ⟨t, z, hz, h⟩

/-- Settles O30: with room the absorption and the final compression complete. -/
theorem digbAndDigrReturnDigest : Obligations.DigbAndDigrReturnDigest := by
  refine ⟨fun s c x D ⟨hx, hr⟩ hD hroom => ?digb, fun s c x D off len ⟨hx, hr⟩ hD hw hroom => ?digr⟩
  case digb =>
    exact exec_absorbFinalize (i := .digb c) hx rfl (commandEffect_digb c hr (State.wholeSource_present hD)) hroom
  case digr =>
    exact exec_absorbFinalize (i := .digr c off len) hx rfl
      (commandEffect_digr c hr (State.sourceWindow_inside hD hw)) (by rwa [length_take_drop hw])

/-! ### An update followed by `DIG` (30_encoding R86) -/

theorem digestEffect_ne_report (o : Option (List Byte × Slot v)) (r : Results) : digestEffect o ≠ .report r := by
  rcases o with _ | ⟨out, y⟩ <;> nofun

/-- Absorbing and finalizing in one command is finalizing in a second one after the write of the first. -/
theorem exec_dig_after_absorb {s : State} {i : Instr} {c : SlotId} {x y : Slot s.variant} {D : List Byte}
    (hi : writtenSlot i = c ∧ slotOf i = c) (hx : Ready s c x) (hy : x.absorb s.guard D = some y)
    (he : commandEffect s i (some x) = digestEffect (x.absorbFinalize s.guard D)) :
    exec i s = exec (.dig c) ((s.setSlot c y).complete okResults) := by
  obtain ⟨hw, rfl⟩ := hi
  obtain ⟨hl, hp, -⟩ := Slot.absorb_keeps hy
  obtain ⟨hslot', hr'⟩ := ready_after_write (r := okResults) hx hl hp
  obtain ⟨hslot, -⟩ := hx
  rw [Slot.absorbFinalize_of_absorb hy] at he
  calc exec i s
      = .next (s.applyEffect (slotOf i) (digestEffect (y.finalize s.guard))) := by
        rw [exec_of_commandEffect hslot he, hw]
    _ = .next (State.applyEffect ((s.setSlot (slotOf i) y).complete okResults) (slotOf i)
          (digestEffect (y.finalize s.guard))) :=
        congrArg _ (State.applyEffect_after_write y okResults (digestEffect_ne_report _)).symm
    _ = exec (.dig (slotOf i)) ((s.setSlot (slotOf i) y).complete okResults) :=
        (exec_of_commandEffect (s := (s.setSlot (slotOf i) y).complete okResults) (i := .dig (slotOf i)) hslot'
          (commandEffect_dig _ hr')).symm

theorem State.sourceWindow_whole {s : State} {D : List Byte} (h : s.src = some D) :
    s.sourceWindow 0 D.length = s.wholeSource := by
  have hwindow := State.sourceWindow_inside (off := 0) (len := D.length) h (Nat.zero_add _).le
  rw [List.drop_zero, List.take_length] at hwindow
  exact hwindow.trans (State.wholeSource_present h).symm

/-- Settles O31: the window of all of `SRC` is the whole operand; and an update that ends with `OK` has written the slot
that its digest form finalizes. -/
theorem wholeAndWindowFormsAgree : Obligations.WholeAndWindowFormsAgree := by
  refine ⟨fun s c D hD => ?window, fun s t c h hok => ?digb, fun s t c off len h hok => ?digr⟩
  case window =>
    have heffect : commandEffect s (.upd c) = commandEffect s (.updr c 0 D.length) := by
      rw [commandEffect, commandEffect, State.sourceWindow_whole hD]
    rw [exec_eq_applyEffect, exec_eq_applyEffect, heffect]
    rfl
  case digb =>
    obtain ⟨x, D, y, ⟨hx, hr⟩, hD, hy, rfl⟩ := absorbed_of_upd_ok h hok
    exact exec_dig_after_absorb (i := .digb c) ⟨rfl, rfl⟩ ⟨hx, hr⟩ hy (commandEffect_digb c hr hD)
  case digr =>
    obtain ⟨x, D, y, ⟨hx, hr⟩, hD, hy, rfl⟩ := absorbed_of_updr_ok h hok
    exact exec_dig_after_absorb (i := .digr c off len) ⟨rfl, rfl⟩ ⟨hx, hr⟩ hy (commandEffect_digr c hr hD)

/-! ### The slot after a digest (42_digest R155) -/

/-- An effect that resets the context of `x`, unless it ends with an error. -/
def Effect.ResetsIfOk (x : Slot v) : Effect v → Prop
  | .write y _ => y = x.resetCtx
  | .report r => r.status ≠ .ok
  | .guardTrip => True

theorem digestEffect_finalize_resets (guard : Bool) (x : Slot v) :
    (digestEffect (x.finalize guard)).ResetsIfOk x := by
  cases hf : x.finalize guard with
  | none => trivial
  | some p => exact Slot.finalize_resets hf

theorem digestEffect_absorbFinalize_resets (guard : Bool) (D : List Byte) (x : Slot v) :
    (digestEffect (x.absorbFinalize guard D)).ResetsIfOk x := by
  cases hy : x.absorb guard D with
  | none =>
    rw [Slot.absorbFinalize, hy]
    trivial
  | some y =>
    obtain ⟨h1, h2, h3, h4, h5⟩ := Slot.absorb_keeps hy
    have hreset : y.resetCtx = x.resetCtx := Slot.resetCtx_congr h1 h2 h3 h4 h5
    rw [Slot.absorbFinalize_of_absorb hy]
    cases hf : y.finalize guard with
    | none => trivial
    | some p => exact (Slot.finalize_resets hf).trans hreset

theorem mayCompress_of_digests {i : Instr} (h : digests i = true) : mayCompress i = true := by
  cases i with
  | dig | digb | digr => rfl
  | _ => cases h

/-- A digest command has entry checks, and then resets its slot or ends with an error. -/
theorem commandEffect_digest {s : State} {i : Instr} (h : digests i = true) :
    ∃ g, commandEffect s i = readyEffect g ∧ ∀ x, (g x).ResetsIfOk x := by
  cases i with
  | dig c => exact ⟨_, rfl, digestEffect_finalize_resets s.guard⟩
  | digb c =>
    refine ⟨_, rfl, fun x => ?_⟩
    cases ho : s.wholeSource with
    | error e =>
      obtain rfl := wholeSource_error (by rw [ho]; rfl)
      exact nofun
    | ok D => exact digestEffect_absorbFinalize_resets s.guard D x
  | digr c off len =>
    refine ⟨_, rfl, fun x => ?_⟩
    cases ho : s.sourceWindow off len with
    | error e => obtain rfl | rfl := sourceWindow_error (by rw [ho]; rfl) <;> exact nofun
    | ok D => exact digestEffect_absorbFinalize_resets s.guard D x
  | _ => cases h

/-- Settles O32: a digest that ends with `OK` has written the context reset of its slot, and so does `RST`. -/
theorem digestAutoResets : Obligations.DigestAutoResets := by
  intro s t i x hi hx h hok
  obtain ⟨g, hg, hresets⟩ := commandEffect_digest hi
  obtain ⟨y, ⟨hy, hr⟩, ht⟩ := ready_of_exec_ok hg h hok
  obtain rfl := Option.some.inj (hx.symm.trans hy)
  have hslot : t.slot? (slotOf i) = some ⟨s.variant, x.resetCtx⟩ := by
    have hw := writtenSlot_of_mayCompress (mayCompress_of_digests hi)
    have hreset := hresets x
    subst ht
    rw [hw] at hok ⊢
    cases he : g x with
    | write z r =>
      rw [he] at hreset
      obtain rfl : z = x.resetCtx := hreset
      exact State.slot?_setSlot_self _ hx.lt
    | report r =>
      rw [he] at hreset hok
      exact absurd hok (Status.code_ne_ok hreset)
    | guardTrip =>
      rw [he] at hok
      exact absurd hok (Status.code_ne_ok (e := .illegalState) (by decide))
  obtain ⟨r, hexec, -, hrst, -⟩ := exec_write okResults (i := .rst (slotOf i)) hx hx.lt (readyEffect_ready hr _)
  exact ⟨hslot, r, hexec, hrst.trans hslot.symm⟩

/-! ### The BLAKE2 function (42_digest R157) -/

theorem stream_append (key A B : List Byte) : stream v key A ++ B = stream v key (A ++ B) := by
  rw [stream, stream, List.append_assoc]

/-- A slot just constructed has taken in the key block, if there is a key. -/
theorem Absorbed.construct (w : Slot v) (nn : Byte) {key : List Byte} (hkey : key.length ≤ v.maxKey) :
    Absorbed (initialH v nn key.length) (stream v key []) 0 (w.construct nn key) := by
  have hle := hkey.trans (maxKey_le_blockBytes v)
  rw [w.construct_eq nn hkey]
  refine .start rfl rfl rfl ?filled ?buf
  case filled =>
    cases key with
    | nil => rfl
    | cons b key =>
      rw [if_neg (List.cons_ne_nil b key), stream, if_neg (List.cons_ne_nil b key), List.append_nil, List.length_append,
        List.length_replicate, Fin.val_last]
      omega
  case buf =>
    ext j hj : 1
    rw [block_getElem _ _ hj, Nat.mul_zero, Nat.zero_add, Vector.getElem_ofFn, stream, List.append_nil]
    by_cases hk : key = []
    · rw [if_pos hk, hk]
    · rw [if_neg hk]
      by_cases hjk : j < key.length
      · rw [List.getElem?_append_left hjk]
      · rw [List.getElem?_append_right (Nat.not_lt.mp hjk), List.getElem?_eq_none (Nat.not_lt.mp hjk),
          List.getElem?_replicate]
        split <;> rfl

theorem foldlM_absorb (guard : Bool) (chunks : List (List Byte)) : ∀ x : Slot v,
    chunks.foldlM (fun y D => Slot.absorb guard D y) x = x.absorb guard chunks.flatten := by
  induction chunks with
  | nil => exact fun _ => rfl
  | cons D chunks ih =>
    intro x
    rw [List.foldlM_cons, List.flatten_cons, Slot.absorb_append]
    exact Option.bind_congr fun y _ => ih y

/-- Absorbing `m` into a slot just constructed and finalizing gives the BLAKE2 function, and the constructed slot. -/
theorem Slot.finalize_eq_blake2 {guard : Bool} {w y z : Slot v} {nn : Byte} {key m out : List Byte}
    (hkey : key.length ≤ v.maxKey) (hy : (w.construct nn key).absorb guard m = some y)
    (hz : y.finalize guard = some (out, z)) : out = blake2 v nn key m ∧ z = w.construct nn key := by
  obtain ⟨h1, h2, h3, h4, h5⟩ := Slot.absorb_keeps hy
  have habs := (Absorbed.construct w nn hkey).absorb_start hy
  rw [stream_append, List.nil_append] at habs
  constructor
  · rw [habs.finalize hz, h3, blake2, blockCount_sub_one]
    rfl
  · rw [Slot.finalize_resets hz, Slot.resetCtx_congr h1 h2 h3 h4 h5]
    rfl

/-- A slot just constructed has room for any operand that fits in `SRC` (43_compression R171, 00_scope R5). -/
theorem Slot.headroom_construct (guard : Bool) (w : Slot v) (nn : Byte) (key : List Byte) {m : List Byte}
    (h : sourceFits (some m) = true) : Headroom guard (w.construct nn key) m.length := by
  have hm : m.length ≤ 2 ^ 31 - 1 := of_decide_eq_true h
  have hf := (w.construct nn key).filled.isLt
  have hc : (w.construct nn key).counter = 0 := Nat.zero_mul _
  right
  rw [hc]
  rcases Variant.sizes v with ⟨hB, -, hL⟩ | ⟨hB, -, hL⟩ <;> rw [hL] <;> omega

/-- Settles O33: the chunks are absorbed as their concatenation; and `DIGB` has room for any operand. -/
theorem digestIsBlake2 : Obligations.DigestIsBlake2 := by
  refine ⟨fun v guard w nn key chunks y out z hkey hy hz => ?slot, fun s c w nn key m hkey hx hm hfits => ?command⟩
  case slot => exact Slot.finalize_eq_blake2 hkey ((foldlM_absorb guard chunks _).symm.trans hy) hz
  case command =>
    obtain ⟨y, hy, hroom⟩ := Slot.exists_absorb_headroom (Slot.headroom_construct s.guard w nn key (hm ▸ hfits))
    obtain ⟨u, hu⟩ := Slot.exists_compress_padBuffer hroom
    have hz := Slot.finalize_eq_some hu
    obtain ⟨hout, hreset⟩ := Slot.finalize_eq_blake2 hkey hy hz
    have heffect : commandEffect s (.digb c) (some (w.construct nn key)) =
        .write (w.construct nn key) (bytesResults nn (blake2 s.variant nn key m)) := by
      rw [commandEffect_digb c ⟨rfl, rfl⟩ (State.wholeSource_present hm), Slot.absorbFinalize_of_absorb hy, hz, hout,
        hreset]
      rfl
    exact exec_write (bytesResults _ _) (i := .digb c) hx hx.lt heffect

end Sys2Proof.Machine
end

section
/-! PROOFS. The counter guard in the first compression (O37), the carry test (O40), half-rounds (O43), and the codec on
whole words, blocks and digests (O46, O47). -/

namespace Sys2Proof.Machine

open Sys2Proof.Claims

variable {v : Variant}

/-! ### The counter guard in the first compression (43_compression R171) -/

theorem State.guard_eq_true {s : State} (h : s.variant = .s32 ∨ s.wideGuard = true) : s.guard = true := by
  obtain ⟨hs32, hb64⟩ := counterAdvanceRule.1 s
  rcases hv : s.variant with _ | _
  · rw [hb64 hv]
    exact h.resolve_left fun h32 => by cases hv.symm.trans h32
  · exact hs32 hv

/-- A full buffer whose compression would carry out of `T1`. -/
structure Slot.AtLimit (x : Slot v) : Prop where
  full : x.filled.val = v.blockBytes
  t1 : x.t1 = BitVec.allOnes _
  t0 : x.t0.toNat + v.blockBytes = 2 ^ v.wordBits

section limit
variable {x : Slot v} (h : x.AtLimit)
include h

theorem Slot.AtLimit.compress_eq_none (final : Bool) : x.compress true final = none := by
  refine Option.map_eq_none_iff.mpr ((x.advanceCounter_eq_none_iff true _).mpr ⟨?_, rfl, ?_⟩)
  · rw [h.full, h.t0, Nat.mod_self]
    rcases Variant.sizes v with ⟨hB, -⟩ | ⟨hB, -⟩ <;> omega
  · rw [h.t1, BitVec.toNat_allOnes]

theorem Slot.AtLimit.absorbByte_eq_none (b : Byte) : x.absorbByte true b = none := by
  rw [Slot.absorbByte, Slot.makeRoom_full h.full, h.compress_eq_none false, Option.map_none]

theorem Slot.AtLimit.absorb_eq_none {D : List Byte} (hD : D ≠ []) : x.absorb true D = none := by
  obtain ⟨b, D, rfl⟩ := List.exists_cons_of_ne_nil hD
  rw [Slot.absorb_cons, h.absorbByte_eq_none b, Option.bind_none]

theorem Slot.AtLimit.finalize_eq_none : x.finalize true = none := by
  have hpad : x.padBuffer.AtLimit := ⟨h.full, h.t1, h.t0⟩
  rw [Slot.finalize, hpad.compress_eq_none true, Option.map_none]

theorem Slot.AtLimit.absorbFinalize_eq_none {D : List Byte} (hD : D ≠ []) : x.absorbFinalize true D = none := by
  rw [Slot.absorbFinalize, h.absorb_eq_none hD, Option.bind_none]

end limit

/-- Settles O37: at the limit every procedure fails, and the command then ends as O57 says. -/
theorem counterGuardPoisonsSlot : Obligations.CounterGuardPoisonsSlot := by
  intro s c x D b off len i hready hguard hfull ht1 ht0 hD hne hlen hw hi
  have hx : x.AtLimit := ⟨hfull, ht1, ht0⟩
  have hwindow : (D.drop off).take len ≠ [] := by
    rw [← List.length_pos_iff, length_take_drop hw]
    exact hlen
  obtain ⟨hupd1, hdig, hoperand⟩ := counterGuardTripsInAnyBlock s c x hready
  obtain ⟨hupd, hdigb, hwindows⟩ := hoperand D hD
  obtain ⟨hupdr, hdigr⟩ := hwindows off len hw
  rw [State.guard_eq_true hguard] at *
  simp only [List.mem_cons, List.not_mem_nil, or_false] at hi
  rcases hi with rfl | rfl | rfl | rfl | rfl | rfl
  · exact hupd1 b (hx.absorbByte_eq_none b)
  · exact hupd (hx.absorb_eq_none hne)
  · exact hupdr (hx.absorb_eq_none hwindow)
  · exact hdig hx.finalize_eq_none
  · exact hdigb (hx.absorbFinalize_eq_none hne)
  · exact hdigr (hx.absorbFinalize_eq_none hwindow)

/-! ### The carry test (43_compression R172) -/

/-- Settles O40: below the next multiple of the block size the sum wraps to zero or not at all. -/
theorem carryIsUsualCarry : Obligations.CarryIsUsualCarry := by
  refine fun v guard n x y hn hx => ⟨?_, fun h => Slot.advanceCounter_counter hx hn h⟩
  have h0 := x.t0.isLt
  rw [counterCarry_iff, BitVec.toNat_add, BitVec.toNat_ofNat, Nat.add_mod_mod]
  rcases Variant.sizes v with ⟨hB, hW, hL⟩ | ⟨hB, hW, hL⟩ <;> simp only [hB, hW] at * <;> omega

/-! ### Applications of `G` on disjoint words (43_compression R178) -/

section disjoint
variable {V W : Vector (Word v) 16} {a b c d a' b' c' d' : Fin 16} {x y x' y' : Word v}

theorem mixG_other (h : [a, b, c, d].Nodup) {j : Fin 16} (hj : j ∉ [a, b, c, d]) : (mixG V a b c d x y)[j] = V[j] := by
  obtain ⟨-, -, -, -, hkept⟩ := mixG_spec V x y h
  exact hkept j hj

/-- The words that `G` writes depend on the same four words alone. -/
theorem mixG_own_congr (h : [a, b, c, d].Nodup) (hVW : ∀ j ∈ [a, b, c, d], V[j] = W[j]) {j : Fin 16}
    (hj : j ∈ [a, b, c, d]) : (mixG V a b c d x y)[j] = (mixG W a b c d x y)[j] := by
  have ha : V[a] = W[a] := hVW a (by simp)
  have hb : V[b] = W[b] := hVW b (by simp)
  have hc : V[c] = W[c] := hVW c (by simp)
  have hd : V[d] = W[d] := hVW d (by simp)
  have hV := mixG_spec V x y h
  have hW := mixG_spec W x y h
  rw [IsQuarterRound, ha, hb, hc, hd] at hV
  obtain ⟨hVa, hVb, hVc, hVd, -⟩ := hV
  obtain ⟨hWa, hWb, hWc, hWd, -⟩ := hW
  simp only [List.mem_cons, List.not_mem_nil, or_false] at hj
  rcases hj with rfl | rfl | rfl | rfl
  · exact hVa.trans hWa.symm
  · exact hVb.trans hWb.symm
  · exact hVc.trans hWc.symm
  · exact hVd.trans hWd.symm

/-- On the words of one application the order of two does not matter: the other neither reads nor writes them. -/
theorem mixG_mixG_own (h : [a, b, c, d].Nodup) (h' : [a', b', c', d'].Nodup)
    (hdis : List.Disjoint [a, b, c, d] [a', b', c', d']) {j : Fin 16} (hj : j ∈ [a, b, c, d]) :
    (mixG (mixG V a b c d x y) a' b' c' d' x' y')[j] = (mixG (mixG V a' b' c' d' x' y') a b c d x y)[j] := by
  rw [mixG_other h' fun hj' => hdis hj hj']
  exact mixG_own_congr h (fun k hk => (mixG_other h' fun hk' => hdis hk hk').symm) hj

end disjoint

/-- Settles O43: word by word, a word is written by the one application, by the other, or by neither. -/
theorem halfRoundOrderIrrelevant : Obligations.HalfRoundOrderIrrelevant := by
  intro v V a b c d a' b' c' d' x y x' y' hnodup
  obtain ⟨h, h', hdis⟩ : [a, b, c, d].Nodup ∧ [a', b', c', d'].Nodup ∧
      List.Disjoint [a, b, c, d] [a', b', c', d'] := List.nodup_append'.mp hnodup
  have hword (j : Fin 16) : (mixG (mixG V a b c d x y) a' b' c' d' x' y')[j] =
      (mixG (mixG V a' b' c' d' x' y') a b c d x y)[j] := by
    by_cases hj : j ∈ [a, b, c, d]
    · exact mixG_mixG_own h h' hdis hj
    · by_cases hj' : j ∈ [a', b', c', d']
      · exact (mixG_mixG_own h' h hdis.symm hj').symm
      · rw [mixG_other h' hj', mixG_other h hj, mixG_other h hj, mixG_other h' hj']
  exact Vector.ext fun j hj => hword ⟨j, hj⟩

/-! ### Words, blocks and digests as bytes (44_codec R203, 20_memory R54) -/

/-- A word is its bytes. -/
theorem eq_of_bytes {x y : Word v} (h : ∀ k < v.wordBytes, x.extractLsb' (8 * k) 8 = y.extractLsb' (8 * k) 8) :
    x = y := by
  apply BitVec.eq_of_getLsbD_eq
  intro j hj
  have hk : j / 8 < v.wordBytes := by
    have hw := wordBits_eq_mul_wordBytes v
    omega
  have hbit := congrArg (BitVec.getLsbD · (j % 8)) (h (j / 8) hk)
  have hlt : j % 8 < 8 := Nat.mod_lt _ (by decide)
  simpa [hlt, Nat.div_add_mod] using hbit

/-- Settles O46: both ways byte `k` of the word is byte `k` of the list. -/
theorem codecRoundTrip : Obligations.CodecRoundTrip := by
  refine ⟨fun v x => eq_of_bytes fun k hk => ?_, fun v D hD => ?_⟩
  · exact extractLsb'_leDecode (leEncode_length x).le (leEncode_getElem? x hk)
  · refine List.ext_getElem ((leEncode_length _).trans hD.symm) fun k hk hkD => Option.some.inj ?_
    rw [leEncode_length] at hk
    rw [← List.getElem?_eq_getElem, ← List.getElem?_eq_getElem, leEncode_getElem? _ hk,
      extractLsb'_leDecode hD.le (List.getElem?_eq_getElem hkD), List.getElem?_eq_getElem]

theorem blockBytes_eq_mul_wordBytes (v : Variant) : v.blockBytes = v.wordBytes * 16 := by
  cases v <;> rfl

theorem blockSlice_length (buf : Vector Byte v.blockBytes) (j : Nat) : (blockSlice buf j).length ≤ v.wordBytes :=
  List.length_take_le _ _

theorem blockSlice_getElem? (buf : Vector Byte v.blockBytes) (j : Nat) {k : Nat} (hk : k < v.wordBytes) :
    (blockSlice buf j)[k]? = buf.toList[v.wordBytes * j + k]? := by
  rw [blockSlice, List.getElem?_take_of_lt hk, List.getElem?_drop]

/-- In a concatenation of lists of one length the byte at a place is found by its list. -/
theorem getElem?_flatMap_of_length {α β : Type} {f : α → List β} {n : Nat} (hf : ∀ a, (f a).length = n) (l : List α) :
    ∀ {i k : Nat} {a : α}, l[i]? = some a → k < n → (l.flatMap f)[n * i + k]? = (f a)[k]? := by
  induction l with
  | nil => exact nofun
  | cons b l ih =>
    intro i k a hi hk
    rw [List.flatMap_cons]
    cases i with
    | zero =>
      obtain rfl := Option.some.inj hi
      rw [Nat.mul_zero, Nat.zero_add, List.getElem?_append_left (by rwa [hf])]
    | succ i =>
      have hplace : n * (i + 1) + k = (f b).length + (n * i + k) := by rw [hf, Nat.mul_succ]; omega
      rw [hplace, List.getElem?_append_right (Nat.le_add_right _ _), Nat.add_sub_cancel_left]
      exact ih hi hk

/-- Settles O47: a message word decodes its bytes of the buffer, and the digest is made of whole encodings. -/
theorem blockAndDigestBytes : Obligations.BlockAndDigestBytes := by
  refine ⟨fun v buf j k hk => ?block, fun v x i k hk hnn => ?digest⟩
  case block =>
    have hlt : v.wordBytes * j.val + k < buf.toList.length := by
      have hj : v.wordBytes * (j.val + 1) ≤ v.wordBytes * 16 := Nat.mul_le_mul_left _ j.isLt
      rw [Vector.length_toList, blockBytes_eq_mul_wordBytes]
      rw [Nat.mul_succ] at hj
      omega
    have hbyte := List.getElem?_eq_getElem hlt
    have hword : (messageWords buf)[j] = leDecode v (blockSlice buf j.val) := by simp [messageWords]
    rw [hbyte, hword,
      extractLsb'_leDecode (blockSlice_length buf j.val) ((blockSlice_getElem? buf j.val hk).trans hbyte)]
  case digest =>
    have hi : x.h.toList[i.val]? = some x.h[i] := by simp
    rw [Slot.extract, List.getElem?_take_of_lt hnn, getElem?_flatMap_of_length leEncode_length _ hi hk,
      leEncode_getElem? _ hk]

end Sys2Proof.Machine
end

section
/-! PROOFS. Rules about every command (O49, O50, O51, O53, O54): what its effect keeps of the device and of its slot, and
what its results may show. -/

namespace Sys2Proof.Machine

open Sys2Proof.Claims

variable {v : Variant}

/-! ### The device (10_state R36, R37) -/

theorem deviceKept_applyEffect (s : State) (c : SlotId) (e : Effect s.variant) : DeviceKept s (s.applyEffect c e) := by
  cases e with
  | write x r => exact ⟨rfl, State.setSlot_nctx s c x, rfl, rfl, rfl, rfl⟩
  | report r => exact ⟨rfl, rfl, rfl, rfl, rfl, rfl⟩
  | guardTrip => exact ⟨rfl, State.setSlot_nctx s c _, rfl, rfl, rfl, rfl⟩

/-- Settles O49: an effect changes a slot and the result registers. -/
theorem execKeepsDevice : Obligations.ExecKeepsDevice := by
  intro s t i h
  obtain rfl := Host.Outcome.next.inj ((exec_eq_applyEffect s i).symm.trans h)
  exact deviceKept_applyEffect s _ _

/-! ### What a command leaves of its slot (10_state R22 to R25, R37) -/

/-- An effect on a slot that holds `x`, of a command that neither constructs nor copies: what it writes keeps the flags
and the digest length, and the key too unless the command is `BURN`; only on a ready slot can the guard trip. -/
inductive Effect.Keeps (x : Slot v) (burns : Prop) : Effect v → Prop
  | write {y : Slot v} {r : Results} (hlive : y.live = x.live) (hnn : y.nn = x.nn)
      (hkey : ¬ burns → y.kk = x.kk ∧ y.key = x.key) : Effect.Keeps x burns (.write y r)
  | report (r : Results) : Effect.Keeps x burns (.report r)
  | guardTrip (hlive : x.live = true) (hpoison : x.poison = false) : Effect.Keeps x burns .guardTrip

section keeps
variable {x : Slot v} {burns : Prop}

theorem Effect.Keeps.ready {g : Slot v → Effect v} (h : x.live = true ∧ x.poison = false → (g x).Keeps x burns) :
    (readyEffect g (some x)).Keeps x burns := by
  cases hl : x.live with
  | false => exact readyEffect_not_live hl g ▸ .report _
  | true =>
    cases hp : x.poison with
    | true => exact readyEffect_poisoned hl hp g ▸ .report _
    | false => exact readyEffect_ready ⟨hl, hp⟩ g ▸ h ⟨hl, hp⟩

theorem Effect.Keeps.operand {α : Type} {g : α → Effect v} (o : Except Status α) (h : ∀ a, (g a).Keeps x burns) :
    (operandEffect g o).Keeps x burns := by
  cases o with
  | error e => exact .report _
  | ok a => exact h a

theorem Effect.Keeps.absorb {guard : Bool} {D : List Byte} (hr : x.live = true ∧ x.poison = false) :
    (updateEffect (x.absorb guard D)).Keeps x burns := by
  cases h : x.absorb guard D with
  | none => exact .guardTrip hr.1 hr.2
  | some y =>
    obtain ⟨hlive, -, hnn, hkk, hkey⟩ := Slot.absorb_keeps h
    exact .write hlive hnn fun _ => ⟨hkk, hkey⟩

theorem Effect.Keeps.digest {e : Effect v} (hr : x.live = true ∧ x.poison = false) (h : e.ResetsIfOk x) :
    e.Keeps x burns := by
  cases e with
  | write y r =>
    obtain rfl : y = x.resetCtx := h
    exact .write rfl rfl fun _ => ⟨rfl, rfl⟩
  | report r => exact .report r
  | guardTrip => exact .guardTrip hr.1 hr.2

end keeps

/-- All that a command that neither constructs nor copies can do to its slot. -/
theorem commandEffect_keeps {s : State} {i : Instr} (x : Slot s.variant) (hi : constructs i = false)
    (hcopy : ∀ c d, i ≠ .copy c d) : (commandEffect s i (some x)).Keeps x (i = .burn (slotOf i)) := by
  cases i with
  | init | initk => cases hi
  | copy c d => exact absurd rfl (hcopy c d)
  | upd1 c b =>
    refine .ready fun hr => ?_
    rw [Slot.absorbByte_eq_absorb]
    exact .absorb hr
  | upd c | updr c off len => exact .ready fun hr => .operand _ fun _ => .absorb hr
  | dig c => exact .ready fun hr => .digest hr (digestEffect_finalize_resets s.guard x)
  | digb c | digr c off len =>
    exact .ready fun hr => .operand _ fun D => .digest hr (digestEffect_absorbFinalize_resets s.guard D x)
  | rst c => exact .ready fun _ => .write rfl rfl fun _ => ⟨rfl, rfl⟩
  | burn c => exact .ready fun _ => .write rfl rfl fun hb => absurd rfl hb
  | len c | alg c => exact .ready fun _ => .report _

/-- `COPY` writes its ready source, into another slot, or writes nothing; and it completes only on a ready source. -/
theorem commandEffect_copy_cases {s : State} (c d : SlotId) (x : Slot s.variant) :
    (∃ r, commandEffect s (.copy c d) (some x) = .report r ∧
      (r.status = .ok → d = c ∧ x.live = true ∧ x.poison = false)) ∨
    (commandEffect s (.copy c d) (some x) = .write x okResults ∧ x.live = true ∧ x.poison = false) := by
  have hcopy : commandEffect s (.copy c d) (some x) = copyEffect s.nctx c d (some x) := rfl
  rw [hcopy, copyEffect]
  split
  · exact .inl ⟨_, rfl, nofun⟩
  · cases hl : x.live with
    | false => exact .inl ⟨_, readyEffect_not_live hl _, nofun⟩
    | true =>
      cases hp : x.poison with
      | true => exact .inl ⟨_, readyEffect_poisoned hl hp _, nofun⟩
      | false =>
        rw [readyEffect_ready ⟨hl, hp⟩]
        by_cases hdc : d = c
        · exact .inl ⟨okResults, if_neg (not_not.mpr hdc), fun _ => ⟨hdc, rfl, rfl⟩⟩
        · exact .inr ⟨if_pos hdc, rfl, rfl⟩

/-- Construction writes a live slot that is not poisoned and completes, or reports an error. -/
theorem commandEffect_construction_cases {s : State} {i : Instr} (x : Slot s.variant) (hi : constructs i = true)
    (hd : (writtenSlot i).toNat < s.nctx) :
    (∃ r, commandEffect s i (some x) = .report r ∧ r.status ≠ .ok) ∨
    ∃ y, commandEffect s i (some x) = .write y okResults ∧ y.live = true ∧ y.poison = false := by
  cases h : firstError i s x with
  | none =>
    obtain ⟨nn, K, he⟩ := commandEffect_construction hi h
    exact .inr ⟨_, he, rfl, rfl⟩
  | some e =>
    have he : e ≠ .ok := by
      rw [firstError_construction hi] at h
      obtain rfl | rfl | ⟨-, rfl⟩ := argumentError_cases h <;> exact nofun
    exact .inl ⟨_, Checked.eq_report (h ▸ commandEffect_checked x hd), he⟩

/-! ### The results and the slot of an effect -/

/-- The results that an effect reports (30_encoding R84; 60_exceptions R229). -/
def Effect.results : Effect v → Results
  | .write _ r | .report r => r
  | .guardTrip => errorResults .illegalState

theorem resultsAre_applyEffect (s : State) (c : SlotId) (e : Effect s.variant) :
    ResultsAre (s.applyEffect c e) e.results.status e.results.value e.results.dlen e.results.data := by
  cases e with
  | write x r => exact resultsAre_complete _ r
  | report r => exact resultsAre_complete s r
  | guardTrip => exact endedWith_reportError _ _

theorem status_applyEffect_eq_code {s : State} {c : SlotId} {e : Effect s.variant} {st : Status} :
    (s.applyEffect c e).status = st.code ↔ e.results.status = st := by
  obtain ⟨hst, -⟩ := resultsAre_applyEffect s c e
  rw [hst]
  exact Status.code_injective.eq_iff

/-- What an effect leaves in its slot, which holds `x`; `n` is the number of the draw of unspecified contents. -/
def Effect.slotAfter (n : Nat) (x : Slot v) : Effect v → Slot v
  | .write y _ => y
  | .report _ => x
  | .guardTrip => Slot.unspecified v true true n

theorem slot?_applyEffect_self {s : State} {c : SlotId} {x : Slot s.variant} (h : SlotIs s c x)
    (e : Effect s.variant) : (s.applyEffect c e).slot? c = some ⟨s.variant, e.slotAfter s.freeDraws x⟩ := by
  cases e with
  | write y r => exact State.slot?_setSlot_self y h.lt
  | report r => exact State.slot?_eq h
  | guardTrip => exact State.slot?_setSlot_self _ h.lt

/-- A command is refused for a slot that the device lacks, or has its effect on the slot it may write. -/
theorem exec_cases {s t : State} {i : Instr} (h : exec i s = .next t) :
    t = s.reportError .illegalCommand ∨
    ∃ x, SlotIs s (slotOf i) x ∧ (writtenSlot i).toNat < s.nctx ∧
      t = s.applyEffect (writtenSlot i) (commandEffect s i (some x)) := by
  obtain rfl := Host.Outcome.next.inj ((exec_eq_applyEffect s i).symm.trans h)
  by_cases habsent : s.nctx ≤ (slotOf i).toNat ∨ s.nctx ≤ (writtenSlot i).toNat
  · exact .inl (by rw [commandEffect_absent habsent]; rfl)
  · obtain ⟨hc, hd⟩ := not_or.mp habsent
    obtain ⟨x, hx⟩ := exists_slotIs (Nat.not_le.mp hc)
    exact .inr ⟨x, hx, Nat.not_le.mp hd, by rw [hx]⟩

/-- The commands by what they do to their slot: construct it, copy into it, or go on from what it holds. -/
theorem constructs_or_copy_or_continues (i : Instr) :
    constructs i = true ∨ (∃ c d, i = .copy c d) ∨ (constructs i = false ∧ ∀ c d, i ≠ .copy c d) := by
  cases i with
  | init | initk => exact .inl rfl
  | copy c d => exact .inr (.inl ⟨c, d, rfl⟩)
  | _ => exact .inr (.inr ⟨rfl, nofun⟩)

theorem writtenSlot_of_not_copy {i : Instr} (h : ∀ c d, i ≠ .copy c d) : writtenSlot i = slotOf i := by
  cases i with
  | copy c d => exact absurd rfl (h c d)
  | _ => rfl

/-! ### `LIVE` (10_state R22) -/

/-- The slot that a command may write stays live, and becomes live only by a construction or a copy that completes. -/
theorem commandEffect_live {s : State} {i : Instr} {x y : Slot s.variant} (n : Nat) (hx : SlotIs s (slotOf i) x)
    (hy : SlotIs s (writtenSlot i) y) :
    (y.live = true → ((commandEffect s i (some x)).slotAfter n y).live = true) ∧
    (((commandEffect s i (some x)).slotAfter n y).live = true → y.live = true ∨
      ((commandEffect s i (some x)).results.status = .ok ∧ (constructs i = true ∨ ∃ c d, i = .copy c d))) := by
  rcases constructs_or_copy_or_continues i with hi | ⟨c, d, rfl⟩ | ⟨hi, hcopy⟩
  · rcases commandEffect_construction_cases x hi hy.lt with ⟨r, he, -⟩ | ⟨z, he, hz, -⟩ <;> rw [he]
    · exact ⟨id, .inl⟩
    · exact ⟨fun _ => hz, fun _ => .inr ⟨rfl, .inl hi⟩⟩
  · rcases commandEffect_copy_cases c d x with ⟨r, he, -⟩ | ⟨he, hl, -⟩ <;> rw [he]
    · exact ⟨id, .inl⟩
    · exact ⟨fun _ => hl, fun _ => .inr ⟨rfl, .inr ⟨c, d, rfl⟩⟩⟩
  · rw [writtenSlot_of_not_copy hcopy] at hy
    obtain rfl := Option.some.inj (hx.symm.trans hy)
    have hkeeps := commandEffect_keeps x hi hcopy
    generalize commandEffect s i (some x) = e at hkeeps
    cases hkeeps with
    | write hlive => exact ⟨hlive.trans, fun h => .inl (hlive.symm.trans h)⟩
    | report r => exact ⟨id, .inl⟩
    | guardTrip hlive => exact ⟨fun _ => rfl, fun _ => .inl hlive⟩

/-- Construction and `COPY` that complete leave a slot that is live and not poisoned. -/
theorem commandEffect_ok_live {s : State} {i : Instr} {x y : Slot s.variant} (n : Nat) (hx : SlotIs s (slotOf i) x)
    (hy : SlotIs s (writtenSlot i) y) (hi : constructs i = true ∨ ∃ c d, i = .copy c d)
    (hok : (commandEffect s i (some x)).results.status = .ok) :
    ((commandEffect s i (some x)).slotAfter n y).live = true ∧
      ((commandEffect s i (some x)).slotAfter n y).poison = false := by
  rcases hi with hi | ⟨c, d, rfl⟩
  · rcases commandEffect_construction_cases x hi hy.lt with ⟨r, he, hr⟩ | ⟨z, he, hz⟩ <;> rw [he] at hok ⊢
    · exact absurd hok hr
    · exact hz
  · rcases commandEffect_copy_cases c d x with ⟨r, he, hr⟩ | ⟨he, hready⟩ <;> rw [he] at hok ⊢
    · obtain ⟨rfl, hready⟩ := hr hok
      obtain rfl := Option.some.inj (hx.symm.trans hy)
      exact hready
    · exact hready

/-- Settles O50: a slot that a command does not write is as before; for the one it may write see the effects. -/
theorem liveFlagRule : Obligations.LiveFlagRule := by
  refine ⟨fun s t i d x hx h => ?command, fun s t i y hy h hok hi => ?completed, fun s x hx => ?reset⟩
  case command =>
    by_cases hd : d = writtenSlot i
    · subst hd
      rcases exec_cases h with rfl | ⟨z, hz, -, rfl⟩
      · exact ⟨x, State.slot?_eq hx, id, .inl⟩
      · obtain ⟨hkept, hset⟩ := commandEffect_live s.freeDraws hz hx
        refine ⟨_, slot?_applyEffect_self hx _, hkept, fun hlive => (hset hlive).imp id fun ⟨hok, hi⟩ => ?_⟩
        refine ⟨rfl, status_applyEffect_eq_code.mpr hok, hi.imp id ?_⟩
        rintro ⟨c, d, rfl⟩
        exact ⟨c, rfl⟩
    · exact ⟨x, (exec_slot?_ne h hd).trans (State.slot?_eq hx), id, .inl⟩
  case completed =>
    rcases exec_cases h with rfl | ⟨x, hx, -, rfl⟩
    · exact absurd hok (Status.code_ne_ok (e := .illegalCommand) (by decide))
    · exact ⟨_, slot?_applyEffect_self hy _,
        commandEffect_ok_live s.freeDraws hx hy hi (status_applyEffect_eq_code.mp hok)⟩
  case reset =>
    obtain ⟨n, -, rfl⟩ := List.mem_map.mp hx
    rfl

/-! ### `NN`, `KK` and `KEY` (10_state R24, R25, R37) -/

/-- Settles O51: a command that neither constructs nor copies into the slot keeps them in what it writes there, `BURN`
the digest length alone. -/
theorem digestLengthAndKeyWriters : Obligations.DigestLengthAndKeyWriters := by
  intro s t i d x hx h hi hcopy
  by_cases hd : d = writtenSlot i
  · have hnocopy : ∀ c d', i ≠ .copy c d' := by
      rintro c d' rfl
      exact hcopy c (hd ▸ rfl)
    rw [writtenSlot_of_not_copy hnocopy] at hd
    subst hd
    rcases exec_cases h with rfl | ⟨y, hy, -, rfl⟩
    · exact ⟨x, State.slot?_eq hx, .inr ⟨rfl, fun _ => ⟨rfl, rfl⟩⟩⟩
    · obtain rfl := Option.some.inj (hx.symm.trans hy)
      have hkeeps := commandEffect_keeps x hi hnocopy
      have hslot := slot?_applyEffect_self hx (commandEffect s i (some x))
      rw [writtenSlot_of_not_copy hnocopy]
      refine ⟨_, hslot, ?_⟩
      generalize commandEffect s i (some x) = e at hkeeps
      cases hkeeps with
      | write hlive hnn hkey => exact .inr ⟨hnn, hkey⟩
      | report r => exact .inr ⟨rfl, fun _ => ⟨rfl, rfl⟩⟩
      | guardTrip _ hpoison => exact .inl ⟨hpoison, rfl⟩
  · exact ⟨x, (exec_slot?_ne h hd).trans (State.slot?_eq hx), .inr ⟨rfl, fun _ => ⟨rfl, rfl⟩⟩⟩

/-! ### The result registers by command (30_encoding R84) -/

section results
variable {P : Results → Prop}

theorem readyEffect_results {g : Slot v → Effect v} (herror : ∀ e, P (errorResults e)) (hg : ∀ x, P (g x).results)
    (o : Option (Slot v)) : P (readyEffect g o).results := by
  rcases o with _ | x
  · exact herror .illegalCommand
  · cases hl : x.live with
    | false => exact readyEffect_not_live hl g ▸ herror .noInstance
    | true =>
      cases hp : x.poison with
      | true => exact readyEffect_poisoned hl hp g ▸ herror .illegalState
      | false => exact readyEffect_ready ⟨hl, hp⟩ g ▸ hg x

theorem slotEffect_results {g : Slot v → Effect v} (herror : ∀ e, P (errorResults e)) (hg : ∀ x, P (g x).results)
    (o : Option (Slot v)) : P (slotEffect g o).results := by
  cases o with
  | none => exact herror .illegalCommand
  | some x => exact hg x

theorem operandEffect_results {α : Type} {g : α → Effect v} (herror : ∀ e, P (errorResults e))
    (hg : ∀ a, P (g a).results) (o : Except Status α) : P (operandEffect g o).results := by
  cases o with
  | error e => exact herror e
  | ok a => exact hg a

theorem updateEffect_results (herror : ∀ e, P (errorResults e)) (hok : P okResults) (o : Option (Slot v)) :
    P (updateEffect o).results := by
  cases o with
  | none => exact herror .illegalState
  | some y => exact hok

theorem digestEffect_results (herror : ∀ e, P (errorResults e)) (hok : ∀ dlen data, P (bytesResults dlen data))
    (o : Option (List Byte × Slot v)) : P (digestEffect o).results := by
  cases o with
  | none => exact herror .illegalState
  | some p => exact hok _ _

end results

/-- What a command's results may show: a value after `LEN` alone, bytes after a digest or `ALG` alone (30_encoding R84),
and either only with `OK`. -/
def ShowsOnly (i : Instr) (r : Results) : Prop :=
  (r.value ≠ 0 → r.status = .ok ∧ ∃ c, i = .len c) ∧
  (r.dlen ≠ 0 ∨ r.data ≠ [] → r.status = .ok ∧ (digests i = true ∨ ∃ c, i = .alg c))

theorem showsOnly_nothing (i : Instr) (st : Status) : ShowsOnly i ⟨st, 0, 0, []⟩ :=
  ⟨fun h => absurd rfl h, fun h => h.elim (absurd rfl) (absurd rfl)⟩

theorem showsOnly_bytes {i : Instr} (h : digests i = true ∨ ∃ c, i = .alg c) (dlen : BitVec 8) (data : List Byte) :
    ShowsOnly i (bytesResults dlen data) :=
  ⟨fun hvalue => absurd rfl hvalue, fun _ => ⟨rfl, h⟩⟩

theorem showsOnly_value (c : SlotId) (value : BitVec 32) : ShowsOnly (.len c) (valueResults value) :=
  ⟨fun _ => ⟨rfl, c, rfl⟩, fun h => h.elim (absurd rfl) (absurd rfl)⟩

theorem commandEffect_showsOnly (s : State) (i : Instr) (o : Option (Slot s.variant)) :
    ShowsOnly i (commandEffect s i o).results := by
  have herror : ∀ e, ShowsOnly i (errorResults e) := showsOnly_nothing i
  have hok : ShowsOnly i okResults := showsOnly_nothing i .ok
  cases i with
  | init c nn | initk c nn =>
    refine slotEffect_results herror (fun _ => operandEffect_results herror (fun _ => ?_) _) o
    exact hok
  | upd1 c b => exact readyEffect_results herror (fun _ => updateEffect_results herror hok _) o
  | upd c | updr c off len =>
    exact readyEffect_results herror
      (fun _ => operandEffect_results herror (fun _ => updateEffect_results herror hok _) _) o
  | dig c => exact readyEffect_results herror (fun _ => digestEffect_results herror (showsOnly_bytes (.inl rfl)) _) o
  | digb c | digr c off len =>
    exact readyEffect_results herror
      (fun _ => operandEffect_results herror
        (fun _ => digestEffect_results herror (showsOnly_bytes (.inl rfl)) _) _) o
  | rst c | burn c =>
    refine readyEffect_results herror (fun _ => ?_) o
    exact hok
  | len c =>
    refine readyEffect_results herror (fun x => ?_) o
    exact showsOnly_value c _
  | alg c =>
    refine readyEffect_results herror (fun _ => ?_) o
    exact showsOnly_bytes (.inr ⟨c, rfl⟩) _ _
  | copy c d =>
    have hcopy : commandEffect s (.copy c d) o = copyEffect s.nctx c d o := rfl
    rw [hcopy, copyEffect]
    split
    · exact herror .illegalCommand
    · exact readyEffect_results herror (fun x => by split <;> exact hok) o

/-- Settles O53: the registers hold the results of the command's effect. -/
theorem resultRegistersByCommand : Obligations.ResultRegistersByCommand := by
  intro s t i h
  obtain rfl := Host.Outcome.next.inj ((exec_eq_applyEffect s i).symm.trans h)
  obtain ⟨hvalue, hbytes⟩ := commandEffect_showsOnly s i s.bank.slots[(slotOf i).toNat]?
  generalize commandEffect s i s.bank.slots[(slotOf i).toNat]? = e at hvalue hbytes
  obtain ⟨hst, hv, hdlen, hdata⟩ := resultsAre_applyEffect s (writtenSlot i) e
  rw [hst, hv, hdlen]
  refine ⟨fun hne => (hvalue hne).imp (congrArg Status.code) id,
    fun hne => (hbytes (hne.imp id fun hnot hnil => hnot ?_)).imp (congrArg Status.code) id⟩
  rw [hnil] at hdata
  exact hdata

/-! ### What does not depend on the hidden fields (10_state R40) -/

/-- Two effects that the host tells apart only by a tripped guard. -/
def Effect.LookAlike (guard : Bool) (e f : Effect v) : Prop :=
  e.results = f.results ∨
    (guard = true ∧ (e.results.status = .illegalState ∨ f.results.status = .illegalState))

section lookAlike
variable {guard : Bool}

theorem slotEffect_lookAlike {g : Slot v → Effect v} {o p : Option (Slot v)}
    (hg : ∀ x y, PublicEq x y → (g x).LookAlike guard (g y)) (h : Option.Rel PublicEq o p) :
    (slotEffect g o).LookAlike guard (slotEffect g p) := by
  cases h with
  | none => exact .inl rfl
  | some hxy => exact hg _ _ hxy

theorem readyEffect_lookAlike {g : Slot v → Effect v} {o p : Option (Slot v)}
    (hg : ∀ x y, PublicEq x y → (g x).LookAlike guard (g y)) (h : Option.Rel PublicEq o p) :
    (readyEffect g o).LookAlike guard (readyEffect g p) := by
  refine slotEffect_lookAlike (fun x y hxy => ?_) h
  have hentry : x.entryCheck = y.entryCheck := by
    obtain ⟨hlive, hpoison, -⟩ := hxy
    rw [Slot.entryCheck, Slot.entryCheck, hlive, hpoison]
  rw [hentry]
  cases y.entryCheck with
  | none => exact hg x y hxy
  | some e => exact .inl rfl

theorem operandEffect_lookAlike {α : Type} {g g' : α → Effect v} (o : Except Status α)
    (hg : ∀ a, (g a).LookAlike guard (g' a)) : (operandEffect g o).LookAlike guard (operandEffect g' o) := by
  cases o with
  | error e => exact .inl rfl
  | ok a => exact hg a

theorem updateEffect_lookAlike {o p : Option (Slot v)} (ho : o = none → guard = true) (hp : p = none → guard = true) :
    (updateEffect o).LookAlike guard (updateEffect p) := by
  rcases o with _ | x
  · exact .inr ⟨ho rfl, .inl rfl⟩
  · rcases p with _ | y
    · exact .inr ⟨hp rfl, .inr rfl⟩
    · exact .inl rfl

end lookAlike

/-- The effects of a command that is no digest on two slots that are publicly alike. -/
theorem commandEffect_lookAlike {s : State} {i : Instr} {o p : Option (Slot s.variant)} (hi : digests i = false)
    (h : Option.Rel PublicEq o p) : (commandEffect s i o).LookAlike s.guard (commandEffect s i p) := by
  have habsorb (x y : Slot s.variant) (D : List Byte) :
      (updateEffect (x.absorb s.guard D)).LookAlike s.guard (updateEffect (y.absorb s.guard D)) :=
    updateEffect_lookAlike Slot.guard_of_absorb_eq_none Slot.guard_of_absorb_eq_none
  cases i with
  | init c nn | initk c nn => exact slotEffect_lookAlike (fun _ _ _ => operandEffect_lookAlike _ fun _ => .inl rfl) h
  | upd1 c b =>
    exact readyEffect_lookAlike (fun _ _ _ =>
      updateEffect_lookAlike Slot.guard_of_absorbByte_eq_none Slot.guard_of_absorbByte_eq_none) h
  | upd c | updr c off len =>
    exact readyEffect_lookAlike (fun x y _ => operandEffect_lookAlike _ (habsorb x y)) h
  | rst c | burn c | alg c => exact readyEffect_lookAlike (fun _ _ _ => .inl rfl) h
  | len c =>
    refine readyEffect_lookAlike (fun x y hxy => .inl ?_) h
    obtain ⟨-, -, hnn⟩ := hxy
    rw [hnn]
  | copy c d =>
    have hcopy (o : Option (Slot s.variant)) : commandEffect s (.copy c d) o = copyEffect s.nctx c d o := rfl
    rw [hcopy, hcopy, copyEffect]
    split
    · exact .inl rfl
    · exact readyEffect_lookAlike (fun x y _ => .inl (by split <;> rfl)) h
  | dig | digb | digr => cases hi

theorem forall₂_getElem? {R : Slot v → Slot v → Prop} {xs ys : List (Slot v)} (h : List.Forall₂ R xs ys) :
    ∀ n : Nat, Option.Rel R xs[n]? ys[n]? := by
  induction h with
  | nil => exact fun n => .none
  | cons hxy _ ih =>
    intro n
    cases n with
    | zero => exact .some hxy
    | succ n => exact ih n

theorem observe_applyEffect_congr {s s' : State} {c : SlotId} {e : Effect s.variant} {f : Effect s'.variant}
    (h : e.results = f.results) : (s.applyEffect c e).observe = (s'.applyEffect c f).observe := by
  have hobserve (s : State) (e : Effect s.variant) : (s.applyEffect c e).observe =
      ⟨e.results.status.code, e.results.value, e.results.dlen, padTo _ e.results.data⟩ := by
    cases e <;> rfl
  rw [hobserve, hobserve, h]

/-- Settles O54: the two effects look alike, and what could tell them apart is excluded. -/
theorem hiddenStateOnlyThroughDigests : Obligations.HiddenStateOnlyThroughDigests := by
  intro s t u i v xs ys hxy hi ht hu hguard
  have hlike := commandEffect_lookAlike (s := withBank s v ys) hi (forall₂_getElem? hxy (slotOf i).toNat)
  have hxs := exec_eq_applyEffect (withBank s v xs) i
  rw [commandEffect_withBank_congr hxy.length_eq i] at hxs
  obtain rfl := Host.Outcome.next.inj (hxs.symm.trans ht)
  obtain rfl := Host.Outcome.next.inj ((exec_eq_applyEffect (withBank s v ys) i).symm.trans hu)
  rcases hlike with hsame | ⟨hon, htrip⟩
  · exact observe_applyEffect_congr hsame
  · rcases hguard with hoff | ⟨htok, huok⟩
    · cases hon.symm.trans hoff
    · exact (htrip.elim (fun h => htok (status_applyEffect_eq_code.mpr h))
        fun h => huok (status_applyEffect_eq_code.mpr h)).elim

end Sys2Proof.Machine
end
